-- ==== Sys2Proof/Word.lean ====
section
/-! DEFINITION. The word types of HSYN-CORE: bytes, the host port's 24-bit data, the UQ8.16 fixed-point
phase (00_scope.md R12), the 12-bit converter word and the 16-bit timer value. -/

namespace Sys2Proof

/-- One byte of either serial link, of a queue slot or of a wavetable (10_state.md R39, R43). -/
abbrev Byte := BitVec 8

/-- The data of one host-port access: 24 bits (00_scope.md R6, `HDATA_BITS`). -/
abbrev Word24 := BitVec 24

/-- A UQ8.16 phase or increment: raw `r` stands for `r / 2^16` (00_scope.md R12). -/
abbrev Phase := BitVec 24

/-- The converter word, 12 bits unsigned (00_scope.md R6, `DAC_BITS`). -/
abbrev Sample12 := BitVec 12

/-- The timer's count and counter, 16 bits (00_scope.md R6, `TMR_BITS`). -/
abbrev Timer16 := BitVec 16

end Sys2Proof
end

