-- ==== Sys2Proof/Config.lean ====
section
/-! DEFINITION. What one configuration of HSYN-CORE fixes: the parameters of 00_scope.md R6 at the values of the
spec's reference configuration, each a named constant as R7 and R114 ask; the parameters the spec leaves OPEN, as
constants without a body; and the free values, which stand for what the spec says may hold any value. -/

namespace Sys2Proof.Config

/-! ### The reference configuration (00_scope.md R6) -/

/-- `SR`, the sample rate in Hz. -/
abbrev sampleRate : Nat := 16000

/-- `F_REF`, the reference frequency of the stored cycle in Hz (40_tablegen.md R126). -/
abbrev refFrequency : Nat := 100

/-- `N`, the wavetable length in samples. -/
abbrev tableLength : Nat := 160

/-- `NWAVES`, the number of waveform shapes. -/
abbrev waves : Nat := 4

/-- The largest 8-bit table sample (`SAMPLE_BITS` = 8). -/
abbrev sampleMax : Nat := 255

/-- The largest 12-bit converter word (`DAC_BITS` = 12; 42_synth.md R177). -/
abbrev dacMax : Nat := 4095

/-- `DAC_CTRL`, the control nibble of the converter frame (30_encoding.md R100, R101, R114). -/
abbrev dacCtrl : BitVec 4 := 0b0011#4

/-- `DAC_CTRL` as the base of byte 1 of a frame, `0x30` (30_encoding.md R102, R114). -/
abbrev dacByte1Base : BitVec 8 := dacCtrl ++ 0#4

/-- The sample high-nibble mask, `0xF00`: the bits of a sample that byte 1 carries (30_encoding.md R114). -/
abbrev sampleHighMask : BitVec 12 := 0xF00#12

/-- The sample low-byte mask, `0x0FF`: the bits of a sample that byte 2 carries (30_encoding.md R114). -/
abbrev sampleLowMask : BitVec 12 := 0x0FF#12

/-- `CAP`, the event-queue capacity in slots. -/
abbrev cap : Nat := 10

/-- `NNOTES`, the entries of the note table. -/
abbrev notes : Nat := 108

/-- `BAUD`, the serial link's rate; a property of the LINK agent, not a register (70_reset_and_hazards.md R298). -/
abbrev baud : Nat := 31250

/-- `ST_NOTE_ON`, the Note On status nibble (30_encoding.md R91, R114). -/
abbrev stNoteOn : BitVec 4 := 0b1001#4

/-- `ST_NOTE_OFF`, the Note Off status nibble (30_encoding.md R91, R114). -/
abbrev stNoteOff : BitVec 4 := 0b1000#4

/-- The status mask, `0xF0`: the bits of a received byte that give its class (30_encoding.md R91, R114). -/
abbrev statusMask : BitVec 8 := 0xF0#8

/-- `2^FRAC`, one table step in raw units; `FRAC` = 16. -/
abbrev fracScale : Nat := 65536

/-- `PMOD = N * 2^FRAC`, the phase modulus in raw units, `0xA00000`. -/
abbrev pmod : Nat := tableLength * fracScale

/-- `NVOICES`, the oscillators served per tick (42_synth.md R172); with one voice `MIX` has no place. -/
abbrev voices : Nat := 1

/-- `AMP_RESET`, the reset value of `OSC_AMP` (10_state.md R25). -/
abbrev ampReset : Byte := 16#8

/-- The scale 127.5 of the sine table (40_tablegen.md R121). -/
def sineScale : Rat := 255 / 2

/-- The phase offset `3*pi/2` of the sine table, in units of `pi` (40_tablegen.md R121). -/
def sinePhase : Rat := 3 / 2

/-- The frequency of note A4 in Hz, 440 (40_tablegen.md R128). -/
def tuningFrequency : Nat := 440

/-- The note-table index of A4 (40_tablegen.md R128, D23). -/
def tuningIndex : Nat := 57

/-- The notes of an octave in twelve-tone equal temperament (40_tablegen.md R128, D23). -/
def octaveNotes : Nat := 12

/-- The source's worked increment of A4, 4.4 samples a tick (42_synth.md R181). -/
def workedIncrement : Rat := 44 / 10

/-- The source's worked number of ticks for one cycle of A4, about 36.4 (42_synth.md R181). -/
def workedTicks : Rat := 364 / 10

/-- The sine table's entry 40, a rounding tie: 128 in this spec, 127 in a firmware that evaluates the formula in
IEEE doubles (93_implementation_defined.md U5, D12; log 13). -/
abbrev sineTieEntry : Nat := 128

/-- `HOST_RUNS_IN_FRAME`: whether `HRD` and `HWR` may step while a frame is in progress (60_exceptions.md R259). -/
def hostRunsInFrame : Bool := true

/-! ### OPEN parameters: named, without a value (92_eei_decisions.md, end; log 7) -/

/-- The electrical level of a pin. -/
inductive Level where
  | low
  | high
deriving DecidableEq, Repr, Inhabited

/-- The other level. -/
def Level.other : Level → Level
  | .low => .high
  | .high => .low

/-- `F_SYS`, the system clock in Hz (D10, 91 N12). -/
opaque systemClock : Nat

/-- `NOTE_INDEX_OFFSET`: MIDI note number minus note-table index, the host's (D6, 40_tablegen.md R129). -/
opaque noteIndexOffset : Nat

/-- `CS_ACTIVE_LEVEL`, the level of chip-select in its "select" state (D19, 10_state.md R34). -/
opaque csActiveLevel : Level

/-! ### Free values: what the spec says may hold any value (70_reset_and_hazards.md R290, R292; U8) -/

/-- The byte a queue slot field holds after the reset numbered by the first argument, at the queue address of the
second, until the RX service writes it (U8; log 4). -/
opaque unwrittenSlotByte : Nat → Nat → Byte

/-- The byte a wavetable address holds after the reset numbered by the first argument, until `INIT` fills the
tables (R43; log 5). -/
opaque unfilledTableByte : Nat → Nat → Byte

/-- What `RXDATA` holds after the operation `RST` numbered by the argument (R290; log 6). -/
opaque rxdataAfterReset : Nat → Byte

end Sys2Proof.Config
end

