-- ==== Sys2Proof/Syntax.lean ====
section
/-! DEFINITION. The syntax: the formats of 30_encoding.md and the one inductive `Instr`, with one constructor for
each of the 28 rows of spec/opcode_table.json. -/

namespace Sys2Proof

/-- The formats in which a word reaches the block (30_encoding.md R91, R96, R100, R105, R111). HREG words come in two
formats, one for each host operation, whose bytes are the operand bytes of `HRD` and of `HWR` (R111; log 10). -/
inductive Format where
  /-- TRACE, the operations of the agents (R111). -/
  | trace
  /-- RXBYTE, a byte on the serial input (R91). -/
  | rxByte
  /-- DACFRAME, a 16-bit converter frame (R100). -/
  | dacFrame
  /-- MIDIEVENT, the three bytes of a queue slot (R96). -/
  | midiEvent
  /-- HREG, a register address presented for reading (R105). -/
  | hregRead
  /-- HREG, a register address and 24 bits of data presented for writing (R105). -/
  | hregWrite
deriving DecidableEq, Repr

/-- One access of a host register: a read, or a write of 24 bits of data (44_host_port.md R220, R221). -/
inductive HostAccess where
  | rd
  | wr (v : Word24)
deriving DecidableEq, Repr

/-- One constructor per row of spec/opcode_table.json, in the table's order. -/
inductive Instr where
  -- format TRACE: the eight operations (00_scope.md R8)
  /-- `RST`, 70_reset_and_hazards.md R290. -/
  | rst
  /-- `INIT`, 40_tablegen.md R120. -/
  | init
  /-- `CLK`, 60_exceptions.md R262. -/
  | clk
  /-- `RXB b`, 41_midi_rx.md R140. -/
  | rxb (b : Byte)
  /-- `SVC`, 60_exceptions.md R258. -/
  | svc
  /-- `XDONE`, 43_dac_framer.md R204, R205. -/
  | xdone
  /-- `HRD a`, 44_host_port.md R220. -/
  | hrd (a : Byte)
  /-- `HWR a, v`, 44_host_port.md R221. -/
  | hwr (a : Byte) (v : Word24)
  -- format RXBYTE: the byte classes (30_encoding.md R91)
  /-- `ST_OFF`, `1000cccc`, 41_midi_rx.md R143. -/
  | stOff (c : BitVec 4)
  /-- `ST_ON`, `1001cccc`, 41_midi_rx.md R143. -/
  | stOn (c : BitVec 4)
  /-- `OTHER`, pattern `0ddddddd`, 41_midi_rx.md R144, R146, R147. -/
  | other0 (d : BitVec 7)
  /-- `OTHER`, pattern `101ddddd`. -/
  | other101 (d : BitVec 5)
  /-- `OTHER`, pattern `11dddddd`. -/
  | other11 (d : BitVec 6)
  /-- format DACFRAME: `0011dddddddddddd`, 43_dac_framer.md R201. -/
  | dacFrame (d : Sample12)
  /-- format MIDIEVENT: `100tcccc nnnnnnnn vvvvvvvv`, 30_encoding.md R96, 41_midi_rx.md R146. -/
  | midiEvent (t : BitVec 1) (c : BitVec 4) (n v : Byte)
  -- format HREG: the registers (10_state.md R36)
  /-- `Q_WIDX`, 44_host_port.md R222. -/
  | qWidx (acc : HostAccess)
  /-- `Q_RIDX`, R223. -/
  | qRidx (acc : HostAccess)
  /-- `IRQ_CTRL`, R224. -/
  | irqCtrl (acc : HostAccess)
  /-- `IRQ_PEND`, R225. -/
  | irqPend (acc : HostAccess)
  /-- `TMR_CTRL`, R226. -/
  | tmrCtrl (acc : HostAccess)
  /-- `TMR_COUNT`, R227. -/
  | tmrCount (acc : HostAccess)
  /-- `TMR_CNT`, R235. -/
  | tmrCnt (acc : HostAccess)
  /-- `OSC_CTRL`, R228. -/
  | oscCtrl (acc : HostAccess)
  /-- `OSC_PHASE`, R229. -/
  | oscPhase (acc : HostAccess)
  /-- `OSC_INC`, R230. -/
  | oscInc (acc : HostAccess)
  /-- `OSC_AMP`, R231. -/
  | oscAmp (acc : HostAccess)
  /-- `Q_SLOT[i].f`, address `01iiiiff`, R232. -/
  | qSlot (i : BitVec 4) (f : BitVec 2) (acc : HostAccess)
  /-- `NFT[k]`, address `1kkkkkkk`, R233. -/
  | nft (k : BitVec 7) (acc : HostAccess)
deriving DecidableEq, Repr

/-- The HREG format that carries an access. -/
def HostAccess.format : HostAccess → Format
  | .rd => .hregRead
  | .wr _ => .hregWrite

/-- The format whose words an instruction is written in. -/
def Instr.format : Instr → Format
  | .rst => .trace
  | .init => .trace
  | .clk => .trace
  | .rxb _ => .trace
  | .svc => .trace
  | .xdone => .trace
  | .hrd _ => .trace
  | .hwr _ _ => .trace
  | .stOff _ => .rxByte
  | .stOn _ => .rxByte
  | .other0 _ => .rxByte
  | .other101 _ => .rxByte
  | .other11 _ => .rxByte
  | .dacFrame _ => .dacFrame
  | .midiEvent _ _ _ _ => .midiEvent
  | .qWidx acc => acc.format
  | .qRidx acc => acc.format
  | .irqCtrl acc => acc.format
  | .irqPend acc => acc.format
  | .tmrCtrl acc => acc.format
  | .tmrCount acc => acc.format
  | .tmrCnt acc => acc.format
  | .oscCtrl acc => acc.format
  | .oscPhase acc => acc.format
  | .oscInc acc => acc.format
  | .oscAmp acc => acc.format
  | .qSlot _ _ acc => acc.format
  | .nft _ acc => acc.format

end Sys2Proof
end

