-- ==== Sys2Proof/WellFormed.lean ====
section
/-! DEFINITION. Which instructions are well formed. Two rows of the table over-cover: `Q_SLOT` (a slot index of 10 or
more, or field 3, is unmapped) and `NFT` (an index of 108 or more is unmapped): 44_host_port.md R234. Every other
operand is legal at every value its field admits. -/

namespace Sys2Proof

/-- A slot index and a field number name a slot field (10_state.md R36, 44_host_port.md R232). -/
def slotFieldMapped (i : BitVec 4) (f : BitVec 2) : Bool :=
  decide (i.toNat < Config.cap) && decide (f ≠ 3#2)

/-- A note-table index is in the table (44_host_port.md R233). -/
def noteMapped (k : BitVec 7) : Bool :=
  decide (k.toNat < Config.notes)

/-- The check of an instruction's operands. -/
def Instr.wellFormed : Instr → Bool
  | .rst => true
  | .init => true
  | .clk => true
  | .rxb _ => true
  | .svc => true
  | .xdone => true
  | .hrd _ => true
  | .hwr _ _ => true
  | .stOff _ => true
  | .stOn _ => true
  | .other0 _ => true
  | .other101 _ => true
  | .other11 _ => true
  | .dacFrame _ => true
  | .midiEvent _ _ _ _ => true
  | .qWidx _ => true
  | .qRidx _ => true
  | .irqCtrl _ => true
  | .irqPend _ => true
  | .tmrCtrl _ => true
  | .tmrCount _ => true
  | .tmrCnt _ => true
  | .oscCtrl _ => true
  | .oscPhase _ => true
  | .oscInc _ => true
  | .oscAmp _ => true
  | .qSlot i f _ => slotFieldMapped i f
  | .nft k _ => noteMapped k

end Sys2Proof
end

