-- ==== Sys2Proof/Decode.lean ====
section
/-! DEFINITION. Decoding, one total function per format (30_encoding.md R91, R96, R100, R105, R111), each answering an
instruction with the rest of the bytes or a named rejection; then the encoder, written from the same tables; then the
opcode table as rows of mask and pattern, with which a bare table word finds its format. -/

namespace Sys2Proof

/-- Why bytes are not an instruction of a format. -/
inductive DecodeError where
  /-- A TRACE tag `0x08`..`0xFF`, or a trace that ends inside an operand (R111, 60_exceptions.md R252). -/
  | traceReserved
  /-- An HREG address that is not in the register map (R105, 44_host_port.md R234). -/
  | hostUnmapped
  /-- A word of another format that does not have the format's fixed bits or ends early (log 11). -/
  | wordReserved
deriving DecidableEq, Repr

/-- What a decoder answers: an instruction and the bytes after it, or a rejection. -/
inductive Decoded where
  | ok (i : Instr) (rest : List Byte)
  | error (e : DecodeError)
deriving DecidableEq, Repr

/-! ### Bit fields -/

/-- `b[7:4]` of a byte (00_scope.md R11). -/
def hiNibble (b : Byte) : BitVec 4 := b.extractLsb' 4 4

/-- `b[3:0]` of a byte. -/
def loNibble (b : Byte) : BitVec 4 := b.extractLsb' 0 4

/-- The message type of a byte: what the status mask leaves of it, as a nibble (R91, R92, R114). -/
def statusNibble (b : Byte) : BitVec 4 := hiNibble (b &&& Config.statusMask)

/-- Byte 1 of a frame: the base that carries the control nibble, and `sample[11:8]` (R102, R114). -/
def Machine.frameByte1 (d : Sample12) : Byte :=
  Config.dacByte1Base ||| ((d &&& Config.sampleHighMask) >>> 8).setWidth 8

/-- Byte 2 of a frame: `sample[7:0]` (R102, R114). -/
def Machine.frameByte2 (d : Sample12) : Byte := (d &&& Config.sampleLowMask).setWidth 8

/-- Three bytes, most significant first, as one 24-bit value (R111). -/
def word24OfBytes (b2 b1 b0 : Byte) : Word24 := b2 ++ b1 ++ b0

/-- The bytes of a 24-bit value, most significant first (R111). -/
def bytesOfWord24 (v : Word24) : List Byte :=
  [v.extractLsb' 16 8, v.extractLsb' 8 8, v.extractLsb' 0 8]

/-! ### The decoders -/

/-- Format TRACE (R111). -/
def decodeTrace : List Byte → Decoded
  | [] => .error .traceReserved
  | tag :: rest =>
    match tag.toNat with
    | 0 => .ok .rst rest
    | 1 => .ok .init rest
    | 2 => .ok .clk rest
    | 3 =>
      match rest with
      | b :: rest' => .ok (.rxb b) rest'
      | [] => .error .traceReserved
    | 4 => .ok .svc rest
    | 5 => .ok .xdone rest
    | 6 =>
      match rest with
      | a :: rest' => .ok (.hrd a) rest'
      | [] => .error .traceReserved
    | 7 =>
      match rest with
      | a :: v2 :: v1 :: v0 :: rest' => .ok (.hwr a (word24OfBytes v2 v1 v0)) rest'
      | _ => .error .traceReserved
    | _ => .error .traceReserved

/-- The class of a received byte, by its high nibble and by nothing else (R91). No byte is illegal (R95). -/
def decodeRxByte (b : Byte) : Instr :=
  if statusNibble b = Config.stNoteOff then .stOff (loNibble b)
  else if statusNibble b = Config.stNoteOn then .stOn (loNibble b)
  else if b.extractLsb' 7 1 = 0b0#1 then .other0 (b.extractLsb' 0 7)
  else if b.extractLsb' 5 3 = 0b101#3 then .other101 (b.extractLsb' 0 5)
  else .other11 (b.extractLsb' 0 6)

/-- Format DACFRAME: byte 1 holds the control nibble and `sample[11:8]`, byte 2 `sample[7:0]` (R100). -/
def decodeDacFrame : List Byte → Decoded
  | byte1 :: byte2 :: rest =>
    if hiNibble byte1 = Config.dacCtrl then .ok (.dacFrame (loNibble byte1 ++ byte2)) rest
    else .error .wordReserved
  | _ => .error .wordReserved

/-- Format MIDIEVENT: a Note Off or a Note On status byte, then `data0`, then `data1` (R96). -/
def decodeMidiEvent : List Byte → Decoded
  | status :: n :: v :: rest =>
    if statusNibble status = Config.stNoteOff then .ok (.midiEvent 0#1 (loNibble status) n v) rest
    else if statusNibble status = Config.stNoteOn then .ok (.midiEvent 1#1 (loNibble status) n v) rest
    else .error .wordReserved
  | _ => .error .wordReserved

/-- The register an HREG address selects, tested in the order of R105, with the access made of it. -/
def decodeHreg (a : Byte) (acc : HostAccess) : Option Instr :=
  match a.toNat with
  | 0x00 => some (.qWidx acc)
  | 0x01 => some (.qRidx acc)
  | 0x04 => some (.irqCtrl acc)
  | 0x05 => some (.irqPend acc)
  | 0x08 => some (.tmrCtrl acc)
  | 0x09 => some (.tmrCount acc)
  | 0x0A => some (.tmrCnt acc)
  | 0x10 => some (.oscCtrl acc)
  | 0x11 => some (.oscPhase acc)
  | 0x12 => some (.oscInc acc)
  | 0x13 => some (.oscAmp acc)
  | n =>
    if 0x40 ≤ n ∧ n ≤ 0x67 ∧ a.extractLsb' 0 2 ≠ 3#2 then
      some (.qSlot (a.extractLsb' 2 4) (a.extractLsb' 0 2) acc)
    else if 0x80 ≤ n ∧ n ≤ 0xEB then
      some (.nft (a.extractLsb' 0 7) acc)
    else none

/-- An HREG decoding with the bytes after it, an unmapped address rejected by name (R105, R234). -/
def decodeHregThen (a : Byte) (acc : HostAccess) (rest : List Byte) : Decoded :=
  match decodeHreg a acc with
  | some i => .ok i rest
  | none => .error .hostUnmapped

/-- The decoder: total on any bytes in any format. -/
def decode (f : Format) (bs : List Byte) : Decoded :=
  match f with
  | .trace => decodeTrace bs
  | .rxByte =>
    match bs with
    | b :: rest => .ok (decodeRxByte b) rest
    | [] => .error .wordReserved
  | .dacFrame => decodeDacFrame bs
  | .midiEvent => decodeMidiEvent bs
  | .hregRead =>
    match bs with
    | a :: rest => decodeHregThen a .rd rest
    | [] => .error .wordReserved
  | .hregWrite =>
    match bs with
    | a :: v2 :: v1 :: v0 :: rest => decodeHregThen a (.wr (word24OfBytes v2 v1 v0)) rest
    | _ => .error .wordReserved

/-! ### The encoder -/

/-- The data bytes of an access: none for a read, the value most significant byte first for a write (R111). -/
def HostAccess.bytes : HostAccess → List Byte
  | .rd => []
  | .wr v => bytesOfWord24 v

/-- The status byte of a MIDIEVENT: Note On where `t` is 1, else Note Off, on channel `c` (R96). -/
def eventStatus (t : BitVec 1) (c : BitVec 4) : Byte := (if t = 1#1 then Config.stNoteOn else Config.stNoteOff) ++ c

/-- The address of slot field `(i, f)`, `0x40 + 4*i + f` (R105). -/
def slotHostAddr (i : BitVec 4) (f : BitVec 2) : Byte := 0b01#2 ++ i ++ f

/-- The address of note-table entry `k`, `0x80 + k` (R105). -/
def noteHostAddr (k : BitVec 7) : Byte := 0b1#1 ++ k

/-- The bytes of an instruction in its own format. -/
def encode : Instr → List Byte
  | .rst => [0x00#8]
  | .init => [0x01#8]
  | .clk => [0x02#8]
  | .rxb b => [0x03#8, b]
  | .svc => [0x04#8]
  | .xdone => [0x05#8]
  | .hrd a => [0x06#8, a]
  | .hwr a v => 0x07#8 :: a :: bytesOfWord24 v
  | .stOff c => [Config.stNoteOff ++ c]
  | .stOn c => [Config.stNoteOn ++ c]
  | .other0 d => [0b0#1 ++ d]
  | .other101 d => [0b101#3 ++ d]
  | .other11 d => [0b11#2 ++ d]
  | .dacFrame d => [Machine.frameByte1 d, Machine.frameByte2 d]
  | .midiEvent t c n v => [eventStatus t c, n, v]
  | .qWidx acc => 0x00#8 :: acc.bytes
  | .qRidx acc => 0x01#8 :: acc.bytes
  | .irqCtrl acc => 0x04#8 :: acc.bytes
  | .irqPend acc => 0x05#8 :: acc.bytes
  | .tmrCtrl acc => 0x08#8 :: acc.bytes
  | .tmrCount acc => 0x09#8 :: acc.bytes
  | .tmrCnt acc => 0x0A#8 :: acc.bytes
  | .oscCtrl acc => 0x10#8 :: acc.bytes
  | .oscPhase acc => 0x11#8 :: acc.bytes
  | .oscInc acc => 0x12#8 :: acc.bytes
  | .oscAmp acc => 0x13#8 :: acc.bytes
  | .qSlot i f acc => slotHostAddr i f :: acc.bytes
  | .nft k acc => noteHostAddr k :: acc.bytes

/-- The bytes of a program of operations, one after another (R110, R111). -/
def encodeProgram : List Instr → List Byte
  | [] => []
  | i :: is => encode i ++ encodeProgram is

/-! ### The opcode table as rows -/

/-- One row of spec/opcode_table.json: its format, its width in bits, and which words it covers. -/
structure TableRow where
  format : Format
  width : Nat
  mask : Nat
  pattern : Nat
deriving DecidableEq, Repr

/-- A word of a given width fits a row. -/
def TableRow.fits (r : TableRow) (nbits w : Nat) : Bool :=
  r.width == nbits && (w &&& r.mask) == r.pattern

/-- The rows of spec/opcode_table.json, those with more fixed bits before those with fewer, and rows with equally
many in the table's order. Rows of different formats overlap, since a table word does not say its format; within one
format no two rows overlap (log 14). -/
def tableRows : List TableRow :=
  [⟨.trace, 8, 0xFF, 0x00⟩, ⟨.trace, 8, 0xFF, 0x01⟩, ⟨.trace, 8, 0xFF, 0x02⟩, ⟨.trace, 16, 0xFF00, 0x0300⟩,
   ⟨.trace, 8, 0xFF, 0x04⟩, ⟨.trace, 8, 0xFF, 0x05⟩, ⟨.trace, 16, 0xFF00, 0x0600⟩,
   ⟨.trace, 40, 0xFF00000000, 0x0700000000⟩] ++
  [⟨.hregRead, 8, 0xFF, 0x00⟩, ⟨.hregRead, 8, 0xFF, 0x01⟩, ⟨.hregRead, 8, 0xFF, 0x04⟩, ⟨.hregRead, 8, 0xFF, 0x05⟩,
   ⟨.hregRead, 8, 0xFF, 0x08⟩, ⟨.hregRead, 8, 0xFF, 0x09⟩, ⟨.hregRead, 8, 0xFF, 0x0A⟩, ⟨.hregRead, 8, 0xFF, 0x10⟩,
   ⟨.hregRead, 8, 0xFF, 0x11⟩, ⟨.hregRead, 8, 0xFF, 0x12⟩, ⟨.hregRead, 8, 0xFF, 0x13⟩] ++
  [⟨.rxByte, 8, Config.statusMask.toNat, Config.stNoteOff.toNat * 0x10⟩,
   ⟨.rxByte, 8, Config.statusMask.toNat, Config.stNoteOn.toNat * 0x10⟩,
   ⟨.dacFrame, 16, 0xF000, Config.dacByte1Base.toNat * 0x100⟩, ⟨.rxByte, 8, 0xE0, 0xA0⟩,
   ⟨.midiEvent, 24, (0xF ^^^ (Config.stNoteOff.toNat ^^^ Config.stNoteOn.toNat)) * 0x100000,
    (Config.stNoteOff.toNat &&& Config.stNoteOn.toNat) * 0x100000⟩,
   ⟨.rxByte, 8, 0xC0, 0xC0⟩, ⟨.hregRead, 8, 0xC0, 0x40⟩,
   ⟨.rxByte, 8, 0x80, 0x00⟩, ⟨.hregRead, 8, 0x80, 0x80⟩]

/-- The `n` bytes of a table word, its most significant byte first: the table writes a word's first byte in its
highest bits (`RXB` is `0x03bb`), and the first byte lies first (log 14). -/
def tableBytes : (n : Nat) → (w : Nat) → List Byte
  | 0, _ => []
  | n + 1, w => BitVec.ofNat 8 (w / 256 ^ n) :: tableBytes n w

/-- The instruction a decoding found, if it found one. -/
def Decoded.instr? : Decoded → Option Instr
  | .ok i _ => some i
  | .error _ => none

/-- How a table word is placed: the format and the bytes of the first row that it fits and whose decoder accepts it;
where none does, TRACE with operand bytes of zero after it, up to the longest instruction. -/
def placeTableWord (nbits w : Nat) : Format × List Byte :=
  let bytes := tableBytes (nbits / 8) w
  match tableRows.find? (fun r => r.fits nbits w && (decode r.format bytes).instr?.isSome) with
  | some r => (r.format, bytes)
  | none => (.trace, bytes ++ List.replicate (5 - nbits / 8) 0#8)

/-- The instruction the decoder reads from a table word. -/
def decodeTableWord (nbits w : Nat) : Option Instr :=
  (decode (placeTableWord nbits w).1 (placeTableWord nbits w).2).instr?

end Sys2Proof
end

