-- ==== Sys2Proof/Machine/State.lean ====
section
/-! DEFINITION. The state of the block as plain data (10_state.md), the reasons a step can stop, and the state after
reset (R49, 70_reset_and_hazards.md R290, R291). -/

namespace Sys2Proof.Machine

/-- `OSC_WAVE`, the closed set of waveform shapes (10_state.md R22). -/
inductive Wave where
  | sine
  | triangle
  | square
  | sawtooth
deriving DecidableEq, Repr

/-- `RXSTATE`, the receive parser's state (10_state.md R27). -/
inductive RxState where
  | idle
  | awaitingByte1
  | awaitingByte2
deriving DecidableEq, Repr

/-- `FR_STATE`, the converter framer's state (10_state.md R28). -/
inductive FrState where
  | idle
  | byte1
  | byte2
deriving DecidableEq, Repr

/-- The output events of the block (00_scope.md R10). -/
inductive Event where
  /-- `TXB(b)`: byte `b` sent on the serial MIDI output, the echo. -/
  | txb (b : Byte)
  /-- `CS_ASSERT`: chip-select driven to its "select" state. -/
  | csAssert
  /-- `DACB(b)`: byte `b` handed to the converter-bus transport. -/
  | dacb (b : Byte)
  /-- `CS_DEASSERT`: chip-select released. -/
  | csDeassert
deriving DecidableEq, Repr

/-- A storage space: (address, byte) cells with strictly rising addresses. An address without a cell holds no value
(10_state.md R39, R43; 70_reset_and_hazards.md R292). -/
abbrev Memory := List Host.Cell

/-- Why the machine stops. The block itself raises no fault (60_exceptions.md R250). -/
inductive Fault where
  /-- Raised by the sample service when the advanced phase has an integer part of `N` or more, an index outside the
  wavetable (42_synth.md R174). Only a state with `OSC_PHASE` or `OSC_INC` at or above `PMOD` can raise it, and no run
  reaches one (U7). Safe: the machine stops where the spec has no table entry (log 12). -/
  | tableIndexOutOfRange
deriving DecidableEq, Repr

/-- Why a step has no meaning (60_exceptions.md R252). A refused step changes nothing and emits nothing. -/
inductive Refusal where
  /-- Raised by `exec` for an instruction that has no meaning yet. Safe. -/
  | notModelled (mnemonic : String)
  /-- `RX_OVERRUN`: raised when a byte arrives with `RXP = 1` (41_midi_rx.md R140, U3). Safe. -/
  | rxOverrun
  /-- `TABLES_NOT_READY`: raised when the sample service is dispatched with `TBL_VALID = 0` (42_synth.md R170, U9). Safe. -/
  | tablesNotReady
  /-- `HOST_UNMAPPED`: raised by a host access of an unmapped address (44_host_port.md R234, U11). Safe. -/
  | hostUnmapped
  /-- `HOST_READ_ONLY`: raised by a host write of a read-only register (44_host_port.md R221, U11). Safe. -/
  | hostReadOnly
  /-- `HOST_BAD_VALUE`: raised by a host write of an illegal value (44_host_port.md R223, R229, R230; U7, U12). Safe. -/
  | hostBadValue
  /-- `TRACE_RESERVED`: raised by the step on a reserved trace tag, or a trace that ends inside an operand
  (30_encoding.md R111). Safe. -/
  | traceReserved
  /-- Raised by the step on bytes of a format other than TRACE that are not a word of it (U17; log 11). Safe. -/
  | wordReserved
deriving DecidableEq, Repr

/-- The state of the block (10_state.md), and after it the model's own fields. -/
structure State where
  /-- `OSC_ACTIVE`, R21. -/
  oscActive : Bool
  /-- `OSC_WAVE`, R22. -/
  oscWave : Wave
  /-- `OSC_PHASE`, R23. -/
  oscPhase : Phase
  /-- `OSC_INC`, R24. -/
  oscInc : Phase
  /-- `OSC_AMP`, R25. -/
  oscAmp : Byte
  /-- `RXSTATE`, R27. -/
  rxState : RxState
  /-- `FR_STATE`, R28. -/
  frState : FrState
  /-- `RXP`, R29. -/
  rxp : Bool
  /-- `SMPP`, R30. -/
  smpp : Bool
  /-- `GIE`, R31. -/
  gie : Bool
  /-- `TEN`, R32. -/
  ten : Bool
  /-- `TBL_VALID`, R33. -/
  tblValid : Bool
  /-- `CS`, R34, the logical level. -/
  cs : Bool
  /-- `COUNT`, R37. -/
  count : Timer16
  /-- `CNT`, R38. -/
  cnt : Timer16
  /-- `Q[0..9]`, R39: slot field `(i, f)` at address `4*i + f`. -/
  q : Memory
  /-- `WIDX`, R40, in `0 .. CAP-1` (log 15). -/
  widx : Fin Config.cap
  /-- `RIDX`, R41, in `0 .. CAP-1` (log 15). -/
  ridx : Fin Config.cap
  /-- `WT[0..3][0..159]`, R43: entry `(w, i)` at address `160*w + i` (log 5). -/
  wt : Memory
  /-- `RXDATA`, R45. -/
  rxdata : Byte
  /-- `FR_SAMPLE`, R46. -/
  frSample : Sample12
  /-- The model's own: the output history, oldest first (00_scope.md R10, R48; log 2). -/
  out : List Event
  /-- The model's own: the values `HRD` returned to the host, oldest first (00_scope.md R10; log 2). -/
  hostOut : List Word24
  /-- The model's own: how many `RST` operations have run; it selects the free values of unwritten storage (log 4). -/
  epoch : Nat
  /-- The model's own: the format the input is read in (log 1). -/
  format : Format
  /-- The model's own: the bytes of the operations still to run, first byte first (log 1). -/
  input : List Byte
deriving DecidableEq, Repr

/-- The machine right after reset (10_state.md R49, 70_reset_and_hazards.md R290, R291). `rxdata`, for which the spec
gives no value, is 0 (DESIGN CHOICE, log 6); the model's own fields are empty, zero and TRACE (logs 1, 2, 4). -/
def State.reset : State where
  oscActive := false
  oscWave := .sine
  oscPhase := 0#24
  oscInc := 0#24
  oscAmp := Config.ampReset
  rxState := .idle
  frState := .idle
  rxp := false
  smpp := false
  gie := false
  ten := false
  tblValid := false
  cs := false
  count := 0#16
  cnt := 0#16
  q := []
  widx := 0
  ridx := 0
  wt := []
  rxdata := 0#8
  frSample := 0#12
  out := []
  hostOut := []
  epoch := 0
  format := .trace
  input := []

end Sys2Proof.Machine
end

