-- ==== Sys2Proof/Machine/Ops.lean ====
section
/-! DEFINITION. The named operations over the state that the meanings share: the storage spaces, the queue slots, the
wavetable store, the output histories, and reading the next operation from the input. -/

namespace Sys2Proof.Machine

/-- The outcome of a step of this machine. -/
abbrev StepOutcome := Host.Outcome State Fault Refusal

/-! ### Storage spaces (20_memory.md R60) -/

/-- The canonical form: addresses strictly rising. An unlisted address holds no value, so no cell repeats it. -/
def Memory.wf : Memory → Bool
  | [] => true
  | [_] => true
  | c :: d :: rest => decide (c.1 < d.1) && Memory.wf (d :: rest)

/-- The byte at an address, if anything has written it. -/
def Memory.read : Memory → Nat → Option Byte
  | [], _ => none
  | c :: rest, a => if c.1 = a then some c.2 else Memory.read rest a

/-- Write one byte, keeping the addresses in rising order. -/
def Memory.write : Memory → Nat → Byte → Memory
  | [], a, b => [(a, b)]
  | c :: rest, a, b =>
    if a < c.1 then (a, b) :: c :: rest
    else if a = c.1 then (a, b) :: rest
    else c :: Memory.write rest a b

/-! ### The event-queue slots (10_state.md R39, 30_encoding.md R96) -/

/-- The three fields of a queue slot, in the order of R96. -/
inductive SlotField where
  | status
  | data0
  | data1
deriving DecidableEq, Repr

/-- The number of a slot field: 0 status, 1 data0, 2 data1 (30_encoding.md R96). -/
def SlotField.number : SlotField → Nat
  | .status => 0
  | .data0 => 1
  | .data1 => 2

/-- The queue address of slot field `(i, f)`, `4*i + f` (10_state.md R36). -/
def slotAddr (i : Fin Config.cap) (f : SlotField) : Nat := 4 * i.val + f.number

/-- `Q[i].f`: the byte written there, or, where nothing has written one since reset, any value (R39, U8; log 4). -/
def readSlot (s : State) (i : Fin Config.cap) (f : SlotField) : Byte :=
  (s.q.read (slotAddr i f)).getD (Config.unwrittenSlotByte s.epoch (slotAddr i f))

/-- `Q[i].f <- b`. -/
def writeSlot (i : Fin Config.cap) (f : SlotField) (b : Byte) (s : State) : State :=
  { s with q := s.q.write (slotAddr i f) b }

/-- The next queue index, modulo `CAP` (41_midi_rx.md R146, 42_synth.md R180). -/
def nextIndex (i : Fin Config.cap) : Fin Config.cap := i + 1

/-! ### The wavetable store (10_state.md R43) -/

/-- The tag of a waveform (10_state.md R22). -/
def Wave.tag : Wave → BitVec 2
  | .sine => 0#2
  | .triangle => 1#2
  | .square => 2#2
  | .sawtooth => 3#2

/-- The waveform of a tag; every tag is legal (10_state.md R22). -/
def Wave.ofTag (t : BitVec 2) : Wave :=
  if t = 0#2 then .sine else if t = 1#2 then .triangle else if t = 2#2 then .square else .sawtooth

/-- The address of `WT[w][i]` in the wavetable store (log 5). -/
def tableAddr (w : Wave) (i : Nat) : Nat := Config.tableLength * w.tag.toNat + i

/-- `WT[w][i]`: the byte there, or, where nothing has filled it since reset, any value (R43; log 5). -/
def readTable (s : State) (w : Wave) (i : Nat) : Byte :=
  (s.wt.read (tableAddr w i)).getD (Config.unfilledTableByte s.epoch (tableAddr w i))

/-! ### Outputs (00_scope.md R10) -/

/-- `emit E`: append an event to the output history (00_scope.md R13). -/
def emit (e : Event) (s : State) : State := { s with out := s.out ++ [e] }

/-- Return a value to the host (44_host_port.md R220). -/
def returnToHost (v : Word24) (s : State) : State := { s with hostOut := s.hostOut ++ [v] }

/-- The level of the chip-select pin: `CS_ACTIVE_LEVEL` while `CS = 1`, the other level while released (R34, D19). -/
def csPin (s : State) : Config.Level :=
  if s.cs then Config.csActiveLevel else Config.csActiveLevel.other

/-! ### Reading the next operation (00_scope.md R8, 30_encoding.md R110, R111; log 1) -/

/-- The refusal of a rejected word (60_exceptions.md R252; log 11). -/
def refusalOf : DecodeError → Refusal
  | .traceReserved => .traceReserved
  | .hostUnmapped => .hostUnmapped
  | .wordReserved => .wordReserved

/-- What the input offers: no operation, a word that is none, or an instruction with the state that has taken it. -/
inductive Fetched where
  | nothing
  | rejected (r : Refusal)
  | op (i : Instr) (s : State)
deriving DecidableEq, Repr

/-- Read the next word of the input in the input's format. -/
def fetch (s : State) : Fetched :=
  match s.input with
  | [] => .nothing
  | b :: bs =>
    match decode s.format (b :: bs) with
    | .ok i rest => .op i { s with input := rest }
    | .error e => .rejected (refusalOf e)

/-- Put bytes where the next operation is read from, in the format they are written in. -/
def place (f : Format) (bs : List Byte) (s : State) : State := { s with format := f, input := bs }

end Sys2Proof.Machine
end

