-- ==== Sys2Proof/Machine/Operands.lean ====
section
/-! DEFINITION. The operand forms: the host register that an address selects (30_encoding.md R105), and the bytes of
the RXBYTE classes (R91). -/

namespace Sys2Proof.Machine

/-- The registers the host can reach (10_state.md R36). -/
inductive HReg where
  | qWidx
  | qRidx
  | irqCtrl
  | irqPend
  | tmrCtrl
  | tmrCount
  | tmrCnt
  | oscCtrl
  | oscPhase
  | oscInc
  | oscAmp
  | qSlot (i : Fin Config.cap) (f : SlotField)
  | nft (k : Fin Config.notes)
deriving DecidableEq, Repr

/-- The slot field of a field number; 3 names none (44_host_port.md R232). -/
def slotFieldOf (f : BitVec 2) : Option SlotField :=
  if f = 0#2 then some .status else if f = 1#2 then some .data0 else if f = 2#2 then some .data1 else none

/-- The slot register of a slot index and a field number, where both are in range (R105, R234). -/
def slotRegOf (i : BitVec 4) (f : BitVec 2) : Option HReg :=
  if h : i.toNat < Config.cap then (slotFieldOf f).map (HReg.qSlot ⟨i.toNat, h⟩) else none

/-- The note-table register of an index, where it is in range (R105, R234). -/
def noteRegOf (k : BitVec 7) : Option HReg :=
  if h : k.toNat < Config.notes then some (.nft ⟨k.toNat, h⟩) else none

/-- The register an address selects, or none where it is unmapped (30_encoding.md R105). -/
def regOfAddr (a : Byte) : Option HReg :=
  match a.toNat with
  | 0x00 => some .qWidx
  | 0x01 => some .qRidx
  | 0x04 => some .irqCtrl
  | 0x05 => some .irqPend
  | 0x08 => some .tmrCtrl
  | 0x09 => some .tmrCount
  | 0x0A => some .tmrCnt
  | 0x10 => some .oscCtrl
  | 0x11 => some .oscPhase
  | 0x12 => some .oscInc
  | 0x13 => some .oscAmp
  | _ =>
    if a.extractLsb' 6 2 = 0b01#2 then slotRegOf (a.extractLsb' 2 4) (a.extractLsb' 0 2)
    else if a.extractLsb' 7 1 = 0b1#1 then noteRegOf (a.extractLsb' 0 7)
    else none

/-- The byte of class `ST_OFF` on channel `c` (30_encoding.md R91). -/
def stOffByte (c : BitVec 4) : Byte := Config.stNoteOff ++ c

/-- The byte of class `ST_ON` on channel `c` (30_encoding.md R91). -/
def stOnByte (c : BitVec 4) : Byte := Config.stNoteOn ++ c

/-- A byte of class `OTHER`, pattern `0ddddddd`. -/
def other0Byte (d : BitVec 7) : Byte := 0b0#1 ++ d

/-- A byte of class `OTHER`, pattern `101ddddd`. -/
def other101Byte (d : BitVec 5) : Byte := 0b101#3 ++ d

/-- A byte of class `OTHER`, pattern `11dddddd`. -/
def other11Byte (d : BitVec 6) : Byte := 0b11#2 ++ d

/-- The status test of the parser: the byte's message type is a Note On or a Note Off code (41_midi_rx.md R141, R143). -/
def isStatusByte (b : Byte) : Bool :=
  statusNibble b == Config.stNoteOn || statusNibble b == Config.stNoteOff

end Sys2Proof.Machine
end

