-- ==== Sys2Proof/Machine/Flags.lean ====
section
/-! DEFINITION. Every computation over the block's flags: the pending bits, the mask and the dispatch condition
(60_exceptions.md R253 to R259), the timer's match (R262), the framer's business and the queue's indices
(10_state.md R35, R42). There are no arithmetic condition codes (10_state.md R35). -/

namespace Sys2Proof.Machine

/-- A frame is in progress, which is also the transport being busy (10_state.md R28, R35). -/
def frameInProgress (s : State) : Bool := decide (s.frState ≠ .idle)

/-- `SVC` is enabled (60_exceptions.md R258). -/
def svcEnabled (s : State) : Bool :=
  s.gie && !frameInProgress s && (s.smpp || s.rxp)

/-- A dispatch would run the RX service: `SVC` is enabled and the sample clock, served first, is not pending
(60_exceptions.md R257, R258; 41_midi_rx.md R141). -/
def rxDispatchable (s : State) : Bool := svcEnabled s && !s.smpp

/-- `HRD` and `HWR` may step: always, since `HOST_RUNS_IN_FRAME` is true (44_host_port.md R220, 60_exceptions.md R259). -/
def hostEnabled (s : State) : Bool := Config.hostRunsInFrame || !frameInProgress s

/-- The running timer meets its count (60_exceptions.md R262). -/
def timerMatch (s : State) : Bool := s.ten && decide (s.cnt = s.count)

/-- The queue is empty by its indices (10_state.md R42). -/
def queueEmpty (s : State) : Bool := decide (s.ridx = s.widx)

/-- How many events the indices show as waiting, `(WIDX - RIDX) mod CAP` (10_state.md R42). -/
def shownCount (s : State) : Nat := (s.widx - s.ridx).val

/-- Slot `i` is in the shown range `RIDX .. WIDX-1` modulo `CAP` (10_state.md R42). -/
def slotShown (s : State) (i : Fin Config.cap) : Bool := decide ((i - s.ridx).val < shownCount s)

/-- The record in a slot, `{status, data0, data1}` as 24 bits (30_encoding.md R96). -/
def slotRecord (s : State) (i : Fin Config.cap) : Word24 :=
  readSlot s i .status ++ readSlot s i .data0 ++ readSlot s i .data1

/-- The events the indices show, oldest first (10_state.md R42). -/
def shownEvents (s : State) : List Word24 :=
  (List.range (shownCount s)).map fun j => slotRecord s (s.ridx + Fin.ofNat Config.cap j)

end Sys2Proof.Machine
end

