-- ==== Sys2Proof/Machine/Tablegen.lean ====
section
/-! DEFINITION. The table generator (40_tablegen.md): the four waveforms, the note table, and the operation `INIT`. -/

namespace Sys2Proof.Machine

/-! ### The waveforms (40_tablegen.md R121 to R124) -/

/-- `SINE(0)` to `SINE(159)`, the spec's literals for `round(127.5 * (1 + sin(2*pi*i/N + 3*pi/2)))`, a tie rounded
up (R121); entry 40 is the named tie of log 13. -/
def sineTable : List Nat :=
  [0, 0, 0, 1, 2, 2, 4, 5, 6, 8, 10, 12, 14, 16, 19, 21] ++
  [24, 27, 31, 34, 37, 41, 45, 49, 53, 57, 61, 65, 70, 74, 79, 83] ++
  [88, 93, 98, 103, 108, 113, 117, 122, Config.sineTieEntry, 133, 138, 142, 147, 152, 157, 162] ++
  [167, 172, 176, 181, 185, 190, 194, 198, 202, 206, 210, 214, 218, 221, 224, 228] ++
  [231, 234, 236, 239, 241, 243, 245, 247, 249, 250, 251, 253, 253, 254, 255, 255] ++
  [255, 255, 255, 254, 253, 253, 251, 250, 249, 247, 245, 243, 241, 239, 236, 234] ++
  [231, 228, 224, 221, 218, 214, 210, 206, 202, 198, 194, 190, 185, 181, 176, 172] ++
  [167, 162, 157, 152, 147, 142, 138, 133, 128, 122, 117, 113, 108, 103, 98, 93] ++
  [88, 83, 79, 74, 70, 65, 61, 57, 53, 49, 45, 41, 37, 34, 31, 27] ++
  [24, 21, 19, 16, 14, 12, 10, 8, 6, 5, 4, 2, 2, 1, 0, 0]

/-- `SINE(i)` (R121). -/
def sine (i : Nat) : Nat := sineTable.getD i 0

/-- `ceil(N/2)`, the turn of the triangle and the edge of the square (R122, R123). -/
def halfTable : Nat := (Config.tableLength + 1) / 2

/-- The triangle's running accumulator before sample `i`, in units of `1 / (N/2)`: it steps by `255 / (N/2)` up while
`i < ceil(N/2)` and down after (R122). -/
def triangleAcc : Nat → Nat
  | 0 => 0
  | i + 1 => if i < halfTable then triangleAcc i + Config.sampleMax else triangleAcc i - Config.sampleMax

/-- `TRI(i) = floor(acc)` (R122). -/
def triangle (i : Nat) : Nat := triangleAcc i / (Config.tableLength / 2)

/-- `SQUARE(i)`, 255 below `ceil(N/2)` and 0 from there (R123). -/
def square (i : Nat) : Nat := if i < halfTable then Config.sampleMax else 0

/-- `SAW(i) = floor(255 * i / N)` (R124). -/
def sawtooth (i : Nat) : Nat := Config.sampleMax * i / Config.tableLength

/-- Sample `i` of a waveform. -/
def waveSample (w : Wave) (i : Nat) : Byte :=
  match w with
  | .sine => BitVec.ofNat 8 (sine i)
  | .triangle => BitVec.ofNat 8 (triangle i)
  | .square => BitVec.ofNat 8 (square i)
  | .sawtooth => BitVec.ofNat 8 (sawtooth i)

/-- The number of bytes of the wavetable store (20_memory.md R60, R65). -/
def tableBytesTotal : Nat := Config.waves * Config.tableLength

/-- The byte that `INIT` leaves at an address of the wavetable store. -/
def filledByte (a : Nat) : Byte :=
  waveSample (Wave.ofTag (BitVec.ofNat 2 (a / Config.tableLength))) (a % Config.tableLength)

/-- The wavetable store with every one of its addresses filled (R120). -/
def filledTables : Memory := (List.range tableBytesTotal).map fun a => (a, filledByte a)

/-! ### The note table (40_tablegen.md R127, R128; 10_state.md R44) -/

/-- `NFT[0]` to `NFT[107]`, one octave a line, the spec's literals in UQ8.16 raw units. -/
def noteTable : List Nat :=
  [10716, 11353, 12029, 12744, 13502, 14304, 15155, 16056, 17011, 18022, 19094, 20229] ++
  [21432, 22707, 24057, 25488, 27003, 28609, 30310, 32112, 34022, 36045, 38188, 40459] ++
  [42865, 45414, 48114, 50975, 54006, 57218, 60620, 64225, 68044, 72090, 76376, 80918] ++
  [85729, 90827, 96228, 101950, 108012, 114435, 121240, 128449, 136087, 144179, 152753, 161836] ++
  [171459, 181654, 192456, 203900, 216025, 228870, 242480, 256898, 272174, 288358, 305505, 323671] ++
  [342918, 363309, 384912, 407800, 432049, 457740, 484959, 513796, 544348, 576717, 611010, 647343] ++
  [685836, 726618, 769825, 815601, 864099, 915481, 969918, 1027593, 1088696, 1153434, 1222020, 1294685] ++
  [1371671, 1453235, 1539649, 1631201, 1728198, 1830962, 1939836, 2055185, 2177393, 2306867, 2444041, 2589371] ++
  [2743343, 2906471, 3079298, 3262403, 3456395, 3661923, 3879673, 4110370, 4354785, 4613734, 4888081, 5178742]

/-- `NFT[k]`. -/
def noteIncrement (k : Fin Config.notes) : Phase := BitVec.ofNat 24 (noteTable.getD k.val 0)

/-- The note-table index the host uses for a MIDI note number, `k = note - NOTE_INDEX_OFFSET`, where the table has an
entry for it (R129, D6). The block never uses it. -/
def noteIndex (note : Nat) : Option (Fin Config.notes) :=
  if Config.noteIndexOffset ≤ note then
    if h : note - Config.noteIndexOffset < Config.notes then some ⟨note - Config.noteIndexOffset, h⟩ else none
  else none

/-- The raw UQ8.16 value of the real number `num / den`, `round(x * 2^16)` with a tie going up (30_encoding.md R107). -/
def rawOfRatio (num den : Nat) : Nat := (2 * num * Config.fracScale + den) / (2 * den)

/-! ### INIT -/

/-- `INIT` (R120): fill the four tables and set `TBL_VALID`. Always enabled; it touches no other state. -/
def execInit (s : State) : StepOutcome := .next { s with wt := filledTables, tblValid := true }

end Sys2Proof.Machine
end

