-- ==== Sys2Proof/Machine/HostPort.lean ====
section
/-! DEFINITION. The host port (44_host_port.md): what each register reads as and what a write of it does, `HRD`, `HWR`,
and the register rows of the opcode table. -/

namespace Sys2Proof.Machine

/-- The value of a register, zero-extended to 24 bits (44_host_port.md R220; layouts 30_encoding.md R106). -/
def readReg (r : HReg) (s : State) : Word24 :=
  match r with
  | .qWidx => BitVec.ofNat 24 s.widx.val
  | .qRidx => BitVec.ofNat 24 s.ridx.val
  | .irqCtrl => (BitVec.ofBool s.gie).setWidth 24
  | .irqPend => (BitVec.ofBool s.rxp ++ BitVec.ofBool s.smpp).setWidth 24
  | .tmrCtrl => (BitVec.ofBool s.ten).setWidth 24
  | .tmrCount => s.count.setWidth 24
  | .tmrCnt => s.cnt.setWidth 24
  | .oscCtrl => (s.oscWave.tag ++ BitVec.ofBool s.oscActive).setWidth 24
  | .oscPhase => s.oscPhase
  | .oscInc => s.oscInc
  | .oscAmp => s.oscAmp.setWidth 24
  | .qSlot i f => (readSlot s i f).setWidth 24
  | .nft k => noteIncrement k

/-- `Q_RIDX` written (44_host_port.md R223): the low four bits, legal below `CAP`. -/
def writeRidx (v : Word24) (s : State) : StepOutcome :=
  if h : (v.extractLsb' 0 4).toNat < Config.cap then .next { s with ridx := ⟨(v.extractLsb' 0 4).toNat, h⟩ }
  else .refused .hostBadValue

/-- `OSC_PHASE` written (44_host_port.md R229): legal below `PMOD`. -/
def writePhase (v : Word24) (s : State) : StepOutcome :=
  if v.toNat < Config.pmod then .next { s with oscPhase := v } else .refused .hostBadValue

/-- `OSC_INC` written (44_host_port.md R230): legal below `PMOD`. -/
def writeInc (v : Word24) (s : State) : StepOutcome :=
  if v.toNat < Config.pmod then .next { s with oscInc := v } else .refused .hostBadValue

/-- A register written with 24 bits of data (44_host_port.md R221); bits above its width are ignored. -/
def writeReg (r : HReg) (v : Word24) (s : State) : StepOutcome :=
  match r with
  | .qWidx => .refused .hostReadOnly
  | .qRidx => writeRidx v s
  | .irqCtrl => .next { s with gie := v.getLsbD 0 }
  | .irqPend => .refused .hostReadOnly
  | .tmrCtrl => .next { s with ten := v.getLsbD 0 }
  | .tmrCount => .next { s with count := v.extractLsb' 0 16 }
  | .tmrCnt => .refused .hostReadOnly
  | .oscCtrl => .next { s with oscActive := v.getLsbD 0, oscWave := Wave.ofTag (v.extractLsb' 1 2) }
  | .oscPhase => writePhase v s
  | .oscInc => writeInc v s
  | .oscAmp => .next { s with oscAmp := v.extractLsb' 0 8 }
  | .qSlot _ _ => .refused .hostReadOnly
  | .nft _ => .refused .hostReadOnly

/-- One access of an address (44_host_port.md R220, R221): refused where it is unmapped (R234); a read returns the
register's value and changes nothing else (20_memory.md R66). -/
def hostAccess (a : Byte) (acc : HostAccess) (s : State) : StepOutcome :=
  if hostEnabled s then
    match regOfAddr a with
    | none => .refused .hostUnmapped
    | some r =>
      match acc with
      | .rd => .next (returnToHost (readReg r s) s)
      | .wr v => writeReg r v s
  else .next s

/-- `HRD a` (44_host_port.md R220). -/
def execHrd (a : Byte) (s : State) : StepOutcome := hostAccess a .rd s

/-- `HWR a, v` (44_host_port.md R221). -/
def execHwr (a : Byte) (v : Word24) (s : State) : StepOutcome := hostAccess a (.wr v) s

/-! ### The register rows (format HREG; log 10) -/

/-- `Q_WIDX`, address `0x00`, read-only (44_host_port.md R222). -/
def execQWidx (acc : HostAccess) (s : State) : StepOutcome := hostAccess 0x00#8 acc s

/-- `Q_RIDX`, address `0x01` (44_host_port.md R223). -/
def execQRidx (acc : HostAccess) (s : State) : StepOutcome := hostAccess 0x01#8 acc s

/-- `IRQ_CTRL`, address `0x04` (44_host_port.md R224). -/
def execIrqCtrl (acc : HostAccess) (s : State) : StepOutcome := hostAccess 0x04#8 acc s

/-- `IRQ_PEND`, address `0x05`, read-only (44_host_port.md R225). -/
def execIrqPend (acc : HostAccess) (s : State) : StepOutcome := hostAccess 0x05#8 acc s

/-- `TMR_CTRL`, address `0x08` (44_host_port.md R226). -/
def execTmrCtrl (acc : HostAccess) (s : State) : StepOutcome := hostAccess 0x08#8 acc s

/-- `TMR_COUNT`, address `0x09` (44_host_port.md R227). -/
def execTmrCount (acc : HostAccess) (s : State) : StepOutcome := hostAccess 0x09#8 acc s

/-- `TMR_CNT`, address `0x0A`, read-only (44_host_port.md R235). -/
def execTmrCnt (acc : HostAccess) (s : State) : StepOutcome := hostAccess 0x0A#8 acc s

/-- `OSC_CTRL`, address `0x10` (44_host_port.md R228). -/
def execOscCtrl (acc : HostAccess) (s : State) : StepOutcome := hostAccess 0x10#8 acc s

/-- `OSC_PHASE`, address `0x11` (44_host_port.md R229). -/
def execOscPhase (acc : HostAccess) (s : State) : StepOutcome := hostAccess 0x11#8 acc s

/-- `OSC_INC`, address `0x12` (44_host_port.md R230). -/
def execOscInc (acc : HostAccess) (s : State) : StepOutcome := hostAccess 0x12#8 acc s

/-- `OSC_AMP`, address `0x13` (44_host_port.md R231). -/
def execOscAmp (acc : HostAccess) (s : State) : StepOutcome := hostAccess 0x13#8 acc s

/-- `Q_SLOT[i].f`, address `0x40 + 4*i + f`, read-only (44_host_port.md R232); unmapped for `i >= 10` or `f = 3`. -/
def execQSlot (i : BitVec 4) (f : BitVec 2) (acc : HostAccess) (s : State) : StepOutcome :=
  hostAccess (slotHostAddr i f) acc s

/-- `NFT[k]`, address `0x80 + k`, read-only (44_host_port.md R233); unmapped for `k >= 108`. -/
def execNft (k : BitVec 7) (acc : HostAccess) (s : State) : StepOutcome := hostAccess (noteHostAddr k) acc s

end Sys2Proof.Machine
end

