-- ==== Sys2Proof/Machine/Reset.lean ====
section
/-! DEFINITION. The reset operation (70_reset_and_hazards.md R290 to R293). -/

namespace Sys2Proof.Machine

/-- `RST` (70_reset_and_hazards.md R290): every register takes its reset value, the unwritten storage and `RXDATA`
hold free values from then on (logs 4, 5, 6), no event is emitted, and what was emitted stays (R293). The input is the
environment's and stays. -/
def resetBlock (s : State) : State :=
  { s with
    oscActive := false, oscWave := .sine, oscPhase := 0#24, oscInc := 0#24, oscAmp := Config.ampReset
    rxState := .idle, frState := .idle
    rxp := false, smpp := false, gie := false, ten := false, tblValid := false, cs := false
    count := 0#16, cnt := 0#16, widx := 0, ridx := 0, frSample := 0#12
    q := [], wt := [], rxdata := Config.rxdataAfterReset (s.epoch + 1), epoch := s.epoch + 1 }

/-- `RST`: always enabled, in every state (70_reset_and_hazards.md R290). -/
def execRst (s : State) : StepOutcome := .next (resetBlock s)

end Sys2Proof.Machine
end

