-- ==== Sys2Proof/Machine/MidiRx.lean ====
section
/-! DEFINITION. MIDI receive (41_midi_rx.md): the arrival of a byte, the parser and the RX service. -/

namespace Sys2Proof.Machine

/-- `RXB b` (41_midi_rx.md R140): latch the byte and raise the receive interrupt; refused while a byte waits. -/
def arrive (b : Byte) (s : State) : StepOutcome :=
  if s.rxp then .refused .rxOverrun else .next { s with rxdata := b, rxp := true }

/-- Step 3 of the parser (41_midi_rx.md R146): the event completes. The writes are in the order of 20_memory.md R69:
`data1`, the index, then the running status of the new slot. -/
def completeEvent (b : Byte) (s : State) : State :=
  let s1 := writeSlot s.widx .data1 b s
  let status := readSlot s1 s1.widx .status
  let s2 := { s1 with widx := nextIndex s1.widx }
  { writeSlot s2.widx .status status s2 with rxState := .awaitingByte1 }

/-- `PARSE(b)` (41_midi_rx.md R141, R143 to R147): the status test first, then the tests of `RXSTATE` (R145). -/
def parse (b : Byte) (s : State) : State :=
  if isStatusByte b then { writeSlot s.widx .status b s with rxState := .awaitingByte1 }
  else
    match s.rxState with
    | .awaitingByte1 => { writeSlot s.widx .data0 b s with rxState := .awaitingByte2 }
    | .awaitingByte2 => completeEvent b s
    | .idle => s

/-- The RX service's work on byte `b` (41_midi_rx.md R141, table R150): the pending bit is cleared, the byte is echoed
whatever the parser then does (R142), and the parser takes one step. -/
def serveByte (b : Byte) (s : State) : State := parse b (emit (.txb b) { s with rxp := false })

/-- Serving byte `b` completes an event (41_midi_rx.md R146). -/
def completes (b : Byte) (s : State) : Bool := !isStatusByte b && decide (s.rxState = .awaitingByte2)

/-- The RX service (41_midi_rx.md R141): serve the byte in the latch. -/
def rxService (s : State) : State := serveByte s.rxdata s

/-- `RXB b` (41_midi_rx.md R140). -/
def execRxb (b : Byte) (s : State) : StepOutcome := arrive b s

end Sys2Proof.Machine
end

