-- ==== Sys2Proof/Machine/Framer.lean ====
section
/-! DEFINITION. The converter framer (43_dac_framer.md): frame start, the two completions `XDONE`. -/

namespace Sys2Proof.Machine

/-- `FRAME_START(d)` (42_synth.md R178): latch the sample, assert chip-select, hand over byte 1. -/
def frameStart (d : Sample12) (s : State) : State :=
  { emit (.dacb (frameByte1 d)) (emit .csAssert s) with frSample := d, cs := true, frState := .byte1 }

/-- The first completion (43_dac_framer.md R204): hand over byte 2, built from the latch. -/
def firstCompletion (s : State) : State :=
  { emit (.dacb (frameByte2 s.frSample)) s with frState := .byte2 }

/-- The second completion (43_dac_framer.md R205): release chip-select; the frame is over. -/
def secondCompletion (s : State) : State :=
  { emit .csDeassert s with cs := false, frState := .idle }

/-- The transport's completion, by the framer's state; with no frame in progress it is not enabled and nothing
happens (43_dac_framer.md R204, R205; 00_scope.md R9). -/
def completion (s : State) : State :=
  match s.frState with
  | .idle => s
  | .byte1 => firstCompletion s
  | .byte2 => secondCompletion s

/-- `XDONE` (43_dac_framer.md R204, R205). -/
def execXdone (s : State) : StepOutcome := .next (completion s)

end Sys2Proof.Machine
end

