-- ==== Sys2Proof/Machine/Synth.lean ====
section
/-! DEFINITION. The sample service (42_synth.md): advance, look up with interpolation, scale, hand over. Each
computation is exact on integers and narrowed at its end (R180). -/

namespace Sys2Proof.Machine

/-- `ADVANCE(P0, I)`: the sum, less `PMOD` once where it is `PMOD` or more (42_synth.md R173; conflict C4). -/
def advance (p0 inc : Phase) : Phase :=
  let t := p0.toNat + inc.toNat
  BitVec.ofNat 24 (if Config.pmod ≤ t then t - Config.pmod else t)

/-- `idx = P[23:16]` (42_synth.md R174). -/
def phaseIndex (p : Phase) : Nat := (p.extractLsb' 16 8).toNat

/-- `frac = P[15:0]` (42_synth.md R174). -/
def phaseFrac (p : Phase) : BitVec 16 := p.extractLsb' 0 16

/-- `INTERP(a, b, frac) = floor((a * 65536 + (b - a) * frac) / 65536)`, the difference signed (42_synth.md R176). -/
def interp (a b : Byte) (frac : BitVec 16) : Byte :=
  BitVec.ofInt 8 (((a.toNat : Int) * Config.fracScale + ((b.toNat : Int) - a.toNat) * frac.toNat) / Config.fracScale)

/-- `SCALE(S8, A) = min(S8 * A, 4095)` (42_synth.md R177). -/
def scale (s8 amp : Byte) : Sample12 := BitVec.ofNat 12 (min (s8.toNat * amp.toNat) Config.dacMax)

/-- The table index after `idx`, modulo `N` (42_synth.md R175). -/
def nextTableIndex (idx : Nat) : Nat := (idx + 1) % Config.tableLength

/-- The 12-bit sample the oscillator plays at phase `p`: two reads of the selected table, interpolated and scaled
(42_synth.md R174 to R177). -/
def voiceSample (s : State) (p : Phase) : Sample12 :=
  scale (interp (readTable s s.oscWave (phaseIndex p)) (readTable s s.oscWave (nextTableIndex (phaseIndex p)))
    (phaseFrac p)) s.oscAmp

/-- The sample of the tick that the sample service would serve (42_synth.md R170, R171). -/
def tickSample (s : State) : Sample12 :=
  if s.oscActive then voiceSample s (advance s.oscPhase s.oscInc) else 0#12

/-- The sample service (42_synth.md R170, R171): refused before the tables are filled; the pending bit is cleared; an
active oscillator advances and plays, an inactive one is frozen and the sample is 0; the frame starts. -/
def sampleService (s : State) : StepOutcome :=
  if s.tblValid then
    if s.oscActive then
      let p := advance s.oscPhase s.oscInc
      if phaseIndex p < Config.tableLength then
        .next (frameStart (voiceSample s p) { s with smpp := false, oscPhase := p })
      else .fault .tableIndexOutOfRange
    else .next (frameStart 0#12 { s with smpp := false })
  else .refused .tablesNotReady

end Sys2Proof.Machine
end

