-- ==== Sys2Proof/Machine/Irq.lean ====
section
/-! DEFINITION. The interrupt controller's dispatch and the sample-clock timer (60_exceptions.md R253 to R265). Entry
to a service saves nothing and its end restores nothing (R260): the taking of an interrupt is the dispatch. -/

namespace Sys2Proof.Machine

/-- `SVC` (60_exceptions.md R258): where enabled, one service runs whole, the sample clock's first (R257); where not
enabled, nothing happens (R252, 00_scope.md R9). -/
def execSvc (s : State) : StepOutcome :=
  if svcEnabled s then
    if s.smpp then sampleService s else .next (rxService s)
  else .next s

/-- `CLK` (60_exceptions.md R262): a running timer that meets its count starts again and raises the sample clock, which
changes nothing where it is already pending (R263); else it counts up modulo `2^16`. -/
def execClk (s : State) : StepOutcome :=
  if s.ten then
    if timerMatch s then .next { s with cnt := 0#16, smpp := true }
    else .next { s with cnt := s.cnt + 1#16 }
  else .next s

end Sys2Proof.Machine
end

