-- ==== Sys2Proof/Machine/Words.lean ====
section
/-! DEFINITION. The words of the formats RXBYTE, MIDIEVENT and DACFRAME. They are what the block receives, queues and
sends, not operations of their own: the block changes state only by the operations of 00_scope.md R8. Such a word
performs the one operation that serves, queues or sends it, where that operation is enabled and does so, and is else not
enabled (R9; logs 8, 9). -/

namespace Sys2Proof.Machine

/-- `SVC` would run the RX service now, on byte `b` (41_midi_rx.md R141). -/
def serves (b : Byte) (s : State) : Bool := rxDispatchable s && s.rxdata == b

/-- `SVC`, where it serves byte `b` (log 8). -/
def serveWord (b : Byte) (s : State) : StepOutcome := if serves b s then execSvc s else .next s

/-- `ST_OFF`: a Note Off status byte is served (41_midi_rx.md R143; log 8). -/
def execStOff (c : BitVec 4) (s : State) : StepOutcome := serveWord (stOffByte c) s

/-- `ST_ON`: a Note On status byte is served (41_midi_rx.md R143; log 8). -/
def execStOn (c : BitVec 4) (s : State) : StepOutcome := serveWord (stOnByte c) s

/-- `OTHER`, pattern `0xxxxxxx`, is served (41_midi_rx.md R144, R146, R147; log 8). -/
def execOther0 (d : BitVec 7) (s : State) : StepOutcome := serveWord (other0Byte d) s

/-- `OTHER`, pattern `101xxxxx`, is served (41_midi_rx.md R144, R146, R147, conflict C1; log 8). -/
def execOther101 (d : BitVec 5) (s : State) : StepOutcome := serveWord (other101Byte d) s

/-- `OTHER`, pattern `11xxxxxx`, is served (41_midi_rx.md R144, R146, R147, conflict C1; log 8). -/
def execOther11 (d : BitVec 6) (s : State) : StepOutcome := serveWord (other11Byte d) s

/-- `SVC` would complete the event `{100tcccc, n, v}` now: the RX service would be run on its last byte, with the two
others stored in the slot being assembled (41_midi_rx.md R146). -/
def queues (t : BitVec 1) (c : BitVec 4) (n v : Byte) (s : State) : Bool :=
  serves v s && completes v s && readSlot s s.widx .status == eventStatus t c && readSlot s s.widx .data0 == n

/-- MIDIEVENT: the event is completed and queued (41_midi_rx.md R146, 30_encoding.md R96; log 8). -/
def execMidiEvent (t : BitVec 1) (c : BitVec 4) (n v : Byte) (s : State) : StepOutcome :=
  if queues t c n v s then execSvc s else .next s

/-- The next step of the frame that carries `d` is due: the sample service of a tick whose sample is `d`, or a
completion of a frame in progress that carries `d` (43_dac_framer.md R201). -/
def sends (d : Sample12) (s : State) : Bool :=
  match s.frState with
  | .idle => svcEnabled s && s.smpp && s.tblValid && tickSample s == d
  | .byte1 => s.frSample == d
  | .byte2 => s.frSample == d

/-- DACFRAME `d`: the step that is due of the three by which the framer sends `d`, `SVC`, `XDONE`, `XDONE`
(43_dac_framer.md R201, R208; log 9). -/
def execDacFrame (d : Sample12) (s : State) : StepOutcome :=
  if sends d s then (if frameInProgress s then execXdone s else execSvc s) else .next s

end Sys2Proof.Machine
end

