-- ==== Sys2Proof/Machine/Dispatch.lean ====
section
/-! DEFINITION. The dispatch: one arm per instruction, each one call of its meaning. -/

namespace Sys2Proof.Machine

def exec (i : Instr) (s : State) : Host.Outcome State Fault Refusal :=
  match i with
  -- format TRACE
  | .rst => Sys2Proof.Machine.execRst s
  | .init => Sys2Proof.Machine.execInit s
  | .clk => Sys2Proof.Machine.execClk s
  | .rxb b => Sys2Proof.Machine.execRxb b s
  | .svc => Sys2Proof.Machine.execSvc s
  | .xdone => Sys2Proof.Machine.execXdone s
  | .hrd a => Sys2Proof.Machine.execHrd a s
  | .hwr a v => Sys2Proof.Machine.execHwr a v s
  -- format RXBYTE
  | .stOff c => Sys2Proof.Machine.execStOff c s
  | .stOn c => Sys2Proof.Machine.execStOn c s
  | .other0 d => Sys2Proof.Machine.execOther0 d s
  | .other101 d => Sys2Proof.Machine.execOther101 d s
  | .other11 d => Sys2Proof.Machine.execOther11 d s
  -- formats DACFRAME and MIDIEVENT
  | .dacFrame d => Sys2Proof.Machine.execDacFrame d s
  | .midiEvent t c n v => Sys2Proof.Machine.execMidiEvent t c n v s
  -- format HREG
  | .qWidx acc => Sys2Proof.Machine.execQWidx acc s
  | .qRidx acc => Sys2Proof.Machine.execQRidx acc s
  | .irqCtrl acc => Sys2Proof.Machine.execIrqCtrl acc s
  | .irqPend acc => Sys2Proof.Machine.execIrqPend acc s
  | .tmrCtrl acc => Sys2Proof.Machine.execTmrCtrl acc s
  | .tmrCount acc => Sys2Proof.Machine.execTmrCount acc s
  | .tmrCnt acc => Sys2Proof.Machine.execTmrCnt acc s
  | .oscCtrl acc => Sys2Proof.Machine.execOscCtrl acc s
  | .oscPhase acc => Sys2Proof.Machine.execOscPhase acc s
  | .oscInc acc => Sys2Proof.Machine.execOscInc acc s
  | .oscAmp acc => Sys2Proof.Machine.execOscAmp acc s
  | .qSlot k f acc => Sys2Proof.Machine.execQSlot k f acc s
  | .nft k acc => Sys2Proof.Machine.execNft k acc s

end Sys2Proof.Machine
end

