-- ==== Sys2Proof/Machine/Step.lean ====
section
/-! DEFINITION. One step of the machine: the next operation of the input, run whole (00_scope.md R8). -/

namespace Sys2Proof.Machine

/-- One step: read the next word of the input and run it. With nothing in the input no agent steps and the state stays
(00_scope.md R8, R9; log 3). -/
def step (s : State) : Host.Outcome State Fault Refusal :=
  match fetch s with
  | .nothing => .next s
  | .rejected r => .refused r
  | .op i s' => exec i s'

/-- The state with one table word as its input, so that the very next step runs it (logs 1, 14). -/
def State.withFetchWord (s : State) (nbits w : Nat) : State :=
  place (placeTableWord nbits w).1 (placeTableWord nbits w).2 s

end Sys2Proof.Machine
end

