-- ==== Sys2Proof/Machine/Pseudo.lean ====
section
/-! DEFINITION. The pseudo-operations of the trace notation (30_encoding.md R112) and the sequences of operations the
spec writes out: the boot sequence (70_reset_and_hazards.md R299), the consumer's pop (44_host_port.md R236) and the
host's note sequences (44_host_port.md R237). They are lists of instructions and add no behaviour. -/

namespace Sys2Proof.Machine

/-- Run operations one after another, stopping at the first fault or refusal. -/
def runOps : List Instr → State → StepOutcome
  | [], s => .next s
  | i :: is, s =>
    match exec i s with
    | .next t => runOps is t
    | .fault r => .fault r
    | .refused r => .refused r

/-- `RX b`: `RXB b`, `SVC`. -/
def rxOps (b : Byte) : List Instr := [.rxb b, .svc]

/-- `RXMSG b0, b1, ...`: `RX b0`, `RX b1`, .... -/
def rxMsgOps : List Byte → List Instr
  | [] => []
  | b :: bs => rxOps b ++ rxMsgOps bs

/-- `FRAME`: `SVC`, `XDONE`, `XDONE`. -/
def frameOps : List Instr := [.svc, .xdone, .xdone]

/-- How many `CLK` it takes a running timer to match, counting round `2^16` where `CNT` is above `COUNT`
(60_exceptions.md R262, 70_reset_and_hazards.md R305). -/
def clocksToMatch (s : State) : Nat := (s.count - s.cnt).toNat + 1

/-- `TICK`: as many `CLK` as it takes a running timer to match. R112 counts "until one sets `SMPP`" and so gives no count
where none can: with `TEN = 0` the model takes the same number of clocks, which then change nothing, and with `SMPP = 1`
already it counts to the match, whose tick is lost (DESIGN CHOICE, log 21). -/
def tickOps (s : State) : List Instr := List.replicate (clocksToMatch s) .clk

/-- `SAMPLE`: `TICK`, `FRAME`. -/
def sampleOps (s : State) : List Instr := tickOps s ++ frameOps

/-- `SAMPLE`, `n` times, each from the state the one before left. -/
def playSamples : Nat → State → StepOutcome
  | 0, s => .next s
  | n + 1, s =>
    match runOps (sampleOps s) s with
    | .next t => playSamples n t
    | .fault r => .fault r
    | .refused r => .refused r

/-- `CRIT ... ENDCRIT`: the bracketed operations with interrupts masked. -/
def critOps (is : List Instr) : List Instr := [.hwr 0x04#8 0#24] ++ is ++ [.hwr 0x04#8 1#24]

/-- The host address of slot field `(i, f)` for an index in range. -/
def slotFieldHostAddr (i : Fin Config.cap) (f : SlotField) : Byte :=
  slotHostAddr (BitVec.ofNat 4 i.val) (BitVec.ofNat 2 f.number)

/-- `POP` (R112, 44_host_port.md R236): read both indices and, where they differ, the oldest slot; then advance
`RIDX`. The write index is read before the slot (70_reset_and_hazards.md R302). -/
def popOps (s : State) : List Instr :=
  if queueEmpty s then [.hrd 0x00#8, .hrd 0x01#8]
  else
    [.hrd 0x00#8, .hrd 0x01#8, .hrd (slotFieldHostAddr s.ridx .status), .hrd (slotFieldHostAddr s.ridx .data0),
      .hrd (slotFieldHostAddr s.ridx .data1), .hwr 0x01#8 (BitVec.ofNat 24 (nextIndex s.ridx).val)]

/-- The reference boot sequence for a count (70_reset_and_hazards.md R299). -/
def bootOps (count : Timer16) : List Instr :=
  [.rst, .init, .hwr 0x09#8 (count.setWidth 24), .hwr 0x08#8 1#24, .hwr 0x04#8 1#24]

/-- The count for a sample rate, `F_SYS / SR - 1` (60_exceptions.md R264); `F_SYS` is open. Where `F_SYS / SR` is no
integer the spec leaves the count to the host: this one rounds the quotient down, and is 0 where the quotient is 0
(DESIGN CHOICE, log 20). -/
def countForRate : Nat := Config.systemClock / Config.sampleRate - 1

/-- The host's Note On for note-table index `k`, shape `w` and amplitude `amp` (44_host_port.md R237). -/
def noteOnOps (k : Fin Config.notes) (w : Wave) (amp : Byte) : List Instr :=
  .hrd (noteHostAddr (BitVec.ofNat 7 k.val)) ::
    critOps [.hwr 0x12#8 (noteIncrement k), .hwr 0x11#8 0#24, .hwr 0x13#8 (amp.setWidth 24),
      .hwr 0x10#8 ((w.tag ++ 1#1).setWidth 24)]

/-- The host's Note Off for shape `w` (44_host_port.md R237). -/
def noteOffOps (w : Wave) : List Instr := [.hwr 0x10#8 ((w.tag ++ 0#1).setWidth 24)]

end Sys2Proof.Machine
end

