-- ==== Sys2Proof/Safety.lean ====
section
/-! DEFINITION. What a safe state and a safe run are: the invariants the spec states of the block's state
(10_state.md R23, R24, R34, R39; 41_midi_rx.md R145; 43_dac_framer.md R207) and reachability over every input. -/

namespace Sys2Proof.Machine

/-- The invariants of the block's state. -/
structure Inv (s : State) : Prop where
  /-- `OSC_PHASE < PMOD` (10_state.md R23). -/
  phase_lt : s.oscPhase.toNat < Config.pmod
  /-- `OSC_INC < PMOD` (10_state.md R24). -/
  inc_lt : s.oscInc.toNat < Config.pmod
  /-- `CS = 1` exactly when a frame is in progress (10_state.md R34). -/
  cs_iff : s.cs = frameInProgress s
  /-- The queue storage is in its canonical form. -/
  q_wf : s.q.wf = true
  /-- The queue storage holds slot fields only (10_state.md R39). -/
  q_slots : ∀ c ∈ s.q, ∃ i f, c.1 = slotAddr i f
  /-- A status field that has been written holds a Note On or Note Off status byte (30_encoding.md R96). -/
  status_class : ∀ i b, s.q.read (slotAddr i .status) = some b → isStatusByte b = true
  /-- A data field never holds a status byte of those classes (41_midi_rx.md R145). -/
  data_class : ∀ i f b, f ≠ .status → s.q.read (slotAddr i f) = some b → isStatusByte b = false
  /-- Once a message has begun, the slot it is assembled in holds a status (41_midi_rx.md R143, R146). -/
  status_written : s.rxState ≠ .idle → (s.q.read (slotAddr s.widx .status)).isSome = true
  /-- While the second data byte is awaited, the first has been stored (41_midi_rx.md R144). -/
  note_written : s.rxState = .awaitingByte2 → (s.q.read (slotAddr s.widx .data0)).isSome = true
  /-- The wavetable store is in its canonical form. -/
  wt_wf : s.wt.wf = true
  /-- `TBL_VALID = 1` only with the tables filled (10_state.md R33). -/
  tables_filled : s.tblValid = true → s.wt = filledTables

/-- An event of the converter bus (20_memory.md R61). -/
def isBusEvent : Event → Bool
  | .txb _ => false
  | .csAssert => true
  | .dacb _ => true
  | .csDeassert => true

/-- The output history restricted to the converter bus. -/
def busHistory (s : State) : List Event := s.out.filter isBusEvent

/-- The four events of a whole frame (30_encoding.md R103). -/
def frameEvents (d : Sample12) : List Event :=
  [.csAssert, .dacb (frameByte1 d), .dacb (frameByte2 d), .csDeassert]

/-- The events of the frame in progress so far (43_dac_framer.md R201). -/
def frameSoFar (s : State) : List Event :=
  match s.frState with
  | .idle => []
  | .byte1 => (frameEvents s.frSample).take 2
  | .byte2 => (frameEvents s.frSample).take 3

/-- A sequence of frames; with `cuts` true, some of them may be cut short (43_dac_framer.md R207). -/
inductive Frames (cuts : Bool) : List Event → Prop where
  | none : Frames cuts []
  | whole (l : List Event) (d : Sample12) (h : Frames cuts l) : Frames cuts (l ++ frameEvents d)
  | cut (l : List Event) (d : Sample12) (n : Nat) (h : Frames cuts l) (hc : cuts = true) (hn : n < 4) :
      Frames cuts (l ++ (frameEvents d).take n)

/-- The bus history is a sequence of frames, followed by the frame in progress. -/
def BusInv (cuts : Bool) (s : State) : Prop := ∃ l, Frames cuts l ∧ busHistory s = l ++ frameSoFar s

/-! ### Which instructions do what, as syntax -/

/-- The address and the access of an instruction that is a host access. -/
def hostOperand : Instr → Option (Byte × HostAccess)
  | .hrd a => some (a, .rd)
  | .hwr a v => some (a, .wr v)
  | .qWidx acc => some (0x00#8, acc)
  | .qRidx acc => some (0x01#8, acc)
  | .irqCtrl acc => some (0x04#8, acc)
  | .irqPend acc => some (0x05#8, acc)
  | .tmrCtrl acc => some (0x08#8, acc)
  | .tmrCount acc => some (0x09#8, acc)
  | .tmrCnt acc => some (0x0A#8, acc)
  | .oscCtrl acc => some (0x10#8, acc)
  | .oscPhase acc => some (0x11#8, acc)
  | .oscInc acc => some (0x12#8, acc)
  | .oscAmp acc => some (0x13#8, acc)
  | .qSlot i f acc => some (slotHostAddr i f, acc)
  | .nft k acc => some (noteHostAddr k, acc)
  | .rst => none
  | .init => none
  | .clk => none
  | .rxb _ => none
  | .svc => none
  | .xdone => none
  | .stOff _ => none
  | .stOn _ => none
  | .other0 _ => none
  | .other101 _ => none
  | .other11 _ => none
  | .dacFrame _ => none
  | .midiEvent _ _ _ _ => none

/-- The register an instruction writes for the host, if it is a host write. -/
def hostWrites (i : Instr) : Option HReg :=
  match hostOperand i with
  | some (a, .wr _) => regOfAddr a
  | some (_, .rd) => none
  | none => none

/-- A host access as the operation it is (44_host_port.md R220, R221). -/
def hostOperation (a : Byte) : HostAccess → Instr
  | .rd => .hrd a
  | .wr v => .hwr a v

/-- The operation of 00_scope.md R8 that an instruction performs in a state, if any. -/
def performs (i : Instr) (s : State) : Option Instr :=
  match i with
  | .rst => some .rst
  | .init => some .init
  | .clk => some .clk
  | .rxb b => some (.rxb b)
  | .svc => some .svc
  | .xdone => some .xdone
  | .hrd a => some (.hrd a)
  | .hwr a v => some (.hwr a v)
  | .stOff c => if serves (stOffByte c) s then some .svc else none
  | .stOn c => if serves (stOnByte c) s then some .svc else none
  | .other0 d => if serves (other0Byte d) s then some .svc else none
  | .other101 d => if serves (other101Byte d) s then some .svc else none
  | .other11 d => if serves (other11Byte d) s then some .svc else none
  | .dacFrame d => if sends d s then (if frameInProgress s then some .xdone else some .svc) else none
  | .midiEvent t c n v => if queues t c n v s then some .svc else none
  | .qWidx acc => some (hostOperation 0x00#8 acc)
  | .qRidx acc => some (hostOperation 0x01#8 acc)
  | .irqCtrl acc => some (hostOperation 0x04#8 acc)
  | .irqPend acc => some (hostOperation 0x05#8 acc)
  | .tmrCtrl acc => some (hostOperation 0x08#8 acc)
  | .tmrCount acc => some (hostOperation 0x09#8 acc)
  | .tmrCnt acc => some (hostOperation 0x0A#8 acc)
  | .oscCtrl acc => some (hostOperation 0x10#8 acc)
  | .oscPhase acc => some (hostOperation 0x11#8 acc)
  | .oscInc acc => some (hostOperation 0x12#8 acc)
  | .oscAmp acc => some (hostOperation 0x13#8 acc)
  | .qSlot k f acc => some (hostOperation (slotHostAddr k f) acc)
  | .nft k acc => some (hostOperation (noteHostAddr k) acc)

/-- The queue addresses that serving a byte stores to (41_midi_rx.md R150). -/
def servedStores (b : Byte) (s : State) : List Nat :=
  if isStatusByte b then [slotAddr s.widx .status]
  else
    match s.rxState with
    | .idle => []
    | .awaitingByte1 => [slotAddr s.widx .data0]
    | .awaitingByte2 => [slotAddr s.widx .data1, slotAddr (nextIndex s.widx) .status]

/-! ### What the statements are said with -/

/-- Every state element that has a reset value has it (10_state.md R49). -/
def holdsResetValues (s : State) : Prop :=
  s.oscActive = false ∧ s.oscWave = .sine ∧ s.oscPhase = 0#24 ∧ s.oscInc = 0#24 ∧ s.oscAmp = 16#8 ∧
  s.rxState = .idle ∧ s.frState = .idle ∧ s.rxp = false ∧ s.smpp = false ∧ s.gie = false ∧ s.ten = false ∧
  s.tblValid = false ∧ s.cs = false ∧ s.count = 0#16 ∧ s.cnt = 0#16 ∧ s.widx = 0 ∧ s.ridx = 0 ∧ s.frSample = 0#12

/-- The unmapped host addresses, as 10_state.md R36 lists them. -/
def isUnmapped (a : Byte) : Bool :=
  let n := a.toNat
  n == 0x02 || n == 0x03 || n == 0x06 || n == 0x07 || (decide (0x0B ≤ n) && decide (n ≤ 0x0F)) ||
  (decide (0x14 ≤ n) && decide (n ≤ 0x3F)) || (decide (0x40 ≤ n) && decide (n ≤ 0x67) && n % 4 == 3) ||
  (decide (0x68 ≤ n) && decide (n ≤ 0x7F)) || decide (0xEC ≤ n)

/-- The read-only host addresses, by the access column of 10_state.md R36. -/
def isReadOnly (a : Byte) : Bool :=
  let n := a.toNat
  n == 0x00 || n == 0x05 || n == 0x0A || (decide (0x40 ≤ n) && decide (n ≤ 0x66) && n % 4 != 3) ||
  (decide (0x80 ≤ n) && decide (n ≤ 0xEB))

/-- The values a host write may not write (60_exceptions.md R252): a phase or an increment of `PMOD` or more, a read
index of `CAP` or more. -/
def isBadValue (a : Byte) (v : Word24) : Bool :=
  ((a == 0x11#8 || a == 0x12#8) && decide (0xA00000 ≤ v.toNat)) || (a == 0x01#8 && decide (10 ≤ v.toNat % 16))

/-- One complete MIDI message (30_encoding.md R96). -/
structure Message where
  status : Byte
  data0 : Byte
  data1 : Byte
deriving DecidableEq, Repr

/-- A message the parser takes as one: a Note On or Note Off status, then two bytes of class `OTHER`. -/
def Message.ok (m : Message) : Bool :=
  isStatusByte m.status && !isStatusByte m.data0 && !isStatusByte m.data1

/-- The bytes of a message in their order on the link (20_memory.md R63). -/
def Message.bytes (m : Message) : List Byte := [m.status, m.data0, m.data1]

/-- A message seen as 24 bits, `{status, data0, data1}` (30_encoding.md R96). -/
def Message.record (m : Message) : Word24 := m.status ++ m.data0 ++ m.data1

/-- The output events of one instruction (00_scope.md R10): those of the operation it performs, the frame start of a
sample service with the tick's sample, the echo of an RX service, and the two completions; every other operation emits
nothing. -/
def emitted (i : Instr) (s : State) : List Event :=
  if performs i s = some .svc then
    if svcEnabled s then (if s.smpp then [.csAssert, .dacb (frameByte1 (tickSample s))] else [.txb s.rxdata]) else []
  else if performs i s = some .xdone then
    match s.frState with
    | .idle => []
    | .byte1 => [.dacb (frameByte2 s.frSample)]
    | .byte2 => [.csDeassert]
  else []

/-! ### Premises on the schedule (70_reset_and_hazards.md R311): the block enforces none of them -/

/-- A timer match steps. -/
def timerMatches (i : Instr) (s : State) : Bool := decide (i = .clk) && timerMatch s

/-- (a): while a frame is in progress, a completion steps before the next timer match. -/
def transportPrompt (i : Instr) (s : State) : Prop := timerMatches i s = true → s.frState = .idle

/-- (b): an enabled `SVC` steps before the next timer match and before the next byte. -/
def servicePrompt (i : Instr) (s : State) : Prop := svcEnabled s = true → timerMatches i s = false ∧ ∀ b, i ≠ .rxb b

/-- (c): the host opens the mask before the next timer match. -/
def maskShort (i : Instr) (s : State) : Prop := timerMatches i s = true → s.gie = true

/-- (d), which asks the host to pop before nine events are shown, as far as it is needed: no event completes while nine
are shown (R301). -/
def consumerPrompt (i : Instr) (s : State) : Prop :=
  performs i s = some .svc → rxDispatchable s = true → completes s.rxdata s = true → shownCount s ≤ 8

/-- Every instruction of a run meets a premise in the state it steps in. -/
def holdsAlong (P : Instr → State → Prop) : List Instr → State → Prop
  | [], _ => True
  | i :: is, s => P i s ∧ ∀ t, exec i s = .next t → holdsAlong P is t

/-- Transport progress, over an endless run: whenever a frame is in progress, a completion eventually steps
(43_dac_framer.md R206; 93_implementation_defined.md U4). -/
def TransportProgress (sched : Nat → Instr) (states : Nat → State) : Prop :=
  ∀ n, (states n).frState ≠ .idle → ∃ m, n ≤ m ∧ performs (sched m) (states m) = some .xdone

/-! ### Runs -/

/-- Reached from the state after reset, with any input placed in it, by steps that answer a next state. -/
inductive Reachable : State → Prop where
  | start (f : Format) (bs : List Byte) : Reachable (place f bs State.reset)
  | step (s t : State) (h : Reachable s) (ht : step s = .next t) : Reachable t

/-- A step that stops with a fault. The block raises none (60_exceptions.md R250). -/
def Faults (s : State) : Prop := ∃ r, step s = .fault r

end Sys2Proof.Machine
end

