-- ==== Sys2Proof/Certificates/Slice0/Obligations.lean ====
section
/-! DEFINITION. The statements for the provers, one `Obligations.<Name>` each, from the numbered rules of spec/. An
equality with a whole next state says the frame too: every field it does not name keeps its value. -/

section
open Sys2Proof Sys2Proof.Machine

/-! ### Reset and boot -/

/-- The state after reset has the spec's reset values, and so has the state after `RST` in any state (10_state.md R49). -/
def Obligations.ResetStateValues : Prop :=
  holdsResetValues State.reset ∧ ∀ s, ∃ t, exec .rst s = .next t ∧ holdsResetValues t

/-- `RST` completes in every state; the histories keep what was emitted and nothing is emitted
(70_reset_and_hazards.md R290, R293). The model's choices: the input and its format are the environment's and stay
(log 1), and the unspecified storage lists no byte (logs 4, 5). -/
def Obligations.ResetOperation : Prop :=
  ∀ s, ∃ t, exec .rst s = .next t ∧ holdsResetValues t ∧ t.out = s.out ∧ t.hostOut = s.hostOut ∧
    (∀ a, t.q.read a = none) ∧ (∀ a, t.wt.read a = none) ∧ t.format = s.format ∧ t.input = s.input

/-- After `RST` a partial message is gone: with the mask open again, data bytes are echoed and change nothing else
until a status byte comes (70_reset_and_hazards.md R293, vector V-R2). -/
def Obligations.ResetDropsPartialMessage : Prop :=
  ∀ s t, exec .rst s = .next t → ∀ bs : List Byte, (∀ b ∈ bs, isStatusByte b = false) →
    ∃ u, runOps (.hwr 0x04#8 1#24 :: rxMsgOps bs) t = .next u ∧ u.q = t.q ∧ u.widx = 0 ∧ u.ridx = 0 ∧
      u.rxState = .idle ∧ u.rxp = false ∧ u.out = s.out ++ bs.map Event.txb

/-- The reference boot sequence, from any state, for any count: tables filled, timer running, mask open, every other
element at its reset value, nothing emitted; then every sample period sends a frame of sample 0
(70_reset_and_hazards.md R299). -/
def Obligations.BootSequence : Prop :=
  ∀ (s : State) (c : Timer16), ∃ t, runOps (bootOps c) s = .next t ∧
    t.wt = filledTables ∧ t.tblValid = true ∧ t.count = c ∧ t.cnt = 0#16 ∧ t.ten = true ∧ t.gie = true ∧
    t.oscActive = false ∧ t.oscWave = .sine ∧ t.oscPhase = 0#24 ∧ t.oscInc = 0#24 ∧ t.oscAmp = 16#8 ∧
    t.frSample = 0#12 ∧ t.cs = false ∧ t.frState = .idle ∧ t.rxState = .idle ∧ t.rxp = false ∧ t.smpp = false ∧
    t.widx = 0 ∧ t.ridx = 0 ∧ (∀ a, t.q.read a = none) ∧ t.out = s.out ∧
    ∀ n, ∃ u, playSamples n t = .next u ∧ u.out = s.out ++ (List.replicate n (frameEvents 0#12)).flatten

/-! ### The table generator -/

/-- `INIT`: every one of the 640 entries gets its sample, the flag is set, nothing else changes, and a second `INIT`
changes nothing (40_tablegen.md R120). -/
def Obligations.InitFillsTables : Prop :=
  ∀ s, exec .init s = .next { s with wt := filledTables, tblValid := true } ∧
    (∀ t, exec .init s = .next t → exec .init t = .next t ∧
      ∀ i, i < 160 →
        readTable t .sine i = BitVec.ofNat 8 (sine i) ∧ readTable t .triangle i = BitVec.ofNat 8 (triangle i) ∧
        readTable t .square i = BitVec.ofNat 8 (square i) ∧ readTable t .sawtooth i = BitVec.ofNat 8 (sawtooth i))

/-- The sine table is the rounded sine, a tie going up, as real numbers (40_tablegen.md R121). At the tie, entry 40, the
model takes the reference value 128 of the two the spec allows (log 13). -/
def Obligations.SineTableFormula : Prop :=
  ∀ i : ℕ, i < 160 →
    (sine i : ℤ) =
      ⌊(Config.sineScale : ℝ) *
        (1 + Real.sin (2 * Real.pi * i / Config.tableLength + Config.sinePhase * Real.pi)) + 1 / 2⌋

/-- The triangle, the square and the sawtooth in closed form (40_tablegen.md R122, R123, R124). -/
def Obligations.WaveformFormulas : Prop :=
  (∀ i, i ≤ 80 → triangle i = 51 * i / 16) ∧ (∀ i, 80 ≤ i → i ≤ 159 → triangle i = 51 * (160 - i) / 16) ∧
  (∀ i, i < 80 → square i = 255) ∧ (∀ i, 80 ≤ i → i ≤ 159 → square i = 0) ∧
  (∀ i, i ≤ 159 → sawtooth i = 255 * i / 160)

/-- The properties of the four tables: length, range, first samples, extremes, symmetry and checksums; after `INIT` the
store holds 160 samples of each shape and nothing more (40_tablegen.md R125). The model's choices: the addresses of the
store, `160 * w + i` (log 5), and the tie at entry 40, 128 of the two values the spec allows, on which the sine checksum
and the symmetry of entries 40 and 120 rest (log 13). -/
def Obligations.WavetableProperties : Prop :=
  sineTable.length = 160 ∧ filledTables.length = 640 ∧
  (∀ (w : Wave) (i : ℕ), i < 160 → filledTables.read (160 * w.tag.toNat + i) = some (waveSample w i)) ∧
  (∀ a, 640 ≤ a → filledTables.read a = none) ∧
  (∀ i, i < 160 → sine i ≤ 255 ∧ triangle i ≤ 255 ∧ square i ≤ 255 ∧ sawtooth i ≤ 253) ∧
  sine 0 = 0 ∧ triangle 0 = 0 ∧ sawtooth 0 = 0 ∧ square 0 = 255 ∧
  sine 80 = 255 ∧ triangle 80 = 255 ∧ square 80 = 0 ∧ sawtooth 159 = 253 ∧
  (∀ i, 1 ≤ i → i ≤ 159 → sine i = sine (160 - i) ∧ triangle i = triangle (160 - i)) ∧
  ((List.range 160).map sine).sum = 20401 ∧ ((List.range 160).map triangle).sum = 20325 ∧
  ((List.range 160).map square).sum = 20400 ∧ ((List.range 160).map sawtooth).sum = 20195

/-- Every note-table entry is the rounded increment of its note in equal temperament with A4 = 440 Hz, as real
numbers (40_tablegen.md R128, which takes the temperament from general knowledge, D23). -/
def Obligations.NoteTableFormula : Prop :=
  ∀ k : Fin 108, ((noteIncrement k).toNat : ℤ) =
    ⌊(Config.tuningFrequency : ℝ) * (2 : ℝ) ^ (((k.val : ℝ) - Config.tuningIndex) / Config.octaveNotes) *
      Config.tableLength / Config.sampleRate * Config.fracScale + 1 / 2⌋

/-! ### MIDI receive -/

/-- `RXB b`: latched and pending where no byte waits, refused where one does (41_midi_rx.md R140). -/
def Obligations.RxbLatchesByte : Prop :=
  ∀ (b : Byte) (s : State),
    (s.rxp = false → exec (.rxb b) s = .next { s with rxdata := b, rxp := true }) ∧
    (s.rxp = true → exec (.rxb b) s = .refused .rxOverrun)

/-- The complete transition table of the parser, run by `SVC` when it dispatches the RX service: every `RXSTATE` with
every class of byte, with the echo, the stores, the index and the next state (41_midi_rx.md R141 to R147, R150). -/
def Obligations.ParserTransitionTable : Prop :=
  (∀ i : Fin 10, (nextIndex i).val = (i.val + 1) % 10) ∧
  ∀ s : State, s.gie = true → s.frState = .idle → s.smpp = false → s.rxp = true →
    ((hiNibble s.rxdata = 0b1001#4 ∨ hiNibble s.rxdata = 0b1000#4) →
      exec .svc s = .next { s with
        rxp := false, out := s.out ++ [.txb s.rxdata], rxState := .awaitingByte1
        q := s.q.write (slotAddr s.widx .status) s.rxdata }) ∧
    (¬(hiNibble s.rxdata = 0b1001#4 ∨ hiNibble s.rxdata = 0b1000#4) → s.rxState = .awaitingByte1 →
      exec .svc s = .next { s with
        rxp := false, out := s.out ++ [.txb s.rxdata], rxState := .awaitingByte2
        q := s.q.write (slotAddr s.widx .data0) s.rxdata }) ∧
    (¬(hiNibble s.rxdata = 0b1001#4 ∨ hiNibble s.rxdata = 0b1000#4) → s.rxState = .awaitingByte2 →
      exec .svc s = .next { s with
        rxp := false, out := s.out ++ [.txb s.rxdata], rxState := .awaitingByte1, widx := nextIndex s.widx
        q := (s.q.write (slotAddr s.widx .data1) s.rxdata).write (slotAddr (nextIndex s.widx) .status)
          (readSlot s s.widx .status) }) ∧
    (¬(hiNibble s.rxdata = 0b1001#4 ∨ hiNibble s.rxdata = 0b1000#4) → s.rxState = .idle →
      exec .svc s = .next { s with rxp := false, out := s.out ++ [.txb s.rxdata] })

/-- `IDLE` ignores every byte that is no status, is left only by a status byte and is entered only by `RST`
(41_midi_rx.md R147). -/
def Obligations.ParserIdleRule : Prop :=
  (∀ s : State, s.gie = true → s.frState = .idle → s.smpp = false → s.rxp = true → isStatusByte s.rxdata = false →
    s.rxState = .idle → exec .svc s = .next { s with rxp := false, out := s.out ++ [.txb s.rxdata] }) ∧
  (∀ i s t, exec i s = .next t → s.rxState = .idle → t.rxState ≠ .idle →
    performs i s = some .svc ∧ rxDispatchable s = true ∧ isStatusByte s.rxdata = true) ∧
  (∀ i s t, exec i s = .next t → s.rxState ≠ .idle → t.rxState = .idle → i = .rst)

/-- The five RXBYTE words, in every `RXSTATE`: where `SVC` would serve the word's byte (60_exceptions.md R258) the word is
that service, with the effect of 41_midi_rx.md R143, R144, R146 or R147; elsewhere it changes nothing. That such a word
performs an `SVC` is the model's reading (log 8). -/
def Obligations.RxByteRows : Prop :=
  ∀ (i : Instr) (b : Byte) (s : State),
    ((∃ c : BitVec 4, i = .stOff c ∧ b = 0b1000#4 ++ c) ∨ (∃ c : BitVec 4, i = .stOn c ∧ b = 0b1001#4 ++ c) ∨
      (∃ d : BitVec 7, i = .other0 d ∧ b = 0b0#1 ++ d) ∨ (∃ d : BitVec 5, i = .other101 d ∧ b = 0b101#3 ++ d) ∨
      (∃ d : BitVec 6, i = .other11 d ∧ b = 0b11#2 ++ d)) →
    (s.gie = true → s.frState = .idle → s.smpp = false → s.rxp = true → s.rxdata = b →
      ((∃ c, i = .stOff c ∨ i = .stOn c) →
        exec i s = .next { s with
          rxp := false, out := s.out ++ [.txb b], rxState := .awaitingByte1
          q := s.q.write (slotAddr s.widx .status) b }) ∧
      ((∀ c, i ≠ .stOff c ∧ i ≠ .stOn c) →
        (s.rxState = .idle → exec i s = .next { s with rxp := false, out := s.out ++ [.txb b] }) ∧
        (s.rxState = .awaitingByte1 → exec i s = .next { s with
          rxp := false, out := s.out ++ [.txb b], rxState := .awaitingByte2
          q := s.q.write (slotAddr s.widx .data0) b }) ∧
        (s.rxState = .awaitingByte2 → exec i s = .next { s with
          rxp := false, out := s.out ++ [.txb b], rxState := .awaitingByte1, widx := nextIndex s.widx
          q := (s.q.write (slotAddr s.widx .data1) b).write (slotAddr (nextIndex s.widx) .status)
            (readSlot s s.widx .status) }))) ∧
    (s.gie = false ∨ s.frState ≠ .idle ∨ s.smpp = true ∨ s.rxp = false ∨ s.rxdata ≠ b → exec i s = .next s)

/-- A MIDIEVENT word: where `SVC` would serve the last byte of its event, with the two others stored in the slot at
`WIDX`, the word is that service, and the slot holds the whole event, the next one its status; elsewhere it changes
nothing. That such a word performs an `SVC` is the model's reading (log 8); the effect is 41_midi_rx.md R146. -/
def Obligations.MidiEventRow : Prop :=
  ∀ (ty : BitVec 1) (c : BitVec 4) (n v : Byte) (s : State),
    (s.gie = true → s.frState = .idle → s.smpp = false → s.rxp = true → s.rxdata = v → isStatusByte v = false →
      s.rxState = .awaitingByte2 → readSlot s s.widx .status = 0b100#3 ++ ty ++ c → readSlot s s.widx .data0 = n →
      ∃ t, exec (.midiEvent ty c n v) s = .next t ∧
        t = { s with
          rxp := false, out := s.out ++ [.txb v], rxState := .awaitingByte1, widx := nextIndex s.widx
          q := (s.q.write (slotAddr s.widx .data1) v).write (slotAddr (nextIndex s.widx) .status)
            (0b100#3 ++ ty ++ c) } ∧
        slotRecord t s.widx = (0b100#3 ++ ty ++ c) ++ n ++ v ∧ readSlot t t.widx .status = 0b100#3 ++ ty ++ c) ∧
    (s.gie = false ∨ s.frState ≠ .idle ∨ s.smpp = true ∨ s.rxp = false ∨ s.rxdata ≠ v ∨ isStatusByte v = true ∨
        s.rxState ≠ .awaitingByte2 ∨ readSlot s s.widx .status ≠ 0b100#3 ++ ty ++ c ∨ readSlot s s.widx .data0 ≠ n →
      exec (.midiEvent ty c n v) s = .next s)

/-- Round trip and running status: three bytes queue one event, two more queue a second with the status inherited
(41_midi_rx.md R152). -/
def Obligations.MidiRoundTrip : Prop :=
  ∀ (s : State) (st n v n' v' : Byte), isStatusByte st = true → isStatusByte n = false → isStatusByte v = false →
    isStatusByte n' = false → isStatusByte v' = false →
    s.gie = true → s.frState = .idle → s.smpp = false → s.rxp = false →
    (∃ t, runOps (rxMsgOps [st, n, v]) s = .next t ∧ slotRecord t s.widx = st ++ n ++ v ∧
      t.widx = nextIndex s.widx ∧ readSlot t t.widx .status = st ∧ t.rxState = .awaitingByte1 ∧ t.ridx = s.ridx ∧
      t.out = s.out ++ [.txb st, .txb n, .txb v]) ∧
    (∃ t, runOps (rxMsgOps [st, n, v, n', v']) s = .next t ∧ slotRecord t s.widx = st ++ n ++ v ∧
      slotRecord t (nextIndex s.widx) = st ++ n' ++ v' ∧ t.widx = nextIndex (nextIndex s.widx) ∧
      readSlot t t.widx .status = st ∧ t.rxState = .awaitingByte1 ∧ t.ridx = s.ridx ∧
      t.out = s.out ++ [.txb st, .txb n, .txb v, .txb n', .txb v'])

/-- The frame of everything that serves a received byte, `SVC` and the words that perform it: only the pending bit, the
echo, the queue storage, `WIDX` and `RXSTATE` change, and every queue byte outside the bytes stored to reads as before.
`servedStores` computes the bytes stored to (41_midi_rx.md R150; the words by log 8). -/
def Obligations.ReceiveFrame : Prop :=
  ∀ (i : Instr) (s t : State), performs i s = some .svc → rxDispatchable s = true → exec i s = .next t →
    t = { s with
      rxp := false, out := s.out ++ [.txb s.rxdata], q := t.q, widx := t.widx, rxState := t.rxState } ∧
    (∀ a, a ∉ servedStores s.rxdata s → t.q.read a = s.q.read a)

/-- What a completion does to the shown count, whatever `RIDX` is: one more event up to nine, and at the tenth the
queue appears empty and the oldest unread event's status is overwritten (41_midi_rx.md R148; 10_state.md R42). -/
def Obligations.QueueCompletionCount : Prop :=
  ∀ s : State, (queueEmpty s = true ↔ s.ridx = s.widx) ∧ shownCount s = (s.widx.val + 10 - s.ridx.val) % 10 ∧
    (s.gie = true → s.frState = .idle → s.smpp = false → s.rxp = true → completes s.rxdata s = true →
      ∃ t, exec .svc s = .next t ∧ t.ridx = s.ridx ∧
        (shownCount s ≤ 8 → shownCount t = shownCount s + 1) ∧
        (shownCount s = 9 → queueEmpty t = true ∧ shownCount t = 0 ∧
          readSlot t s.ridx .status = readSlot s s.widx .status))

/-- What the consumer may rely on: serving a byte leaves the events shown as they were, and a completion that keeps
the shown number at nine or below adds the finished record as the newest (41_midi_rx.md R151). -/
def Obligations.ShownEventsGrow : Prop :=
  ∀ s t : State, rxDispatchable s = true → exec .svc s = .next t →
    (completes s.rxdata s = false → shownEvents t = shownEvents s) ∧
    (completes s.rxdata s = true → shownCount s ≤ 8 →
      shownEvents t =
        shownEvents s ++ [readSlot s s.widx .status ++ readSlot s s.widx .data0 ++ s.rxdata])

/-- The contents after any number of messages with no read, from an empty queue at index 0: the index view, the slot
storage of the last ten, and the status copy (41_midi_rx.md R149, for messages sent whole). -/
def Obligations.ContentsAfterMessages : Prop :=
  ∀ (ms : List Message) (s : State), (∀ m ∈ ms, m.ok = true) →
    s.gie = true → s.frState = .idle → s.smpp = false → s.rxp = false → s.widx = 0 → s.ridx = 0 →
    ∃ t, runOps (rxMsgOps (ms.flatMap Message.bytes)) s = .next t ∧ t.widx.val = ms.length % 10 ∧ t.ridx = 0 ∧
      shownEvents t = (ms.drop (ms.length - ms.length % 10)).map Message.record ∧
      (∀ (j : ℕ) (m : Message), ms[j]? = some m → ms.length ≤ j + 10 →
        readSlot t (Fin.ofNat 10 j) .data0 = m.data0 ∧ readSlot t (Fin.ofNat 10 j) .data1 = m.data1 ∧
        (Fin.ofNat 10 j ≠ t.widx → readSlot t (Fin.ofNat 10 j) .status = m.status)) ∧
      (∀ m : Message, ms.getLast? = some m → readSlot t t.widx .status = m.status) ∧
      t.out = s.out ++ (ms.flatMap Message.bytes).map Event.txb

/-- The receive path and every other operation of the block run the same whatever `RIDX` is: only the host's accesses
of `Q_RIDX` and `RST` read or write it (10_state.md R41, 20_memory.md R67). -/
def Obligations.ReadIndexUnread : Prop :=
  ∀ (i : Instr) (s : State) (r : Fin 10), i ≠ .rst → (∀ acc, hostOperand i ≠ some (0x01#8, acc)) →
    exec i { s with ridx := r } =
      match exec i s with
      | .next t => .next { t with ridx := r }
      | .fault f => .fault f
      | .refused x => .refused x

/-! ### The interrupt controller and the timer -/

/-- `SVC`: when it is enabled, which service it runs, that it leaves the mask alone and holds the other request, and
that it does nothing where it is not enabled (60_exceptions.md R258). -/
def Obligations.SvcDispatch : Prop :=
  (∀ s : State, svcEnabled s = true ↔ s.gie = true ∧ s.frState = .idle ∧ (s.smpp = true ∨ s.rxp = true)) ∧
  (∀ s : State, svcEnabled s = true → s.smpp = true → exec .svc s = sampleService s) ∧
  (∀ s : State, svcEnabled s = true → s.smpp = false → exec .svc s = .next (rxService s)) ∧
  (∀ s : State, svcEnabled s = false → exec .svc s = .next s) ∧
  (∀ s t : State, svcEnabled s = true → exec .svc s = .next t → t.gie = s.gie ∧
    (s.smpp = true → t.smpp = false ∧ t.rxp = s.rxp ∧ t.rxdata = s.rxdata ∧ t.frState = .byte1 ∧
      svcEnabled t = false) ∧
    (s.smpp = false → t.rxp = false ∧ t.smpp = false ∧ t.frState = .idle))

/-- `CLK`: stopped, counting modulo `2^16`, or matching; a match raises the tick or, where one waits, loses it
(60_exceptions.md R262, R263). -/
def Obligations.ClkRule : Prop :=
  ∀ s : State,
    (s.ten = false → exec .clk s = .next s) ∧
    (s.ten = true → s.cnt = s.count → s.smpp = false → exec .clk s = .next { s with cnt := 0#16, smpp := true }) ∧
    (s.ten = true → s.cnt = s.count → s.smpp = true → exec .clk s = .next { s with cnt := 0#16 }) ∧
    (s.ten = true → s.cnt ≠ s.count →
      exec .clk s = .next { s with cnt := BitVec.ofNat 16 ((s.cnt.toNat + 1) % 65536) })

/-- The period of the timer: no earlier clock raises a tick, the clock numbered `COUNT - CNT + 1` does (counted round
`2^16` where `CNT` has passed `COUNT`), so from 0 a tick comes every `COUNT + 1` clocks (60_exceptions.md R262,
70_reset_and_hazards.md R305). -/
def Obligations.TimerPeriod : Prop :=
  ∀ s : State, s.ten = true →
    (∀ n, n < clocksToMatch s → runOps (List.replicate n .clk) s = .next { s with cnt := s.cnt + BitVec.ofNat 16 n }) ∧
    runOps (List.replicate (clocksToMatch s) .clk) s = .next { s with cnt := 0#16, smpp := true } ∧
    (s.cnt.toNat ≤ s.count.toNat → clocksToMatch s = s.count.toNat - s.cnt.toNat + 1) ∧
    (s.count.toNat < s.cnt.toNat → clocksToMatch s = 65536 - s.cnt.toNat + s.count.toNat + 1)

/-- A pending bit is raised only by its source and cleared only by its own service or by `RST`, whatever the instruction
(60_exceptions.md R255). -/
def Obligations.PendingBits : Prop :=
  ∀ (i : Instr) (s t : State), exec i s = .next t →
    (s.rxp = true → t.rxp = false → i = .rst ∨ (performs i s = some .svc ∧ rxDispatchable s = true)) ∧
    (s.smpp = true → t.smpp = false → i = .rst ∨ (performs i s = some .svc ∧ svcEnabled s = true)) ∧
    (s.rxp = false → t.rxp = true → ∃ b, i = .rxb b) ∧
    (s.smpp = false → t.smpp = true → i = .clk ∧ timerMatch s = true)

/-- A masked section, of any length: no service runs, nothing is echoed and no frame starts, the queue stays as it is,
pending requests are held, and the phase moves only by the host's own write (20_memory.md R70, 60_exceptions.md R256). -/
def Obligations.MaskedSection : Prop :=
  (∀ (ops : List Instr) (s t : State), s.gie = false →
    (∀ i ∈ ops, i ≠ .rst ∧ hostWrites i ≠ some .irqCtrl) → runOps ops s = .next t →
    t.gie = false ∧ t.q = s.q ∧ t.widx = s.widx ∧ t.rxState = s.rxState ∧ t.frSample = s.frSample ∧
    (s.rxp = true → t.rxp = true) ∧ (s.smpp = true → t.smpp = true) ∧
    (∃ es, t.out = s.out ++ es ∧ ∀ e ∈ es, e ≠ .csAssert ∧ ∀ b, e ≠ .txb b) ∧
    ((∀ i ∈ ops, hostWrites i ≠ some .oscPhase) → t.oscPhase = s.oscPhase)) ∧
  (∀ (ops : List Instr) (s t : State),
    (∀ i ∈ ops, i ≠ .rst ∧ hostWrites i ≠ some .irqCtrl) → runOps (critOps ops) s = .next t →
    t.gie = true ∧ t.q = s.q ∧ t.widx = s.widx ∧ (s.rxp = true → t.rxp = true) ∧ (s.smpp = true → t.smpp = true))

/-- The two services share no state: with both requests pending, serving the sample first and the byte after the frame
gives the state that serving the byte first gives, in everything but the order of the output history
(60_exceptions.md R261, with R257 the order the block takes). -/
def Obligations.ServicesCommute : Prop :=
  ∀ s t : State, s.gie = true → s.frState = .idle → s.smpp = true → s.rxp = true →
    runOps [.svc, .xdone, .xdone, .svc] s = .next t →
    ∃ u, runOps frameOps (rxService s) = .next u ∧ u = { t with out := u.out } ∧
      t.out = s.out ++ frameEvents (tickSample s) ++ [.txb s.rxdata] ∧
      u.out = s.out ++ [.txb s.rxdata] ++ frameEvents (tickSample s)

/-- What the premises on the schedule give, in every run that meets them: under transport progress, service progress and
short masks, no tick is lost, and once a tick has matched after the last byte no byte waits, so the next one is not
refused (a byte takes longer than a sample period, R310); under consumer progress no event shown is lost or altered,
and only the host takes one off (70_reset_and_hazards.md R311, R301, R307). -/
def Obligations.PromptRuns : Prop :=
  (∀ (ops : List Instr) (s t : State), runOps ops s = .next t →
    holdsAlong transportPrompt ops s → holdsAlong servicePrompt ops s → holdsAlong maskShort ops s →
    holdsAlong (fun i u => timerMatches i u = true → u.smpp = false ∧ u.rxp = false) ops s ∧
    ((∃ pre post u, ops = pre ++ .clk :: post ∧ runOps pre s = .next u ∧ timerMatch u = true ∧
        ∀ i ∈ post, ∀ b, i ≠ .rxb b) →
      t.rxp = false ∧ ∀ b, ∃ v, exec (.rxb b) t = .next v)) ∧
  (∀ (ops : List Instr) (s t : State), runOps ops s = .next t → holdsAlong consumerPrompt ops s →
    (∀ i ∈ ops, i ≠ .rst ∧ hostWrites i ≠ some .qRidx) → shownEvents s <+: shownEvents t)

/-! ### The sample service -/

/-- The sample service of an active oscillator, in exact integers: advance modulo `PMOD`, two table reads,
interpolation, scale with the clip at 4095, frame start (42_synth.md R170, R173 to R178). -/
def Obligations.SampleServiceActive : Prop :=
  ∀ s : State, Inv s → s.gie = true → s.frState = .idle → s.smpp = true → s.tblValid = true → s.oscActive = true →
    ∀ T P idx frac a b S8 S12 : ℕ,
      T = s.oscPhase.toNat + s.oscInc.toNat → P = (if 10485760 ≤ T then T - 10485760 else T) →
      idx = P / 65536 → frac = P % 65536 →
      a = (waveSample s.oscWave idx).toNat → b = (waveSample s.oscWave ((idx + 1) % 160)).toNat →
      S8 = (((a : ℤ) * 65536 + ((b : ℤ) - a) * frac) / 65536).toNat → S12 = min (S8 * s.oscAmp.toNat) 4095 →
      exec .svc s = .next { s with
        smpp := false, oscPhase := BitVec.ofNat 24 P, frSample := BitVec.ofNat 12 S12, cs := true, frState := .byte1
        out := s.out ++ [.csAssert, .dacb (BitVec.ofNat 8 (0x30 + S12 / 256))] }

/-- The sample service of an inactive oscillator sends the sample 0 with the phase frozen; before `INIT` the service
is refused (42_synth.md R170, R171). -/
def Obligations.SampleServiceInactive : Prop :=
  ∀ s : State, s.gie = true → s.frState = .idle → s.smpp = true →
    (s.tblValid = true → s.oscActive = false →
      exec .svc s = .next { s with
        smpp := false, frSample := 0#12, cs := true, frState := .byte1
        out := s.out ++ [.csAssert, .dacb 0x30#8] }) ∧
    (s.tblValid = false → exec .svc s = .refused .tablesNotReady)

/-- The advance: one conditional subtraction, the sum in range, equality wraps, increment 0 stands still
(42_synth.md R173). -/
def Obligations.AdvanceRule : Prop :=
  ∀ p i : Phase, p.toNat < 0xA00000 → i.toNat < 0xA00000 →
    (0xA00000 ≤ p.toNat + i.toNat → (advance p i).toNat = p.toNat + i.toNat - 0xA00000) ∧
    (p.toNat + i.toNat < 0xA00000 → (advance p i).toNat = p.toNat + i.toNat) ∧
    (advance p i).toNat < 0xA00000 ∧ phaseIndex (advance p i) ≤ 159 ∧ advance p 0#24 = p

/-- The interpolation: exact floor, between its operands, and its laws on rising and falling slopes
(42_synth.md R176). -/
def Obligations.InterpolationRule : Prop :=
  ∀ (a b : Byte) (frac : BitVec 16),
    ((interp a b frac).toNat : ℤ) = ((a.toNat : ℤ) * 65536 + ((b.toNat : ℤ) - a.toNat) * frac.toNat) / 65536 ∧
    min a.toNat b.toNat ≤ (interp a b frac).toNat ∧ (interp a b frac).toNat ≤ max a.toNat b.toNat ∧
    (frac = 0#16 → interp a b frac = a) ∧ (a = b → interp a b frac = a) ∧
    (a.toNat < b.toNat → (interp a b frac).toNat = a.toNat + (b.toNat - a.toNat) * frac.toNat / 65536) ∧
    (b.toNat < a.toNat →
      (interp a b frac).toNat = a.toNat - ((a.toNat - b.toNat) * frac.toNat + 65535) / 65536)

/-- The scale: the product, clipped at 4095; 16 is a shift by four that never clips, 0 gives 0, and from 17 the clip
acts exactly above `floor(4095 / A)` (42_synth.md R177). -/
def Obligations.ScaleRule : Prop :=
  ∀ s8 amp : Byte,
    (scale s8 amp).toNat = min (s8.toNat * amp.toNat) 4095 ∧
    (amp = 16#8 → (scale s8 amp).toNat = 16 * s8.toNat ∧ (scale s8 amp).toNat ≤ 4080) ∧
    (amp = 0#8 → scale s8 amp = 0#12) ∧
    (17 ≤ amp.toNat → (4095 < s8.toNat * amp.toNat ↔ 4095 / amp.toNat < s8.toNat))

/-- Pitch law: with the increment constant, `n` sample periods bring the phase to `(P0 + n * I) mod PMOD` exactly and
send `n` whole frames, the frame of each period carrying the sample at its own phase (42_synth.md R181). -/
def Obligations.PitchLaw : Prop :=
  ∀ (n : ℕ) (s : State), Inv s → s.gie = true → s.ten = true → s.tblValid = true → s.oscActive = true →
    s.frState = .idle → s.smpp = false →
    ∃ t, playSamples n s = .next t ∧ t.oscPhase.toNat = (s.oscPhase.toNat + n * s.oscInc.toNat) % 0xA00000 ∧
      t.oscInc = s.oscInc ∧
      t.out = s.out ++ (List.range n).flatMap fun j =>
        frameEvents (voiceSample s (BitVec.ofNat 24 ((s.oscPhase.toNat + (j + 1) * s.oscInc.toNat) % 0xA00000)))

/-! ### The framer -/

/-- `XDONE`: byte 2 from the latch, then the release; with the framer idle nothing happens (43_dac_framer.md R204,
R205). -/
def Obligations.XdoneRule : Prop :=
  ∀ s : State,
    (s.frState = .byte1 →
      exec .xdone s = .next { s with frState := .byte2, out := s.out ++ [.dacb (s.frSample.extractLsb' 0 8)] }) ∧
    (s.frState = .byte2 →
      exec .xdone s = .next { s with frState := .idle, cs := false, out := s.out ++ [.csDeassert] }) ∧
    (s.frState = .idle → exec .xdone s = .next s)

/-- The two bytes of a frame, from the 12-bit sample: the control nibble `0011` and the high four bits, then the low
eight; as one 16-bit word `0x3000` with the sample (30_encoding.md R102; 20_memory.md R62). -/
def Obligations.FrameBytes : Prop :=
  ∀ d : Sample12,
    (frameByte1 d).toNat = 0x30 + d.toNat / 256 ∧ 0x30 ≤ (frameByte1 d).toNat ∧ (frameByte1 d).toNat ≤ 0x3F ∧
    (frameByte2 d).toNat = d.toNat % 256 ∧ (frameByte1 d ++ frameByte2 d : BitVec 16) = 0b0011#4 ++ d

/-- One whole frame: `SVC` with a tick pending and two completions emit exactly `CS_ASSERT`, the two bytes of the
tick's sample and `CS_DEASSERT`, and leave the framer idle and released (43_dac_framer.md R201; 30_encoding.md R103). -/
def Obligations.WholeFrame : Prop :=
  ∀ s : State, Inv s → s.gie = true → s.frState = .idle → s.smpp = true → s.tblValid = true →
    ∃ t, runOps frameOps s = .next t ∧
      t.out = s.out ++ [.csAssert, .dacb (BitVec.ofNat 8 (0x30 + (tickSample s).toNat / 256)),
        .dacb (BitVec.ofNat 8 ((tickSample s).toNat % 256)), .csDeassert] ∧
      t.frSample = tickSample s ∧ t.frState = .idle ∧ t.cs = false ∧ t.smpp = false ∧ t.rxp = s.rxp

/-- A DACFRAME word performs the step that is due of the three that send its 12-bit word: the sample service of a tick
whose sample it is, or a completion of the frame in progress that carries it; three such words send the whole frame.
Elsewhere it changes nothing. That such a word performs an `SVC` or an `XDONE` is the model's reading (log 9); the steps
are those of 43_dac_framer.md R201. -/
def Obligations.DacFrameRow : Prop :=
  ∀ (d : Sample12) (s : State),
    (Inv s → s.gie = true → s.frState = .idle → s.smpp = true → s.tblValid = true → tickSample s = d →
      (∃ p, exec (.dacFrame d) s = .next { s with
        smpp := false, oscPhase := p, frSample := d, cs := true, frState := .byte1
        out := s.out ++ [.csAssert, .dacb (BitVec.ofNat 8 (0x30 + d.toNat / 256))] } ∧
        (s.oscActive = true → p = advance s.oscPhase s.oscInc) ∧ (s.oscActive = false → p = s.oscPhase)) ∧
      ∃ t, runOps [.dacFrame d, .dacFrame d, .dacFrame d] s = .next t ∧ runOps frameOps s = .next t ∧
        t.out = s.out ++ [.csAssert, .dacb (BitVec.ofNat 8 (0x30 + d.toNat / 256)),
          .dacb (BitVec.ofNat 8 (d.toNat % 256)), .csDeassert]) ∧
    (s.frState = .byte1 → s.frSample = d → exec (.dacFrame d) s = .next { s with
      frState := .byte2, out := s.out ++ [.dacb (BitVec.ofNat 8 (d.toNat % 256))] }) ∧
    (s.frState = .byte2 → s.frSample = d → exec (.dacFrame d) s = .next { s with
      frState := .idle, cs := false, out := s.out ++ [.csDeassert] }) ∧
    ((s.frState ≠ .idle ∧ s.frSample ≠ d) ∨
        (s.frState = .idle ∧ (s.gie = false ∨ s.smpp = false ∨ s.tblValid = false ∨ tickSample s ≠ d)) →
      exec (.dacFrame d) s = .next s)

/-- While a frame waits for its transport, no run of the other operations moves it, starts another, serves either
source or emits anything, and requests are held: a transport that never completes leaves the block stuck until `RST`.
Under the premise of transport progress the frame ends, and the framer is idle again and again, in every endless run
(43_dac_framer.md R206, 60_exceptions.md R259). -/
def Obligations.StuckTransport : Prop :=
  (∀ (ops : List Instr) (s t : State), s.frState ≠ .idle →
    holdsAlong (fun i u => i ≠ .rst ∧ performs i u ≠ some .xdone) ops s → runOps ops s = .next t →
    t.frState = s.frState ∧ t.frSample = s.frSample ∧ t.cs = s.cs ∧ t.out = s.out ∧ t.q = s.q ∧ t.widx = s.widx ∧
    t.rxState = s.rxState ∧ (s.rxp = true → t.rxp = true) ∧ (s.smpp = true → t.smpp = true)) ∧
  (∀ (sched : ℕ → Instr) (states : ℕ → State), (∀ n, exec (sched n) (states n) = .next (states (n + 1))) →
    TransportProgress sched states → ∀ n, ∃ m, n ≤ m ∧ (states m).frState = .idle)

/-- What each instruction emits, and nothing else: one frame start per sample service with the tick's sample, one echo
per RX service, the completions' events (43_dac_framer.md R208, 41_midi_rx.md R142, 00_scope.md R10). -/
def Obligations.OutputEvents : Prop :=
  ∀ (i : Instr) (s t : State), exec i s = .next t → t.out = s.out ++ emitted i s

/-! ### The host port -/

/-- `HRD` of every mapped address returns the register's value, zero-extended, and changes nothing else; of every
unmapped address it is refused. A slot field that nothing has written returns some byte (44_host_port.md R220, R222,
R225, R235, R232, R233; layouts 30_encoding.md R106). -/
def Obligations.HostReadRegisters : Prop :=
  ∀ s : State,
    exec (.hrd 0x00#8) s = .next { s with hostOut := s.hostOut ++ [BitVec.ofNat 24 s.widx.val] } ∧
    exec (.hrd 0x01#8) s = .next { s with hostOut := s.hostOut ++ [BitVec.ofNat 24 s.ridx.val] } ∧
    exec (.hrd 0x04#8) s = .next { s with hostOut := s.hostOut ++ [if s.gie then 1#24 else 0#24] } ∧
    exec (.hrd 0x05#8) s = .next { s with
      hostOut := s.hostOut ++ [(if s.smpp then 1#24 else 0#24) + (if s.rxp then 2#24 else 0#24)] } ∧
    exec (.hrd 0x08#8) s = .next { s with hostOut := s.hostOut ++ [if s.ten then 1#24 else 0#24] } ∧
    exec (.hrd 0x09#8) s = .next { s with hostOut := s.hostOut ++ [BitVec.ofNat 24 s.count.toNat] } ∧
    exec (.hrd 0x0A#8) s = .next { s with hostOut := s.hostOut ++ [BitVec.ofNat 24 s.cnt.toNat] } ∧
    exec (.hrd 0x10#8) s = .next { s with
      hostOut := s.hostOut ++ [BitVec.ofNat 24 (2 * s.oscWave.tag.toNat) + (if s.oscActive then 1#24 else 0#24)] } ∧
    exec (.hrd 0x11#8) s = .next { s with hostOut := s.hostOut ++ [s.oscPhase] } ∧
    exec (.hrd 0x12#8) s = .next { s with hostOut := s.hostOut ++ [s.oscInc] } ∧
    exec (.hrd 0x13#8) s = .next { s with hostOut := s.hostOut ++ [BitVec.ofNat 24 s.oscAmp.toNat] } ∧
    (∀ (i : Fin 10) (f : SlotField), ∃ v : Byte,
      exec (.hrd (BitVec.ofNat 8 (0x40 + 4 * i.val + f.number))) s =
        .next { s with hostOut := s.hostOut ++ [BitVec.ofNat 24 v.toNat] } ∧
      ∀ w, s.q.read (slotAddr i f) = some w → v = w) ∧
    (∀ k : Fin 108, exec (.hrd (BitVec.ofNat 8 (0x80 + k.val))) s =
      .next { s with hostOut := s.hostOut ++ [BitVec.ofNat 24 (noteTable.getD k.val 0)] }) ∧
    (∀ a, isUnmapped a = true → exec (.hrd a) s = .refused .hostUnmapped)

/-- `HWR` of every writable register writes its field from the low bits of the value, ignores the rest and changes
nothing else (44_host_port.md R223, R224, R226 to R231). -/
def Obligations.HostWriteRegisters : Prop :=
  ∀ (v : Word24) (s : State),
    (v.toNat % 16 < 10 → exec (.hwr 0x01#8 v) s = .next { s with ridx := Fin.ofNat 10 (v.toNat % 16) }) ∧
    exec (.hwr 0x04#8 v) s = .next { s with gie := v.getLsbD 0 } ∧
    exec (.hwr 0x08#8 v) s = .next { s with ten := v.getLsbD 0 } ∧
    exec (.hwr 0x09#8 v) s = .next { s with count := BitVec.ofNat 16 (v.toNat % 65536) } ∧
    (∀ w : Wave, v.toNat / 2 % 4 = w.tag.toNat →
      exec (.hwr 0x10#8 v) s = .next { s with oscActive := v.getLsbD 0, oscWave := w }) ∧
    (v.toNat < 0xA00000 → exec (.hwr 0x11#8 v) s = .next { s with oscPhase := v }) ∧
    (v.toNat < 0xA00000 → exec (.hwr 0x12#8 v) s = .next { s with oscInc := v }) ∧
    exec (.hwr 0x13#8 v) s = .next { s with oscAmp := BitVec.ofNat 8 (v.toNat % 256) }

/-- The three refusals of `HWR`: an unmapped address, a read-only register, an illegal value (44_host_port.md R221). -/
def Obligations.HostWriteRefusals : Prop :=
  ∀ (a : Byte) (v : Word24) (s : State),
    (isUnmapped a = true → exec (.hwr a v) s = .refused .hostUnmapped) ∧
    (isReadOnly a = true → exec (.hwr a v) s = .refused .hostReadOnly) ∧
    (isBadValue a v = true → exec (.hwr a v) s = .refused .hostBadValue) ∧
    (isUnmapped a = false → isReadOnly a = false → isBadValue a v = false → ∃ t, exec (.hwr a v) s = .next t)

/-- Each register row of the table, as a read, returns its register to the host and changes nothing else; a slot or
note row outside its range is refused. That a row is an access of its register is the model's reading (log 10); the
values are those of 44_host_port.md R222 to R235. -/
def Obligations.RegisterRowsRead : Prop :=
  ∀ s : State,
    exec (.qWidx .rd) s = .next { s with hostOut := s.hostOut ++ [BitVec.ofNat 24 s.widx.val] } ∧
    exec (.qRidx .rd) s = .next { s with hostOut := s.hostOut ++ [BitVec.ofNat 24 s.ridx.val] } ∧
    exec (.irqCtrl .rd) s = .next { s with hostOut := s.hostOut ++ [if s.gie then 1#24 else 0#24] } ∧
    exec (.irqPend .rd) s = .next { s with
      hostOut := s.hostOut ++ [(if s.smpp then 1#24 else 0#24) + (if s.rxp then 2#24 else 0#24)] } ∧
    exec (.tmrCtrl .rd) s = .next { s with hostOut := s.hostOut ++ [if s.ten then 1#24 else 0#24] } ∧
    exec (.tmrCount .rd) s = .next { s with hostOut := s.hostOut ++ [BitVec.ofNat 24 s.count.toNat] } ∧
    exec (.tmrCnt .rd) s = .next { s with hostOut := s.hostOut ++ [BitVec.ofNat 24 s.cnt.toNat] } ∧
    exec (.oscCtrl .rd) s = .next { s with
      hostOut := s.hostOut ++ [BitVec.ofNat 24 (2 * s.oscWave.tag.toNat) + (if s.oscActive then 1#24 else 0#24)] } ∧
    exec (.oscPhase .rd) s = .next { s with hostOut := s.hostOut ++ [s.oscPhase] } ∧
    exec (.oscInc .rd) s = .next { s with hostOut := s.hostOut ++ [s.oscInc] } ∧
    exec (.oscAmp .rd) s = .next { s with hostOut := s.hostOut ++ [BitVec.ofNat 24 s.oscAmp.toNat] } ∧
    (∀ (i : BitVec 4) (f : SlotField) (hi : i.toNat < 10), ∃ v : Byte,
      exec (.qSlot i (BitVec.ofNat 2 f.number) .rd) s =
        .next { s with hostOut := s.hostOut ++ [BitVec.ofNat 24 v.toNat] } ∧
      ∀ w, s.q.read (slotAddr ⟨i.toNat, hi⟩ f) = some w → v = w) ∧
    (∀ k : BitVec 7, k.toNat < 108 →
      exec (.nft k .rd) s =
        .next { s with hostOut := s.hostOut ++ [BitVec.ofNat 24 (noteTable.getD k.toNat 0)] }) ∧
    (∀ (i : BitVec 4) (f : BitVec 2) (acc : HostAccess), 10 ≤ i.toNat ∨ f = 3#2 →
      exec (.qSlot i f acc) s = .refused .hostUnmapped) ∧
    (∀ (k : BitVec 7) (acc : HostAccess), 108 ≤ k.toNat → exec (.nft k acc) s = .refused .hostUnmapped)

/-- Each register row of the table, as a write: the writable ones write their field and nothing else, the read-only
ones are refused, and so is an illegal value (the rows by log 10; the effects 44_host_port.md R221 to R233). -/
def Obligations.RegisterRowsWrite : Prop :=
  ∀ (v : Word24) (s : State),
    (v.toNat % 16 < 10 → exec (.qRidx (.wr v)) s = .next { s with ridx := Fin.ofNat 10 (v.toNat % 16) }) ∧
    exec (.irqCtrl (.wr v)) s = .next { s with gie := v.getLsbD 0 } ∧
    exec (.tmrCtrl (.wr v)) s = .next { s with ten := v.getLsbD 0 } ∧
    exec (.tmrCount (.wr v)) s = .next { s with count := BitVec.ofNat 16 (v.toNat % 65536) } ∧
    (∀ w : Wave, v.toNat / 2 % 4 = w.tag.toNat →
      exec (.oscCtrl (.wr v)) s = .next { s with oscActive := v.getLsbD 0, oscWave := w }) ∧
    (v.toNat < 0xA00000 → exec (.oscPhase (.wr v)) s = .next { s with oscPhase := v }) ∧
    (v.toNat < 0xA00000 → exec (.oscInc (.wr v)) s = .next { s with oscInc := v }) ∧
    exec (.oscAmp (.wr v)) s = .next { s with oscAmp := BitVec.ofNat 8 (v.toNat % 256) } ∧
    (10 ≤ v.toNat % 16 → exec (.qRidx (.wr v)) s = .refused .hostBadValue) ∧
    (0xA00000 ≤ v.toNat → exec (.oscPhase (.wr v)) s = .refused .hostBadValue ∧
      exec (.oscInc (.wr v)) s = .refused .hostBadValue) ∧
    exec (.qWidx (.wr v)) s = .refused .hostReadOnly ∧ exec (.irqPend (.wr v)) s = .refused .hostReadOnly ∧
    exec (.tmrCnt (.wr v)) s = .refused .hostReadOnly ∧
    (∀ i f, slotFieldMapped i f = true → exec (.qSlot i f (.wr v)) s = .refused .hostReadOnly) ∧
    (∀ k, noteMapped k = true → exec (.nft k (.wr v)) s = .refused .hostReadOnly)

/-- No read has a side effect: it changes nothing but the history of returned values, a second read returns the same
value, and a write made twice is a write made once (20_memory.md R66). -/
def Obligations.ReadsHaveNoSideEffect : Prop :=
  (∀ (i : Instr) (a : Byte) (s t : State), hostOperand i = some (a, .rd) → exec i s = .next t →
    ∃ v, t = { s with hostOut := s.hostOut ++ [v] } ∧ exec i t = .next { s with hostOut := s.hostOut ++ [v, v] }) ∧
  (∀ (i : Instr) (a : Byte) (v : Word24) (s t : State), hostOperand i = some (a, .wr v) → exec i s = .next t →
    exec i t = .next t)

/-- One writer per element: whatever the instruction, each state element changes only by its owner or by `RST`, the two
pending bits by the one that raises them and the one that clears them (the table of 20_memory.md R67). -/
def Obligations.Ownership : Prop :=
  ∀ (i : Instr) (s t : State), i ≠ .rst → exec i s = .next t →
    ((t.q ≠ s.q ∨ t.widx ≠ s.widx ∨ t.rxState ≠ s.rxState) → performs i s = some .svc ∧ rxDispatchable s = true) ∧
    (t.ridx ≠ s.ridx → hostWrites i = some .qRidx) ∧
    (t.rxdata ≠ s.rxdata → ∃ b, i = .rxb b) ∧
    (s.rxp = false → t.rxp = true → ∃ b, i = .rxb b) ∧
    (s.rxp = true → t.rxp = false → performs i s = some .svc ∧ rxDispatchable s = true) ∧
    (s.smpp = false → t.smpp = true → i = .clk) ∧
    (s.smpp = true → t.smpp = false → performs i s = some .svc) ∧
    (t.cnt ≠ s.cnt → i = .clk) ∧
    (t.frSample ≠ s.frSample → performs i s = some .svc ∧ s.smpp = true) ∧
    ((t.frState ≠ s.frState ∨ t.cs ≠ s.cs) →
      (performs i s = some .svc ∧ s.smpp = true) ∨ performs i s = some .xdone) ∧
    (t.oscPhase ≠ s.oscPhase → (performs i s = some .svc ∧ s.smpp = true) ∨ hostWrites i = some .oscPhase) ∧
    ((t.oscActive ≠ s.oscActive ∨ t.oscWave ≠ s.oscWave) → hostWrites i = some .oscCtrl) ∧
    (t.oscInc ≠ s.oscInc → hostWrites i = some .oscInc) ∧ (t.oscAmp ≠ s.oscAmp → hostWrites i = some .oscAmp) ∧
    (t.gie ≠ s.gie → hostWrites i = some .irqCtrl) ∧ (t.ten ≠ s.ten → hostWrites i = some .tmrCtrl) ∧
    (t.count ≠ s.count → hostWrites i = some .tmrCount) ∧
    ((t.wt ≠ s.wt ∨ t.tblValid ≠ s.tblValid) → i = .init) ∧
    (t.hostOut ≠ s.hostOut → ∃ a, hostOperand i = some (a, .rd))

/-- The consumer's pop: on an empty queue it reads the two indices and changes nothing; else it returns the oldest
event shown, field by field, and what is shown after it is the rest (44_host_port.md R236). -/
def Obligations.PopReturnsOldest : Prop :=
  ∀ s : State,
    (queueEmpty s = true → runOps (popOps s) s = .next { s with
      hostOut := s.hostOut ++ [BitVec.ofNat 24 s.widx.val, BitVec.ofNat 24 s.ridx.val] }) ∧
    (queueEmpty s = false → ∃ t, runOps (popOps s) s = .next t ∧
      t = { s with ridx := nextIndex s.ridx, hostOut := s.hostOut ++
        [BitVec.ofNat 24 s.widx.val, BitVec.ofNat 24 s.ridx.val, (readSlot s s.ridx .status).setWidth 24,
          (readSlot s s.ridx .data0).setWidth 24, (readSlot s s.ridx .data1).setWidth 24] } ∧
      shownEvents s =
        (readSlot s s.ridx .status ++ readSlot s s.ridx .data0 ++ readSlot s s.ridx .data1) :: shownEvents t)

/-- The host's note sequences: a Note On configures the oscillator with the note's increment, phase 0, the amplitude
and the shape, and leaves the mask open; a Note Off clears the active flag alone (44_host_port.md R237). -/
def Obligations.NoteSequences : Prop :=
  ∀ (k : Fin 108) (w : Wave) (amp : Byte) (s : State),
    runOps (noteOnOps k w amp) s = .next { s with
      hostOut := s.hostOut ++ [noteIncrement k], oscInc := noteIncrement k, oscPhase := 0#24, oscAmp := amp
      oscActive := true, oscWave := w, gie := true } ∧
    runOps (noteOffOps w) s = .next { s with oscActive := false, oscWave := w }

/-! ### Errors and refusals -/

/-- The complete list of refusals of `exec`: each reason only for its operation and under its condition
(60_exceptions.md R252). -/
def Obligations.RefusalsComplete : Prop :=
  ∀ (i : Instr) (s : State) (r : Refusal), exec i s = .refused r →
    (r = .rxOverrun ∧ s.rxp = true ∧ ∃ b, i = .rxb b) ∨
    (r = .tablesNotReady ∧ i = .svc ∧ svcEnabled s = true ∧ s.smpp = true ∧ s.tblValid = false) ∨
    (r = .hostUnmapped ∧ ∃ a acc, hostOperand i = some (a, acc) ∧ isUnmapped a = true) ∨
    (r = .hostReadOnly ∧ ∃ a v, hostOperand i = some (a, .wr v) ∧ isReadOnly a = true) ∨
    (r = .hostBadValue ∧ ∃ a v, hostOperand i = some (a, .wr v) ∧ isBadValue a v = true)

/-- The block raises no exception: from every state that meets the invariant, and so in every run from reset on any
input, no step faults (60_exceptions.md R250). -/
def Obligations.NoFault : Prop :=
  (∀ s : State, Inv s → ¬Faults s) ∧ (∀ s : State, Reachable s → ¬Faults s)

/-- A reserved trace tag, or a trace that ends inside an operand, is refused by name and nothing else happens
(30_encoding.md R111). -/
def Obligations.TraceReserved : Prop :=
  ∀ s : State,
    (∀ (tag : Byte) (bs : List Byte), 0x08 ≤ tag.toNat → step (place .trace (tag :: bs) s) = .refused .traceReserved) ∧
    step (place .trace [0x03#8] s) = .refused .traceReserved ∧
    step (place .trace [0x06#8] s) = .refused .traceReserved ∧
    (∀ bs : List Byte, bs.length < 4 → step (place .trace (0x07#8 :: bs) s) = .refused .traceReserved)

/-! ### Invariants -/

/-- The state after reset meets the invariants, whatever input is placed in it. That `State.reset` has no output before
it and that a program is placed in the input are the model's choices (logs 2, 1). -/
def Obligations.InvReset : Prop :=
  ∀ (f : Format) (bs : List Byte), Inv (place f bs State.reset) ∧ BusInv false (place f bs State.reset)

/-- Every step keeps the invariant: phase and increment below `PMOD`, chip-select exactly during a frame, the storage
in canonical form, status fields holding status bytes and data fields none, tables valid only when filled (10_state.md
R23, R24, R34, R39; 30_encoding.md R96; 41_midi_rx.md R145). -/
def Obligations.InvKept : Prop :=
  ∀ s t : State, Inv s → step s = .next t → Inv t

/-- The converter bus carries only whole frames: every step keeps the bus history a sequence of frames
`CS_ASSERT, DACB, DACB, CS_DEASSERT` with control nibble `0011`, cut short only by `RST`, followed by the frame in
progress (43_dac_framer.md R207). -/
def Obligations.BusFramesKept : Prop :=
  (∀ s t : State, BusInv true s → step s = .next t → BusInv true t) ∧
  (∀ (i : Instr) (s t : State), BusInv false s → i ≠ .rst → exec i s = .next t → BusInv false t) ∧
  (∀ s : State, BusInv false s → BusInv true s)

/-! ### Decoding and the step -/

/-- Decoding an encoded well-formed instruction gives it back, with the bytes after it: every operand at every value. -/
def Obligations.DecodeEncode : Prop :=
  ∀ (i : Instr) (rest : List Byte), i.wellFormed = true → decode i.format (encode i ++ rest) = .ok i rest

/-- What the decoder accepts is a well-formed instruction of that format, and encoding it gives the bytes back: no two
words decode to one instruction. -/
def Obligations.EncodeDecode : Prop :=
  ∀ (f : Format) (bs : List Byte) (i : Instr) (rest : List Byte), decode f bs = .ok i rest →
    i.wellFormed = true ∧ i.format = f ∧ encode i ++ rest = bs

/-- Every received byte is of exactly one class, by its high nibble (30_encoding.md R91). -/
def Obligations.RxByteClasses : Prop :=
  ∀ b : Byte,
    ((b &&& 0xF0#8 = 0x80#8 ↔ ∃ c, decode .rxByte [b] = .ok (.stOff c) []) ∧
     (b &&& 0xF0#8 = 0x90#8 ↔ ∃ c, decode .rxByte [b] = .ok (.stOn c) []) ∧
     (b &&& 0x80#8 = 0x00#8 ↔ ∃ d, decode .rxByte [b] = .ok (.other0 d) []) ∧
     (b &&& 0xE0#8 = 0xA0#8 ↔ ∃ d, decode .rxByte [b] = .ok (.other101 d) []) ∧
     (b &&& 0xC0#8 = 0xC0#8 ↔ ∃ d, decode .rxByte [b] = .ok (.other11 d) []))

/-- A few words written out from the spec's encodings decode to what they stand for (a sanity check). That an HREG
address is a word of a read, and with three data bytes of a write, is the model's choice (log 10). -/
def Obligations.SpecWords : Prop :=
  decode .trace [0x03#8, 0x90#8] = .ok (.rxb 0x90#8) [] ∧
  decode .trace [0x07#8, 0x12#8, 0x04#8, 0x66#8, 0x66#8] = .ok (.hwr 0x12#8 0x046666#24) [] ∧
  decode .rxByte [0b10010101#8] = .ok (.stOn 0b0101#4) [] ∧
  decode .dacFrame [0b00110111#8, 0b11010000#8] = .ok (.dacFrame 0x7D0#12) [] ∧
  decode .midiEvent [0x90#8, 0x3C#8, 0x7F#8] = .ok (.midiEvent 1#1 0#4 0x3C#8 0x7F#8) [] ∧
  decode .hregRead [0b01100110#8] = .ok (.qSlot 9#4 2#2 .rd) [] ∧
  decode .hregWrite [0x13#8, 0x00#8, 0x00#8, 0x10#8] = .ok (.oscAmp (.wr 16#24)) [] ∧
  decode .hregRead [0b10111001#8] = .ok (.nft 57#7 .rd) []

/-- A step runs the decoded instruction: on a word of the input's format it is `exec` of that instruction in the state
that has taken the word; on bytes that are none it is the refusal by name; with no input it stays. And every instruction
is one operation of the agents or changes nothing (00_scope.md R8). The model's choices: the input as data (log 1), the
step with no input (log 3), and the refusal of bytes that are no word of a format other than TRACE (log 11). -/
def Obligations.StepRunsDecoded : Prop :=
  (∀ (s : State) (i : Instr) (rest : List Byte), s.input ≠ [] → decode s.format s.input = .ok i rest →
    step s = exec i { s with input := rest }) ∧
  (∀ (s : State) (e : DecodeError), s.input ≠ [] → decode s.format s.input = .error e →
    step s = .refused (refusalOf e)) ∧
  (∀ s : State, s.input = [] → step s = .next s) ∧
  (∀ (i : Instr) (s : State),
    (performs i s = none → exec i s = .next s) ∧
    (∀ o, performs i s = some o → o.format = .trace ∧ exec i s = exec o s))

/-- A program runs as its operations do: as many steps of the machine as the program has operations, from any state
with its TRACE bytes placed as input, answer exactly what running the operations one after another answers
(00_scope.md R8, 30_encoding.md R111). That a program's bytes are placed as input is the model's choice (log 1). -/
def Obligations.ProgramRuns : Prop :=
  ∀ (ops : List Instr) (s : State), (∀ i ∈ ops, i.format = .trace) →
    Host.Core.run Sys2Proof.core ops.length (place .trace (encodeProgram ops) s) =
      runOps ops (place .trace [] s)

end
end

