-- ==== Sys2Proof/Laws/Decode.lean ====
section
/-! SUPPORT. The bit fields of the encodings put together again, and the two readings of an HREG address (the
decoder's and the host port's) agreeing. -/

namespace Sys2Proof

@[simp] theorem word24OfBytes_split (v : Word24) :
    word24OfBytes (v.extractLsb' 16 8) (v.extractLsb' 8 8) (v.extractLsb' 0 8) = v := by
  apply BitVec.eq_of_getLsbD_eq
  intro i hi
  simp only [word24OfBytes, BitVec.getLsbD_append, BitVec.getLsbD_extractLsb']
  by_cases h0 : i < 8
  · simp [h0]
  · by_cases h1 : i - 8 < 8
    · simp [h0, h1, show 8 + (i - 8) = i by omega]
    · simp [h0, h1, show 16 + (i - 8 - 8) = i by omega, show i - 8 - 8 < 8 by omega]

@[simp] theorem word24OfBytes_extract2 (x y z : Byte) : (word24OfBytes x y z).extractLsb' 16 8 = x := by
  apply BitVec.eq_of_getLsbD_eq
  intro i hi
  simp only [word24OfBytes, BitVec.getLsbD_extractLsb', BitVec.getLsbD_append]
  simp [hi, show ¬ 16 + i < 8 by omega, show ¬ 16 + i - 8 < 8 by omega, show 16 + i - 8 - 8 = i by omega]

@[simp] theorem word24OfBytes_extract1 (x y z : Byte) : (word24OfBytes x y z).extractLsb' 8 8 = y := by
  apply BitVec.eq_of_getLsbD_eq
  intro i hi
  simp only [word24OfBytes, BitVec.getLsbD_extractLsb', BitVec.getLsbD_append]
  simp [hi]

@[simp] theorem word24OfBytes_extract0 (x y z : Byte) : (word24OfBytes x y z).extractLsb' 0 8 = z := by
  apply BitVec.eq_of_getLsbD_eq
  intro i hi
  simp only [word24OfBytes, BitVec.getLsbD_extractLsb', BitVec.getLsbD_append]
  simp [hi]

/-- A byte is its two nibbles. -/
@[simp] theorem nibbles_join (b : Byte) : hiNibble b ++ loNibble b = b := by revert b; decide

@[simp] theorem hiNibble_append (h l : BitVec 4) : hiNibble (h ++ l) = h := by revert h l; decide

@[simp] theorem loNibble_append (h l : BitVec 4) : loNibble (h ++ l) = l := by revert h l; decide

/-- The status mask leaves exactly the high nibble (30_encoding.md R91, R114). -/
@[simp] theorem statusNibble_eq (b : Byte) : statusNibble b = hiNibble b := by revert b; decide

/-- Byte 1 of a frame is the control nibble and the sample's high nibble (30_encoding.md R100, R102). -/
theorem frameByte1_eq (d : Sample12) : Machine.frameByte1 d = Config.dacCtrl ++ d.extractLsb' 8 4 := by
  apply BitVec.eq_of_getLsbD_eq
  intro i hi
  simp only [Machine.frameByte1, Config.dacByte1Base, Config.dacCtrl, Config.sampleHighMask, BitVec.getLsbD_or,
    BitVec.getLsbD_append, BitVec.getLsbD_setWidth, BitVec.getLsbD_ushiftRight, BitVec.getLsbD_and,
    BitVec.getLsbD_extractLsb']
  interval_cases i <;> simp

/-- Byte 2 of a frame is the sample's low byte (30_encoding.md R100, R102). -/
theorem frameByte2_eq (d : Sample12) : Machine.frameByte2 d = d.extractLsb' 0 8 := by
  apply BitVec.eq_of_getLsbD_eq
  intro i hi
  interval_cases i <;> simp [Machine.frameByte2, Config.sampleLowMask]

/-- The decoder takes exactly the addresses that the host port maps (30_encoding.md R105). -/
theorem decodeHreg_isSome (a : Byte) : (decodeHreg a .rd).isSome = (Machine.regOfAddr a).isSome := by
  revert a; decide

/-- Within one format no word fits two rows of the opcode table (30_encoding.md R91, R113). -/
theorem tableRows_disjoint :
    tableRows.Pairwise fun r r' =>
      r.format = r'.format → r.width = r'.width → (r.pattern ^^^ r'.pattern) &&& (r.mask &&& r'.mask) ≠ 0 := by
  decide

end Sys2Proof
end

