-- ==== Sys2Proof/Laws/State.lean ====
section
/-! SUPPORT. For each named update of the state, what it leaves in every field; each true by definition. -/

namespace Sys2Proof.Machine

/-! ### emit -/

@[simp] theorem emit_oscActive (e : Event) (s : State) :
    (emit e s).oscActive = s.oscActive := rfl

@[simp] theorem emit_oscWave (e : Event) (s : State) :
    (emit e s).oscWave = s.oscWave := rfl

@[simp] theorem emit_oscPhase (e : Event) (s : State) :
    (emit e s).oscPhase = s.oscPhase := rfl

@[simp] theorem emit_oscInc (e : Event) (s : State) :
    (emit e s).oscInc = s.oscInc := rfl

@[simp] theorem emit_oscAmp (e : Event) (s : State) :
    (emit e s).oscAmp = s.oscAmp := rfl

@[simp] theorem emit_rxState (e : Event) (s : State) :
    (emit e s).rxState = s.rxState := rfl

@[simp] theorem emit_frState (e : Event) (s : State) :
    (emit e s).frState = s.frState := rfl

@[simp] theorem emit_rxp (e : Event) (s : State) :
    (emit e s).rxp = s.rxp := rfl

@[simp] theorem emit_smpp (e : Event) (s : State) :
    (emit e s).smpp = s.smpp := rfl

@[simp] theorem emit_gie (e : Event) (s : State) :
    (emit e s).gie = s.gie := rfl

@[simp] theorem emit_ten (e : Event) (s : State) :
    (emit e s).ten = s.ten := rfl

@[simp] theorem emit_tblValid (e : Event) (s : State) :
    (emit e s).tblValid = s.tblValid := rfl

@[simp] theorem emit_cs (e : Event) (s : State) :
    (emit e s).cs = s.cs := rfl

@[simp] theorem emit_count (e : Event) (s : State) :
    (emit e s).count = s.count := rfl

@[simp] theorem emit_cnt (e : Event) (s : State) :
    (emit e s).cnt = s.cnt := rfl

@[simp] theorem emit_q (e : Event) (s : State) :
    (emit e s).q = s.q := rfl

@[simp] theorem emit_widx (e : Event) (s : State) :
    (emit e s).widx = s.widx := rfl

@[simp] theorem emit_ridx (e : Event) (s : State) :
    (emit e s).ridx = s.ridx := rfl

@[simp] theorem emit_wt (e : Event) (s : State) :
    (emit e s).wt = s.wt := rfl

@[simp] theorem emit_rxdata (e : Event) (s : State) :
    (emit e s).rxdata = s.rxdata := rfl

@[simp] theorem emit_frSample (e : Event) (s : State) :
    (emit e s).frSample = s.frSample := rfl

@[simp] theorem emit_out (e : Event) (s : State) :
    (emit e s).out = s.out ++ [e] := rfl

@[simp] theorem emit_hostOut (e : Event) (s : State) :
    (emit e s).hostOut = s.hostOut := rfl

@[simp] theorem emit_epoch (e : Event) (s : State) :
    (emit e s).epoch = s.epoch := rfl

@[simp] theorem emit_format (e : Event) (s : State) :
    (emit e s).format = s.format := rfl

@[simp] theorem emit_input (e : Event) (s : State) :
    (emit e s).input = s.input := rfl

/-! ### returnToHost -/

@[simp] theorem returnToHost_oscActive (v : Word24) (s : State) :
    (returnToHost v s).oscActive = s.oscActive := rfl

@[simp] theorem returnToHost_oscWave (v : Word24) (s : State) :
    (returnToHost v s).oscWave = s.oscWave := rfl

@[simp] theorem returnToHost_oscPhase (v : Word24) (s : State) :
    (returnToHost v s).oscPhase = s.oscPhase := rfl

@[simp] theorem returnToHost_oscInc (v : Word24) (s : State) :
    (returnToHost v s).oscInc = s.oscInc := rfl

@[simp] theorem returnToHost_oscAmp (v : Word24) (s : State) :
    (returnToHost v s).oscAmp = s.oscAmp := rfl

@[simp] theorem returnToHost_rxState (v : Word24) (s : State) :
    (returnToHost v s).rxState = s.rxState := rfl

@[simp] theorem returnToHost_frState (v : Word24) (s : State) :
    (returnToHost v s).frState = s.frState := rfl

@[simp] theorem returnToHost_rxp (v : Word24) (s : State) :
    (returnToHost v s).rxp = s.rxp := rfl

@[simp] theorem returnToHost_smpp (v : Word24) (s : State) :
    (returnToHost v s).smpp = s.smpp := rfl

@[simp] theorem returnToHost_gie (v : Word24) (s : State) :
    (returnToHost v s).gie = s.gie := rfl

@[simp] theorem returnToHost_ten (v : Word24) (s : State) :
    (returnToHost v s).ten = s.ten := rfl

@[simp] theorem returnToHost_tblValid (v : Word24) (s : State) :
    (returnToHost v s).tblValid = s.tblValid := rfl

@[simp] theorem returnToHost_cs (v : Word24) (s : State) :
    (returnToHost v s).cs = s.cs := rfl

@[simp] theorem returnToHost_count (v : Word24) (s : State) :
    (returnToHost v s).count = s.count := rfl

@[simp] theorem returnToHost_cnt (v : Word24) (s : State) :
    (returnToHost v s).cnt = s.cnt := rfl

@[simp] theorem returnToHost_q (v : Word24) (s : State) :
    (returnToHost v s).q = s.q := rfl

@[simp] theorem returnToHost_widx (v : Word24) (s : State) :
    (returnToHost v s).widx = s.widx := rfl

@[simp] theorem returnToHost_ridx (v : Word24) (s : State) :
    (returnToHost v s).ridx = s.ridx := rfl

@[simp] theorem returnToHost_wt (v : Word24) (s : State) :
    (returnToHost v s).wt = s.wt := rfl

@[simp] theorem returnToHost_rxdata (v : Word24) (s : State) :
    (returnToHost v s).rxdata = s.rxdata := rfl

@[simp] theorem returnToHost_frSample (v : Word24) (s : State) :
    (returnToHost v s).frSample = s.frSample := rfl

@[simp] theorem returnToHost_out (v : Word24) (s : State) :
    (returnToHost v s).out = s.out := rfl

@[simp] theorem returnToHost_hostOut (v : Word24) (s : State) :
    (returnToHost v s).hostOut = s.hostOut ++ [v] := rfl

@[simp] theorem returnToHost_epoch (v : Word24) (s : State) :
    (returnToHost v s).epoch = s.epoch := rfl

@[simp] theorem returnToHost_format (v : Word24) (s : State) :
    (returnToHost v s).format = s.format := rfl

@[simp] theorem returnToHost_input (v : Word24) (s : State) :
    (returnToHost v s).input = s.input := rfl

/-! ### writeSlot -/

@[simp] theorem writeSlot_oscActive (i : Fin Config.cap) (f : SlotField) (b : Byte) (s : State) :
    (writeSlot i f b s).oscActive = s.oscActive := rfl

@[simp] theorem writeSlot_oscWave (i : Fin Config.cap) (f : SlotField) (b : Byte) (s : State) :
    (writeSlot i f b s).oscWave = s.oscWave := rfl

@[simp] theorem writeSlot_oscPhase (i : Fin Config.cap) (f : SlotField) (b : Byte) (s : State) :
    (writeSlot i f b s).oscPhase = s.oscPhase := rfl

@[simp] theorem writeSlot_oscInc (i : Fin Config.cap) (f : SlotField) (b : Byte) (s : State) :
    (writeSlot i f b s).oscInc = s.oscInc := rfl

@[simp] theorem writeSlot_oscAmp (i : Fin Config.cap) (f : SlotField) (b : Byte) (s : State) :
    (writeSlot i f b s).oscAmp = s.oscAmp := rfl

@[simp] theorem writeSlot_rxState (i : Fin Config.cap) (f : SlotField) (b : Byte) (s : State) :
    (writeSlot i f b s).rxState = s.rxState := rfl

@[simp] theorem writeSlot_frState (i : Fin Config.cap) (f : SlotField) (b : Byte) (s : State) :
    (writeSlot i f b s).frState = s.frState := rfl

@[simp] theorem writeSlot_rxp (i : Fin Config.cap) (f : SlotField) (b : Byte) (s : State) :
    (writeSlot i f b s).rxp = s.rxp := rfl

@[simp] theorem writeSlot_smpp (i : Fin Config.cap) (f : SlotField) (b : Byte) (s : State) :
    (writeSlot i f b s).smpp = s.smpp := rfl

@[simp] theorem writeSlot_gie (i : Fin Config.cap) (f : SlotField) (b : Byte) (s : State) :
    (writeSlot i f b s).gie = s.gie := rfl

@[simp] theorem writeSlot_ten (i : Fin Config.cap) (f : SlotField) (b : Byte) (s : State) :
    (writeSlot i f b s).ten = s.ten := rfl

@[simp] theorem writeSlot_tblValid (i : Fin Config.cap) (f : SlotField) (b : Byte) (s : State) :
    (writeSlot i f b s).tblValid = s.tblValid := rfl

@[simp] theorem writeSlot_cs (i : Fin Config.cap) (f : SlotField) (b : Byte) (s : State) :
    (writeSlot i f b s).cs = s.cs := rfl

@[simp] theorem writeSlot_count (i : Fin Config.cap) (f : SlotField) (b : Byte) (s : State) :
    (writeSlot i f b s).count = s.count := rfl

@[simp] theorem writeSlot_cnt (i : Fin Config.cap) (f : SlotField) (b : Byte) (s : State) :
    (writeSlot i f b s).cnt = s.cnt := rfl

@[simp] theorem writeSlot_q (i : Fin Config.cap) (f : SlotField) (b : Byte) (s : State) :
    (writeSlot i f b s).q = s.q.write (slotAddr i f) b := rfl

@[simp] theorem writeSlot_widx (i : Fin Config.cap) (f : SlotField) (b : Byte) (s : State) :
    (writeSlot i f b s).widx = s.widx := rfl

@[simp] theorem writeSlot_ridx (i : Fin Config.cap) (f : SlotField) (b : Byte) (s : State) :
    (writeSlot i f b s).ridx = s.ridx := rfl

@[simp] theorem writeSlot_wt (i : Fin Config.cap) (f : SlotField) (b : Byte) (s : State) :
    (writeSlot i f b s).wt = s.wt := rfl

@[simp] theorem writeSlot_rxdata (i : Fin Config.cap) (f : SlotField) (b : Byte) (s : State) :
    (writeSlot i f b s).rxdata = s.rxdata := rfl

@[simp] theorem writeSlot_frSample (i : Fin Config.cap) (f : SlotField) (b : Byte) (s : State) :
    (writeSlot i f b s).frSample = s.frSample := rfl

@[simp] theorem writeSlot_out (i : Fin Config.cap) (f : SlotField) (b : Byte) (s : State) :
    (writeSlot i f b s).out = s.out := rfl

@[simp] theorem writeSlot_hostOut (i : Fin Config.cap) (f : SlotField) (b : Byte) (s : State) :
    (writeSlot i f b s).hostOut = s.hostOut := rfl

@[simp] theorem writeSlot_epoch (i : Fin Config.cap) (f : SlotField) (b : Byte) (s : State) :
    (writeSlot i f b s).epoch = s.epoch := rfl

@[simp] theorem writeSlot_format (i : Fin Config.cap) (f : SlotField) (b : Byte) (s : State) :
    (writeSlot i f b s).format = s.format := rfl

@[simp] theorem writeSlot_input (i : Fin Config.cap) (f : SlotField) (b : Byte) (s : State) :
    (writeSlot i f b s).input = s.input := rfl

/-! ### place -/

@[simp] theorem place_oscActive (f : Format) (bs : List Byte) (s : State) :
    (place f bs s).oscActive = s.oscActive := rfl

@[simp] theorem place_oscWave (f : Format) (bs : List Byte) (s : State) :
    (place f bs s).oscWave = s.oscWave := rfl

@[simp] theorem place_oscPhase (f : Format) (bs : List Byte) (s : State) :
    (place f bs s).oscPhase = s.oscPhase := rfl

@[simp] theorem place_oscInc (f : Format) (bs : List Byte) (s : State) :
    (place f bs s).oscInc = s.oscInc := rfl

@[simp] theorem place_oscAmp (f : Format) (bs : List Byte) (s : State) :
    (place f bs s).oscAmp = s.oscAmp := rfl

@[simp] theorem place_rxState (f : Format) (bs : List Byte) (s : State) :
    (place f bs s).rxState = s.rxState := rfl

@[simp] theorem place_frState (f : Format) (bs : List Byte) (s : State) :
    (place f bs s).frState = s.frState := rfl

@[simp] theorem place_rxp (f : Format) (bs : List Byte) (s : State) :
    (place f bs s).rxp = s.rxp := rfl

@[simp] theorem place_smpp (f : Format) (bs : List Byte) (s : State) :
    (place f bs s).smpp = s.smpp := rfl

@[simp] theorem place_gie (f : Format) (bs : List Byte) (s : State) :
    (place f bs s).gie = s.gie := rfl

@[simp] theorem place_ten (f : Format) (bs : List Byte) (s : State) :
    (place f bs s).ten = s.ten := rfl

@[simp] theorem place_tblValid (f : Format) (bs : List Byte) (s : State) :
    (place f bs s).tblValid = s.tblValid := rfl

@[simp] theorem place_cs (f : Format) (bs : List Byte) (s : State) :
    (place f bs s).cs = s.cs := rfl

@[simp] theorem place_count (f : Format) (bs : List Byte) (s : State) :
    (place f bs s).count = s.count := rfl

@[simp] theorem place_cnt (f : Format) (bs : List Byte) (s : State) :
    (place f bs s).cnt = s.cnt := rfl

@[simp] theorem place_q (f : Format) (bs : List Byte) (s : State) :
    (place f bs s).q = s.q := rfl

@[simp] theorem place_widx (f : Format) (bs : List Byte) (s : State) :
    (place f bs s).widx = s.widx := rfl

@[simp] theorem place_ridx (f : Format) (bs : List Byte) (s : State) :
    (place f bs s).ridx = s.ridx := rfl

@[simp] theorem place_wt (f : Format) (bs : List Byte) (s : State) :
    (place f bs s).wt = s.wt := rfl

@[simp] theorem place_rxdata (f : Format) (bs : List Byte) (s : State) :
    (place f bs s).rxdata = s.rxdata := rfl

@[simp] theorem place_frSample (f : Format) (bs : List Byte) (s : State) :
    (place f bs s).frSample = s.frSample := rfl

@[simp] theorem place_out (f : Format) (bs : List Byte) (s : State) :
    (place f bs s).out = s.out := rfl

@[simp] theorem place_hostOut (f : Format) (bs : List Byte) (s : State) :
    (place f bs s).hostOut = s.hostOut := rfl

@[simp] theorem place_epoch (f : Format) (bs : List Byte) (s : State) :
    (place f bs s).epoch = s.epoch := rfl

@[simp] theorem place_format (f : Format) (bs : List Byte) (s : State) :
    (place f bs s).format = f := rfl

@[simp] theorem place_input (f : Format) (bs : List Byte) (s : State) :
    (place f bs s).input = bs := rfl

end Sys2Proof.Machine
end

