-- ==== Sys2Proof/Laws/Framer.lean ====
section
/-! SUPPORT. The framer: its three steps by the framer's state, and a whole frame. -/

namespace Sys2Proof.Machine

theorem frameInProgress_false_iff (s : State) : frameInProgress s = false ↔ s.frState = .idle := by
  simp [frameInProgress]

theorem frameInProgress_true_iff (s : State) : frameInProgress s = true ↔ s.frState ≠ .idle := by
  simp [frameInProgress]

/-- Frame start, field by field (42_synth.md R178). -/
theorem frameStart_eq (d : Sample12) (s : State) :
    frameStart d s = { s with out := s.out ++ [.csAssert, .dacb (frameByte1 d)], frSample := d, cs := true,
                              frState := .byte1 } := by
  simp [frameStart, emit]

theorem completion_idle (s : State) (h : s.frState = .idle) : completion s = s := by simp [completion, h]

/-- The first completion (43_dac_framer.md R204). -/
theorem completion_byte1 (s : State) (h : s.frState = .byte1) :
    completion s = { s with out := s.out ++ [.dacb (frameByte2 s.frSample)], frState := .byte2 } := by
  simp [completion, h, firstCompletion, emit]

/-- The second completion (43_dac_framer.md R205). -/
theorem completion_byte2 (s : State) (h : s.frState = .byte2) :
    completion s = { s with out := s.out ++ [.csDeassert], cs := false, frState := .idle } := by
  simp [completion, h, secondCompletion, emit]

/-- A frame start and two completions send a whole frame and leave the framer idle (43_dac_framer.md R201). -/
theorem wholeFrame_eq (d : Sample12) (s : State) :
    completion (completion (frameStart d s)) =
      { s with out := s.out ++ frameEvents d, frSample := d, cs := false, frState := .idle } := by
  simp [frameStart, completion, firstCompletion, secondCompletion, emit, frameEvents]

end Sys2Proof.Machine
end

