-- ==== Sys2Proof/Laws/HostPort.lean ====
section
/-! SUPPORT. The host port: the register each address selects, and what an access can do. -/

namespace Sys2Proof.Machine

@[simp] theorem hostEnabled_true (s : State) : hostEnabled s = true := rfl

@[simp] theorem regOfAddr_qWidx : regOfAddr 0x00#8 = some .qWidx := rfl
@[simp] theorem regOfAddr_qRidx : regOfAddr 0x01#8 = some .qRidx := rfl
@[simp] theorem regOfAddr_irqCtrl : regOfAddr 0x04#8 = some .irqCtrl := rfl
@[simp] theorem regOfAddr_irqPend : regOfAddr 0x05#8 = some .irqPend := rfl
@[simp] theorem regOfAddr_tmrCtrl : regOfAddr 0x08#8 = some .tmrCtrl := rfl
@[simp] theorem regOfAddr_tmrCount : regOfAddr 0x09#8 = some .tmrCount := rfl
@[simp] theorem regOfAddr_tmrCnt : regOfAddr 0x0A#8 = some .tmrCnt := rfl
@[simp] theorem regOfAddr_oscCtrl : regOfAddr 0x10#8 = some .oscCtrl := rfl
@[simp] theorem regOfAddr_oscPhase : regOfAddr 0x11#8 = some .oscPhase := rfl
@[simp] theorem regOfAddr_oscInc : regOfAddr 0x12#8 = some .oscInc := rfl
@[simp] theorem regOfAddr_oscAmp : regOfAddr 0x13#8 = some .oscAmp := rfl

/-- The address of a slot field selects it where both parts are in range, and nothing else (44_host_port.md R232, R234). -/
theorem regOfAddr_slotHostAddr (i : BitVec 4) (f : BitVec 2) : regOfAddr (slotHostAddr i f) = slotRegOf i f := by
  revert i f; decide

/-- The address of a note-table entry selects it where it is in range, and nothing else (44_host_port.md R233, R234). -/
theorem regOfAddr_noteHostAddr (k : BitVec 7) : regOfAddr (noteHostAddr k) = noteRegOf k := by
  revert k; decide

/-- The address a pop reads slot field `(i, f)` at selects it. -/
@[simp] theorem regOfAddr_slotFieldHostAddr (i : Fin Config.cap) (f : SlotField) :
    regOfAddr (slotFieldHostAddr i f) = some (.qSlot i f) := by
  cases f <;> revert i <;> decide

/-- An access of a mapped register (44_host_port.md R220, R221). -/
theorem hostAccess_mapped (a : Byte) (r : HReg) (acc : HostAccess) (s : State) (h : regOfAddr a = some r) :
    hostAccess a acc s =
      match acc with
      | .rd => .next (returnToHost (readReg r s) s)
      | .wr v => writeReg r v s := by
  cases acc <;> simp [hostAccess, h]

/-- An access of an unmapped address is refused (44_host_port.md R234). -/
theorem hostAccess_unmapped (a : Byte) (acc : HostAccess) (s : State) (h : regOfAddr a = none) :
    hostAccess a acc s = .refused .hostUnmapped := by
  simp [hostAccess, h]

/-- A host access that answers a next state read a register or wrote one. -/
theorem hostAccess_next (a : Byte) (acc : HostAccess) (s t : State) (h : hostAccess a acc s = .next t) :
    ∃ r, regOfAddr a = some r ∧
      ((acc = .rd ∧ t = returnToHost (readReg r s) s) ∨ ∃ v, acc = .wr v ∧ writeReg r v s = .next t) := by
  cases hr : regOfAddr a with
  | none => simp [hostAccess_unmapped a acc s hr] at h
  | some r =>
    refine ⟨r, rfl, ?_⟩
    rw [hostAccess_mapped a r acc s hr] at h
    cases acc with
    | rd => exact .inl ⟨rfl, by simpa using h.symm⟩
    | wr v => exact .inr ⟨v, rfl, h⟩

/-- A register write that answers a next state, register by register (44_host_port.md R223, R224, R226 to R231). -/
theorem writeReg_next (r : HReg) (v : Word24) (s t : State) (h : writeReg r v s = .next t) :
    (r = .qRidx ∧ ∃ hv : (v.extractLsb' 0 4).toNat < Config.cap,
        t = { s with ridx := ⟨(v.extractLsb' 0 4).toNat, hv⟩ }) ∨
    (r = .irqCtrl ∧ t = { s with gie := v.getLsbD 0 }) ∨
    (r = .tmrCtrl ∧ t = { s with ten := v.getLsbD 0 }) ∨
    (r = .tmrCount ∧ t = { s with count := v.extractLsb' 0 16 }) ∨
    (r = .oscCtrl ∧ t = { s with oscActive := v.getLsbD 0, oscWave := Wave.ofTag (v.extractLsb' 1 2) }) ∨
    (r = .oscPhase ∧ v.toNat < Config.pmod ∧ t = { s with oscPhase := v }) ∨
    (r = .oscInc ∧ v.toNat < Config.pmod ∧ t = { s with oscInc := v }) ∨
    (r = .oscAmp ∧ t = { s with oscAmp := v.extractLsb' 0 8 }) := by
  cases r <;> simp only [writeReg, reduceCtorEq, false_and, false_or, or_false, true_and] at h ⊢
  all_goals first
    | exact (Host.Outcome.next.inj h).symm
    | skip
  · unfold writeRidx at h
    split at h
    · exact ⟨‹_›, (Host.Outcome.next.inj h).symm⟩
    · cases h
  · unfold writePhase at h
    split at h
    · exact ⟨‹_›, (Host.Outcome.next.inj h).symm⟩
    · cases h
  · unfold writeInc at h
    split at h
    · exact ⟨‹_›, (Host.Outcome.next.inj h).symm⟩
    · cases h

end Sys2Proof.Machine
end

