-- ==== Sys2Proof/Laws/Memory.lean ====
section
/-! SUPPORT. The laws of the storage spaces: read after write, the canonical form, the slot fields' addresses, and
what `INIT` leaves in the wavetable store. -/

namespace Sys2Proof.Machine

/-! ### Read after write -/

@[simp] theorem Memory.read_write_same (m : Memory) (a : Nat) (b : Byte) : (m.write a b).read a = some b := by
  induction m with
  | nil => simp [Memory.write, Memory.read]
  | cons c rest ih =>
    unfold Memory.write
    split
    · simp [Memory.read]
    · split
      · simp [Memory.read]
      · have : c.1 ≠ a := by omega
        simp [Memory.read, this, ih]

theorem Memory.read_write_other (m : Memory) (a a' : Nat) (b : Byte) (h : a' ≠ a) :
    (m.write a b).read a' = m.read a' := by
  induction m with
  | nil => simp [Memory.write, Memory.read, h.symm]
  | cons c rest ih =>
    unfold Memory.write
    split
    · simp [Memory.read, h.symm]
    · split
      · have : c.1 ≠ a' := by omega
        simp [Memory.read, this, h.symm]
      · simp [Memory.read, ih]

/-! ### The canonical form -/

/-- A cell may stand before a list in canonical form when its address is below every address there. -/
theorem Memory.wf_cons (c : Host.Cell) (m : Memory) :
    Memory.wf (c :: m) = true ↔ (∀ d ∈ m, c.1 < d.1) ∧ m.wf = true := by
  induction m generalizing c with
  | nil => simp [Memory.wf]
  | cons d rest ih =>
    simp only [Memory.wf, Bool.and_eq_true, decide_eq_true_eq, ih, List.mem_cons, forall_eq_or_imp]
    constructor
    · rintro ⟨h, hd, hw⟩
      exact ⟨⟨h, fun e he => Nat.lt_trans h (hd e he)⟩, hd, hw⟩
    · rintro ⟨⟨h, _⟩, hd, hw⟩
      exact ⟨h, hd, hw⟩

/-- The addresses after a write: the old ones and the one written. -/
theorem Memory.mem_write (m : Memory) (a : Nat) (b : Byte) (c : Host.Cell) (h : c ∈ m.write a b) :
    c.1 = a ∨ c ∈ m := by
  induction m with
  | nil => simp only [Memory.write, List.mem_singleton] at h; exact .inl (by rw [h])
  | cons d rest ih =>
    unfold Memory.write at h
    split at h
    · rcases List.mem_cons.mp h with rfl | h
      · exact .inl rfl
      · exact .inr h
    · split at h
      · rcases List.mem_cons.mp h with rfl | h
        · exact .inl rfl
        · exact .inr (List.mem_cons_of_mem _ h)
      · rcases List.mem_cons.mp h with rfl | h
        · exact .inr List.mem_cons_self
        · exact (ih h).imp_right (List.mem_cons_of_mem _)

/-- A write keeps the canonical form. -/
theorem Memory.wf_write (m : Memory) (a : Nat) (b : Byte) (h : m.wf = true) : (m.write a b).wf = true := by
  induction m with
  | nil => rfl
  | cons c rest ih =>
    obtain ⟨hc, hr⟩ := (Memory.wf_cons c rest).mp h
    unfold Memory.write
    split
    · rename_i hlt
      exact (Memory.wf_cons _ _).mpr
        ⟨by rintro d (_ | ⟨_, hd⟩) <;> first | exact hlt | exact Nat.lt_trans hlt (hc _ hd), h⟩
    · split
      · rename_i heq
        exact (Memory.wf_cons _ _).mpr ⟨fun d hd => by simpa [heq] using hc d hd, hr⟩
      · refine (Memory.wf_cons _ _).mpr ⟨fun d hd => ?_, ih hr⟩
        rcases Memory.mem_write rest a b d hd with h' | h'
        · omega
        · exact hc d h'

/-! ### The slot fields -/

/-- Different slot fields have different addresses. -/
theorem slotAddr_inj (i j : Fin Config.cap) (f g : SlotField) : slotAddr i f = slotAddr j g ↔ i = j ∧ f = g := by
  constructor
  · intro h
    unfold slotAddr at h
    cases f <;> cases g <;> simp only [SlotField.number] at h <;>
      first
        | exact ⟨Fin.ext (by omega), rfl⟩
        | (exfalso; omega)
  · rintro ⟨rfl, rfl⟩; rfl

@[simp] theorem readSlot_writeSlot_same (s : State) (i : Fin Config.cap) (f : SlotField) (b : Byte) :
    readSlot (writeSlot i f b s) i f = b := by
  simp [readSlot]

/-- A write of one slot field leaves every other as it was. -/
theorem readSlot_writeSlot_other (s : State) (i j : Fin Config.cap) (f g : SlotField) (b : Byte)
    (h : ¬(j = i ∧ g = f)) : readSlot (writeSlot i f b s) j g = readSlot s j g := by
  have hne : slotAddr j g ≠ slotAddr i f := fun e => h ((slotAddr_inj j i g f).mp e)
  simp [readSlot, Memory.read_write_other _ _ _ _ hne]

/-- What a slot field reads as depends on the queue storage and the reset epoch alone. -/
theorem readSlot_congr (s t : State) (i : Fin Config.cap) (f : SlotField) (hq : t.q = s.q) (he : t.epoch = s.epoch) :
    readSlot t i f = readSlot s i f := by
  simp [readSlot, hq, he]

/-! ### The filled wavetable store -/

/-- Reading a store whose addresses are a range mapped by a function. -/
theorem Memory.read_map_range' (g : Nat → Byte) (a n x : Nat) :
    Memory.read ((List.range' a n).map fun k => (k, g k)) x = if a ≤ x ∧ x < a + n then some (g x) else none := by
  induction n generalizing a with
  | zero => simp [Memory.read]
  | succ n ih =>
    simp only [List.range'_succ, List.map_cons, Memory.read, ih]
    by_cases h : a = x
    · subst h; simp
    · simp only [h, if_false]
      congr 1
      simp only [eq_iff_iff]
      omega

/-- Every address of the filled store holds its sample. -/
theorem filledTables_read (x : Nat) (h : x < tableBytesTotal) : filledTables.read x = some (filledByte x) := by
  simp [filledTables, List.range_eq_range', Memory.read_map_range', h]

/-- A store whose addresses are a range is in canonical form. -/
theorem Memory.wf_map_range' (g : Nat → Byte) (a n : Nat) :
    Memory.wf ((List.range' a n).map fun k => (k, g k)) = true := by
  induction n generalizing a with
  | zero => rfl
  | succ n ih =>
    simp only [List.range'_succ, List.map_cons]
    refine (Memory.wf_cons _ _).mpr ⟨fun d hd => ?_, ih _⟩
    obtain ⟨k, hk, rfl⟩ := List.mem_map.mp hd
    simp only [List.mem_range'_1] at hk
    exact hk.1

@[simp] theorem filledTables_length : filledTables.length = tableBytesTotal := by
  simp [filledTables]

/-- The filled store lists no address above its bytes. -/
theorem filledTables_read_none (x : Nat) (h : tableBytesTotal ≤ x) : filledTables.read x = none := by
  simp [filledTables, List.range_eq_range', Memory.read_map_range', Nat.not_lt.mpr h]

theorem filledTables_wf : filledTables.wf = true := by
  simp [filledTables, List.range_eq_range', Memory.wf_map_range']

@[simp] theorem Wave.ofTag_tag (w : Wave) : Wave.ofTag w.tag = w := by cases w <;> rfl

@[simp] theorem Wave.tag_ofTag (t : BitVec 2) : (Wave.ofTag t).tag = t := by revert t; decide

/-- `WT[w][i]` after `INIT` is sample `i` of waveform `w` (40_tablegen.md R120). -/
theorem filledByte_tableAddr (w : Wave) (i : Nat) (h : i < Config.tableLength) :
    filledByte (tableAddr w i) = waveSample w i := by
  have hd : tableAddr w i / Config.tableLength = w.tag.toNat := by
    unfold tableAddr; simp only [Config.tableLength] at *; omega
  have hm : tableAddr w i % Config.tableLength = i := by
    unfold tableAddr; simp only [Config.tableLength] at *; omega
  simp [filledByte, hd, hm]

theorem tableAddr_lt (w : Wave) (i : Nat) (h : i < Config.tableLength) : tableAddr w i < tableBytesTotal := by
  have : w.tag.toNat < 4 := w.tag.isLt
  unfold tableAddr tableBytesTotal
  simp only [Config.tableLength, Config.waves] at *
  omega

/-- Reading a table entry of a store that `INIT` has filled. -/
theorem readTable_filled (s : State) (w : Wave) (i : Nat) (hs : s.wt = filledTables) (h : i < Config.tableLength) :
    readTable s w i = waveSample w i := by
  simp [readTable, hs, filledTables_read _ (tableAddr_lt w i h), filledByte_tableAddr w i h]

end Sys2Proof.Machine
end

