-- ==== Sys2Proof/Laws/Receive.lean ====
section
/-! SUPPORT. What serving a received byte does: the parser's cases, the addresses stored to, and what stays. -/

namespace Sys2Proof.Machine

/-- A status byte (41_midi_rx.md R143). -/
theorem serveByte_status (b : Byte) (s : State) (h : isStatusByte b = true) :
    serveByte b s =
      { s with rxp := false, out := s.out ++ [.txb b], q := s.q.write (slotAddr s.widx .status) b,
               rxState := .awaitingByte1 } := by
  simp [serveByte, parse, h, writeSlot, emit]

/-- Any other byte with no event in progress (41_midi_rx.md R147). -/
theorem serveByte_idle (b : Byte) (s : State) (h : isStatusByte b = false) (hs : s.rxState = .idle) :
    serveByte b s = { s with rxp := false, out := s.out ++ [.txb b] } := by
  simp [serveByte, parse, h, emit, hs]

/-- Any other byte as the first data byte (41_midi_rx.md R144). -/
theorem serveByte_data0 (b : Byte) (s : State) (h : isStatusByte b = false) (hs : s.rxState = .awaitingByte1) :
    serveByte b s =
      { s with rxp := false, out := s.out ++ [.txb b], q := s.q.write (slotAddr s.widx .data0) b,
               rxState := .awaitingByte2 } := by
  simp [serveByte, parse, h, writeSlot, emit, hs]

/-- Any other byte as the second data byte: the event completes (41_midi_rx.md R146). -/
theorem serveByte_data1 (b : Byte) (s : State) (h : isStatusByte b = false) (hs : s.rxState = .awaitingByte2) :
    serveByte b s =
      { s with
        rxp := false, out := s.out ++ [.txb b]
        q := (s.q.write (slotAddr s.widx .data1) b).write (slotAddr (nextIndex s.widx) .status)
          (readSlot s s.widx .status)
        widx := nextIndex s.widx, rxState := .awaitingByte1 } := by
  have hne : slotAddr s.widx .status ≠ slotAddr s.widx .data1 := fun e => by
    have := (slotAddr_inj _ _ _ _).mp e; simp at this
  simp [serveByte, parse, h, writeSlot, emit, hs, completeEvent, readSlot, Memory.read_write_other _ _ _ _ hne]

/-- Serving a byte changes the pending bit, the history, the queue storage, the write index and the parser's state,
and nothing else. -/
theorem serveByte_frame (b : Byte) (s : State) :
    serveByte b s =
      { s with rxp := false, out := s.out ++ [.txb b], q := (serveByte b s).q, widx := (serveByte b s).widx,
               rxState := (serveByte b s).rxState } := by
  cases h : isStatusByte b
  · cases hs : s.rxState
    · simp [serveByte_idle b s h hs]
    · simp [serveByte_data0 b s h hs]
    · simp [serveByte_data1 b s h hs]
  · simp [serveByte_status b s h]

/-- Serving a byte depends on the parser's state, the write index and the queue storage alone. -/
theorem serveByte_congr (b : Byte) (s t : State) (h1 : t.rxState = s.rxState) (h2 : t.widx = s.widx) (h3 : t.q = s.q)
    (h4 : t.epoch = s.epoch) :
    serveByte b t =
      { t with rxp := false, out := t.out ++ [.txb b], q := (serveByte b s).q, widx := (serveByte b s).widx,
               rxState := (serveByte b s).rxState } := by
  cases h : isStatusByte b
  · cases hs : s.rxState
    · rw [serveByte_idle b t h (h1.trans hs), serveByte_idle b s h hs, ← h1, ← h2, ← h3]
    · rw [serveByte_data0 b t h (h1.trans hs), serveByte_data0 b s h hs, ← h2, ← h3]
    · rw [serveByte_data1 b t h (h1.trans hs), serveByte_data1 b s h hs, ← h2, ← h3, readSlot_congr s t _ _ h3 h4]
  · rw [serveByte_status b t h, serveByte_status b s h, ← h2, ← h3]

/-- Every queue address that serving a byte does not store to reads as before. -/
theorem serveByte_read (b : Byte) (s : State) (a : Nat) (ha : a ∉ servedStores b s) :
    (serveByte b s).q.read a = s.q.read a := by
  cases h : isStatusByte b
  · cases hs : s.rxState <;> simp [servedStores, h, hs] at ha
    · simp [serveByte_idle b s h hs]
    · simp [serveByte_data0 b s h hs, Memory.read_write_other _ _ _ _ ha]
    · simp [serveByte_data1 b s h hs, Memory.read_write_other _ _ _ _ ha.1, Memory.read_write_other _ _ _ _ ha.2]
  · simp [servedStores, h] at ha
    simp [serveByte_status b s h, Memory.read_write_other _ _ _ _ ha]

@[simp] theorem isStatusByte_stOff (c : BitVec 4) : isStatusByte (stOffByte c) = true := by revert c; decide
@[simp] theorem isStatusByte_stOn (c : BitVec 4) : isStatusByte (stOnByte c) = true := by revert c; decide
@[simp] theorem isStatusByte_other0 (d : BitVec 7) : isStatusByte (other0Byte d) = false := by revert d; decide
@[simp] theorem isStatusByte_other101 (d : BitVec 5) : isStatusByte (other101Byte d) = false := by revert d; decide
@[simp] theorem isStatusByte_other11 (d : BitVec 6) : isStatusByte (other11Byte d) = false := by revert d; decide
@[simp] theorem isStatusByte_eventStatus (t : BitVec 1) (c : BitVec 4) : isStatusByte (eventStatus t c) = true := by
  revert t c; decide

end Sys2Proof.Machine
end

