-- ==== Sys2Proof/Laws/Synth.lean ====
section
/-! SUPPORT. The exact values of the sample service's arithmetic, and the service's outcomes. -/

namespace Sys2Proof.Machine

/-- The advance of operands in range, exactly (42_synth.md R173). -/
theorem advance_toNat (p i : Phase) (hp : p.toNat < Config.pmod) (hi : i.toNat < Config.pmod) :
    (advance p i).toNat =
      if Config.pmod ≤ p.toNat + i.toNat then p.toNat + i.toNat - Config.pmod else p.toNat + i.toNat := by
  unfold advance
  simp only [Config.pmod, Config.tableLength, Config.fracScale, BitVec.toNat_ofNat] at *
  apply Nat.mod_eq_of_lt
  split <;> omega

/-- The advance is addition modulo `PMOD`. -/
theorem advance_toNat_mod (p i : Phase) (hp : p.toNat < Config.pmod) (hi : i.toNat < Config.pmod) :
    (advance p i).toNat = (p.toNat + i.toNat) % Config.pmod := by
  rw [advance_toNat p i hp hi]
  simp only [Config.pmod, Config.tableLength, Config.fracScale] at *
  split <;> omega

/-- The advance keeps the phase in range (10_state.md R23). -/
theorem advance_lt (p i : Phase) (hp : p.toNat < Config.pmod) (hi : i.toNat < Config.pmod) :
    (advance p i).toNat < Config.pmod := by
  rw [advance_toNat_mod p i hp hi]
  exact Nat.mod_lt _ (by simp)

theorem phaseIndex_eq (p : Phase) : phaseIndex p = p.toNat / Config.fracScale := by
  have h : p.toNat < 2 ^ 24 := p.isLt
  simp only [phaseIndex, BitVec.extractLsb'_toNat, Config.fracScale, Nat.shiftRight_eq_div_pow]
  omega

theorem phaseFrac_toNat (p : Phase) : (phaseFrac p).toNat = p.toNat % Config.fracScale := by
  simp [phaseFrac, BitVec.extractLsb'_toNat, Config.fracScale]

/-- A phase in range has an index in the table (42_synth.md R174). -/
theorem phaseIndex_lt (p : Phase) (h : p.toNat < Config.pmod) : phaseIndex p < Config.tableLength := by
  rw [phaseIndex_eq]
  simp only [Config.pmod, Config.tableLength, Config.fracScale] at *
  omega

theorem nextTableIndex_lt (idx : Nat) : nextTableIndex idx < Config.tableLength :=
  Nat.mod_lt _ (by simp)

/-- The scale, exactly (42_synth.md R177). -/
theorem scale_toNat (s8 amp : Byte) : (scale s8 amp).toNat = min (s8.toNat * amp.toNat) Config.dacMax := by
  simp only [scale, BitVec.toNat_ofNat, Config.dacMax]
  omega

/-- The exact interpolated value is a byte (42_synth.md R176). -/
theorem interp_value_range (a b frac : Nat) (ha : a < 256) (hb : b < 256) (hf : frac < 65536) :
    0 ≤ ((a : Int) * 65536 + ((b : Int) - a) * frac) / 65536 ∧
      ((a : Int) * 65536 + ((b : Int) - a) * frac) / 65536 < 256 := by
  have h1 : (a : Int) * 65536 + ((b : Int) - a) * frac = a * (65536 - frac) + b * frac := by ring
  have h2 : (0 : Int) ≤ a * (65536 - frac) := by
    apply Int.mul_nonneg <;> omega
  have h3 : (0 : Int) ≤ b * frac := by apply Int.mul_nonneg <;> omega
  have h4 : (a : Int) * (65536 - frac) ≤ 255 * (65536 - frac) := by
    apply Int.mul_le_mul_of_nonneg_right <;> omega
  have h5 : (b : Int) * frac ≤ 255 * frac := by
    apply Int.mul_le_mul_of_nonneg_right <;> omega
  rw [h1]
  constructor
  · apply Int.ediv_nonneg <;> omega
  · apply Int.ediv_lt_of_lt_mul <;> omega

/-- The interpolation, exactly (42_synth.md R176). -/
theorem interp_toNat (a b : Byte) (frac : BitVec 16) :
    ((interp a b frac).toNat : Int) =
      ((a.toNat : Int) * 65536 + ((b.toNat : Int) - a.toNat) * frac.toNat) / 65536 := by
  obtain ⟨h0, h1⟩ := interp_value_range a.toNat b.toNat frac.toNat a.isLt b.isLt frac.isLt
  simp only [interp, Config.fracScale, BitVec.toNat_ofInt]
  generalize ((a.toNat : Int) * ((65536 : Nat) : Int) + ((b.toNat : Int) - a.toNat) * frac.toNat) / ((65536 : Nat) : Int) = v at *
  norm_num at *
  omega

/-- What the sample service can answer: a refusal before the tables are filled, a fault for an index outside the
table, or the start of a frame (42_synth.md R170, R171). -/
theorem sampleService_cases (s : State) :
    (s.tblValid = false ∧ sampleService s = .refused .tablesNotReady) ∨
    (s.tblValid = true ∧ s.oscActive = false ∧
      sampleService s = .next (frameStart 0#12 { s with smpp := false })) ∨
    (s.tblValid = true ∧ s.oscActive = true ∧ Config.tableLength ≤ phaseIndex (advance s.oscPhase s.oscInc) ∧
      sampleService s = .fault .tableIndexOutOfRange) ∨
    (s.tblValid = true ∧ s.oscActive = true ∧ phaseIndex (advance s.oscPhase s.oscInc) < Config.tableLength ∧
      sampleService s = .next (frameStart (voiceSample s (advance s.oscPhase s.oscInc))
        { s with smpp := false, oscPhase := advance s.oscPhase s.oscInc })) := by
  unfold sampleService
  cases s.tblValid <;> cases s.oscActive <;> simp
  exact (Nat.lt_or_ge _ _).symm

end Sys2Proof.Machine
end

