-- ==== Sys2Proof/Laws/Exec.lean ====
section
/-! SUPPORT. Everything an instruction can do when it answers a next state, said once: the inversion of `exec` that
the whole-machine statements cite. -/

namespace Sys2Proof.Machine

theorem svcEnabled_iff (s : State) :
    svcEnabled s = true ↔ s.gie = true ∧ s.frState = .idle ∧ (s.smpp = true ∨ s.rxp = true) := by
  simp [svcEnabled, frameInProgress_false_iff, and_assoc]

theorem rxDispatchable_iff (s : State) :
    rxDispatchable s = true ↔ s.gie = true ∧ s.frState = .idle ∧ s.smpp = false ∧ s.rxp = true := by
  simp only [rxDispatchable, Bool.and_eq_true, svcEnabled_iff, Bool.not_eq_true']
  constructor
  · rintro ⟨⟨h1, h2, h3⟩, h4⟩
    exact ⟨h1, h2, h4, by simpa [h4] using h3⟩
  · rintro ⟨h1, h2, h3, h4⟩
    exact ⟨⟨h1, h2, .inr h4⟩, h3⟩

/-- What `SVC` can answer (60_exceptions.md R258). -/
theorem execSvc_cases (s : State) :
    (svcEnabled s = false ∧ execSvc s = .next s) ∨
    (svcEnabled s = true ∧ s.smpp = true ∧ execSvc s = sampleService s) ∨
    (rxDispatchable s = true ∧ execSvc s = .next (rxService s)) := by
  unfold execSvc rxDispatchable
  cases svcEnabled s <;> cases s.smpp <;> simp

theorem serves_iff (b : Byte) (s : State) : serves b s = true ↔ rxDispatchable s = true ∧ s.rxdata = b := by
  simp [serves]

/-- A word that carries a byte serves that byte or changes nothing (log 8). -/
theorem serveWord_cases (b : Byte) (s : State) :
    (serves b s = true ∧ serveWord b s = .next (serveByte b s)) ∨ (serves b s = false ∧ serveWord b s = .next s) := by
  cases h : serves b s
  · exact .inr ⟨rfl, by simp [serveWord, h]⟩
  · obtain ⟨hd, rfl⟩ := (serves_iff b s).mp h
    have hx : execSvc s = .next (rxService s) := by
      rcases execSvc_cases s with ⟨h1, _⟩ | ⟨_, h2, _⟩ | ⟨_, h2⟩
      · simp [rxDispatchable, h1] at hd
      · simp [rxDispatchable, h2] at hd
      · exact h2
    exact .inl ⟨rfl, by simp [serveWord, h, hx, rxService]⟩

theorem queues_iff (t : BitVec 1) (c : BitVec 4) (n v : Byte) (s : State) :
    queues t c n v s = true ↔
      serves v s = true ∧ completes v s = true ∧ readSlot s s.widx .status = eventStatus t c ∧
        readSlot s s.widx .data0 = n := by
  simp [queues, and_assoc]

/-- The next step of the frame that carries a sample, by the framer's state (43_dac_framer.md R201; log 9). -/
theorem sends_iff (d : Sample12) (s : State) :
    sends d s = true ↔
      (s.frState = .idle ∧ svcEnabled s = true ∧ s.smpp = true ∧ s.tblValid = true ∧ tickSample s = d) ∨
        (s.frState ≠ .idle ∧ s.frSample = d) := by
  unfold sends
  cases s.frState <;> simp [and_assoc]

/-- What `CLK` answers (60_exceptions.md R262). -/
theorem execClk_cases (s : State) :
    (s.ten = false ∧ execClk s = .next s) ∨
    (timerMatch s = true ∧ execClk s = .next { s with cnt := 0#16, smpp := true }) ∨
    (s.ten = true ∧ timerMatch s = false ∧ execClk s = .next { s with cnt := s.cnt + 1#16 }) := by
  unfold execClk
  cases hten : s.ten <;> cases hm : timerMatch s <;> simp

/-- Every instruction is the operation it performs, or changes nothing (00_scope.md R8). -/
theorem exec_performs (i : Instr) (s : State) :
    exec i s =
      match performs i s with
      | some o => exec o s
      | none => .next s := by
  cases i <;>
    first
    | rfl
    | (rename_i acc; cases acc <;> rfl)
    | (simp only [exec, execStOff, execStOn, execOther0, execOther101, execOther11, execMidiEvent, serveWord, performs]
       split <;> rfl)
    | (simp only [exec, execDacFrame, performs]
       split
       · split <;> rfl
       · rfl)

/-- What an instruction performs is a TRACE word: `RST`, `INIT`, `CLK` and `RXB` themselves, a host access of the
instruction's operand, `SVC` or `XDONE`. -/
theorem performs_cases (i : Instr) (s : State) :
    performs i s = none ∨ (i = .rst ∧ performs i s = some .rst) ∨ (i = .init ∧ performs i s = some .init) ∨
    (i = .clk ∧ performs i s = some .clk) ∨ (∃ b, i = .rxb b ∧ performs i s = some (.rxb b)) ∨
    performs i s = some .svc ∨ performs i s = some .xdone ∨
    (∃ a acc, hostOperand i = some (a, acc) ∧ performs i s = some (hostOperation a acc)) := by
  cases i <;> simp [performs, hostOperand, hostOperation, ite_eq_iff]
  case dacFrame d => cases sends d s <;> cases frameInProgress s <;> simp

theorem performs_trace (i o : Instr) (s : State) (h : performs i s = some o) : o.format = .trace := by
  rcases performs_cases i s with h' | ⟨_, h'⟩ | ⟨_, h'⟩ | ⟨_, h'⟩ | ⟨_, _, h'⟩ | h' | h' | ⟨_, acc, _, h'⟩ <;> rw [h'] at h
  · cases h
  all_goals cases h
  all_goals first
    | rfl
    | (cases acc <;> rfl)

/-- An instruction that is a host access does that access. -/
theorem exec_hostOperand (i : Instr) (a : Byte) (acc : HostAccess) (s : State) (h : hostOperand i = some (a, acc)) :
    exec i s = hostAccess a acc s := by
  cases i <;> simp [hostOperand] at h <;> obtain ⟨rfl, rfl⟩ := h <;> rfl

/-- The operation an instruction performs that is a host access. -/
theorem performs_hostOperand (i : Instr) (a : Byte) (acc : HostAccess) (s : State) (h : hostOperand i = some (a, acc)) :
    performs i s = some (hostOperation a acc) := by
  cases i <;> simp [hostOperand] at h <;> obtain ⟨rfl, rfl⟩ := h <;> rfl

/-- Everything an instruction can do when it answers a next state. -/
theorem exec_next_cases (i : Instr) (s t : State) (h : exec i s = .next t) :
    (performs i s = none ∧ t = s) ∨
    (i = .rst ∧ t = resetBlock s) ∨
    (i = .init ∧ t = { s with wt := filledTables, tblValid := true }) ∨
    (i = .clk ∧ execClk s = .next t) ∨
    (∃ b, i = .rxb b ∧ s.rxp = false ∧ t = { s with rxdata := b, rxp := true }) ∨
    (performs i s = some .svc ∧ execSvc s = .next t) ∨
    (performs i s = some .xdone ∧ t = completion s) ∨
    (∃ a, hostOperand i = some (a, .rd) ∧ ∃ v, t = { s with hostOut := s.hostOut ++ [v] }) ∨
    (∃ a v r, hostOperand i = some (a, .wr v) ∧ regOfAddr a = some r ∧ hostWrites i = some r ∧
      writeReg r v s = .next t) := by
  rcases performs_cases i s with h' | ⟨rfl, _⟩ | ⟨rfl, _⟩ | ⟨rfl, _⟩ | ⟨b, rfl, _⟩ | h' | h' | ⟨a, acc, ha, _⟩
  · rw [exec_performs, h'] at h
    exact .inl ⟨h', (Host.Outcome.next.inj h).symm⟩
  · exact .inr (.inl ⟨rfl, (Host.Outcome.next.inj h).symm⟩)
  · exact .inr (.inr (.inl ⟨rfl, (Host.Outcome.next.inj h).symm⟩))
  · exact .inr (.inr (.inr (.inl ⟨rfl, h⟩)))
  · simp only [exec, execRxb, arrive] at h
    split at h
    · cases h
    · rename_i hb
      exact .inr (.inr (.inr (.inr (.inl ⟨b, rfl, Bool.eq_false_iff.mpr hb, (Host.Outcome.next.inj h).symm⟩))))
  · rw [exec_performs, h'] at h
    exact .inr (.inr (.inr (.inr (.inr (.inl ⟨h', h⟩)))))
  · rw [exec_performs, h'] at h
    exact .inr (.inr (.inr (.inr (.inr (.inr (.inl ⟨h', (Host.Outcome.next.inj h).symm⟩))))))
  · rw [exec_hostOperand i a acc s ha] at h
    obtain ⟨r, hr, ⟨rfl, hw⟩ | ⟨v, rfl, hw⟩⟩ := hostAccess_next a acc s t h
    · exact .inr (.inr (.inr (.inr (.inr (.inr (.inr (.inl ⟨a, ha, _, hw⟩)))))))
    · exact .inr (.inr (.inr (.inr (.inr (.inr (.inr (.inr
        ⟨a, v, r, ha, hr, by simp [hostWrites, ha, hr], hw⟩)))))))

end Sys2Proof.Machine
end

