-- ==== Sys2Proof/Laws/Operations.lean ====
section
/-! SUPPORT. Everything `SVC`, `CLK`, `XDONE` and the service of a byte can do, said once. -/

namespace Sys2Proof.Machine

/-- What `SVC` can do (60_exceptions.md R258; 42_synth.md R170, R171; 41_midi_rx.md R141). -/
theorem execSvc_next (s t : State) (h : execSvc s = .next t) :
    (svcEnabled s = false ∧ t = s) ∨
    (svcEnabled s = true ∧ s.smpp = true ∧ s.tblValid = true ∧ ∃ p,
      (s.oscActive = false → p = s.oscPhase) ∧ (s.oscActive = true → p = advance s.oscPhase s.oscInc) ∧
      t = frameStart (tickSample s) { s with smpp := false, oscPhase := p }) ∨
    (rxDispatchable s = true ∧ t = serveByte s.rxdata s) := by
  rcases execSvc_cases s with ⟨h1, h2⟩ | ⟨h1, h2, h3⟩ | ⟨h1, h2⟩
  · rw [h2] at h; exact .inl ⟨h1, (Host.Outcome.next.inj h).symm⟩
  · rw [h3] at h
    rcases sampleService_cases s with ⟨_, h4⟩ | ⟨h5, h6, h4⟩ | ⟨_, _, _, h4⟩ | ⟨h5, h6, _, h4⟩ <;> rw [h4] at h
    · cases h
    · exact .inr (.inl ⟨h1, h2, h5, s.oscPhase, fun _ => rfl, by simp [h6],
        by rw [← Host.Outcome.next.inj h, tickSample, h6]; rfl⟩)
    · cases h
    · exact .inr (.inl ⟨h1, h2, h5, _, by simp [h6], fun _ => rfl,
        by rw [← Host.Outcome.next.inj h, tickSample, h6]; rfl⟩)
  · rw [h2] at h; exact .inr (.inr ⟨h1, (Host.Outcome.next.inj h).symm⟩)

/-- What `CLK` can do (60_exceptions.md R262). -/
theorem execClk_next (s t : State) (h : execClk s = .next t) :
    t = s ∨ (timerMatch s = true ∧ t = { s with cnt := 0#16, smpp := true }) ∨ t = { s with cnt := s.cnt + 1#16 } := by
  rcases execClk_cases s with ⟨_, h2⟩ | ⟨h1, h2⟩ | ⟨_, _, h2⟩ <;> rw [h2] at h
  · exact .inl (Host.Outcome.next.inj h).symm
  · exact .inr (.inl ⟨h1, (Host.Outcome.next.inj h).symm⟩)
  · exact .inr (.inr (Host.Outcome.next.inj h).symm)

/-- What `XDONE` does (43_dac_framer.md R204, R205). -/
theorem completion_cases (s : State) :
    (s.frState = .idle ∧ completion s = s) ∨
    (s.frState = .byte1 ∧
      completion s = { s with out := s.out ++ [.dacb (frameByte2 s.frSample)], frState := .byte2 }) ∨
    (s.frState = .byte2 ∧
      completion s = { s with out := s.out ++ [.csDeassert], cs := false, frState := .idle }) := by
  cases h : s.frState
  · exact .inl ⟨rfl, completion_idle s h⟩
  · exact .inr (.inl ⟨rfl, completion_byte1 s h⟩)
  · exact .inr (.inr ⟨rfl, completion_byte2 s h⟩)

/-- What serving a byte does to every field; `IDLE` is left only by a status byte and not entered
(41_midi_rx.md R147). -/
theorem serveByte_fields (b : Byte) (s : State) :
    ∃ q w r, serveByte b s = { s with rxp := false, out := s.out ++ [.txb b], q := q, widx := w, rxState := r } ∧
      (r = .idle → s.rxState = .idle) ∧ (s.rxState = .idle → r ≠ .idle → isStatusByte b = true) := by
  refine ⟨_, _, _, serveByte_frame b s, ?_, ?_⟩
  · cases h : isStatusByte b
    · cases hs : s.rxState
      · simp
      · simp [serveByte_data0 b s h hs]
      · simp [serveByte_data1 b s h hs]
    · simp [serveByte_status b s h]
  · intro h1 h2
    by_contra hc
    rw [Bool.not_eq_true] at hc
    exact h2 (by rw [serveByte_idle b s hc h1]; exact h1)

end Sys2Proof.Machine
end

