-- ==== Sys2Proof/Laws/PerInstr.lean ====
section
/-! SUPPORT. The laws made per instruction. Family EncodeLength: an instruction's bytes are one to five, so that a word
placed with five bytes is whole, and an encoded operation is never no bytes (30_encoding.md R91, R96, R100, R105, R111). -/

namespace Sys2Proof.Laws.EncodeLength

/-- The length of an instruction's encoding in bytes. -/
def Statement (i : Instr) : Prop := 1 ≤ (encode i).length ∧ (encode i).length ≤ 5

/-- An instruction of a known length. -/
theorem of_length (i : Instr) (n : Nat) (h : (encode i).length = n) (h1 : 1 ≤ n) (h5 : n ≤ 5) : Statement i := by
  unfold Statement
  rw [h]
  exact ⟨h1, h5⟩

/-- The length of a host access's encoding after its address. -/
theorem access_length (acc : HostAccess) : acc.bytes.length ≤ 3 := by
  cases acc <;> simp [HostAccess.bytes, bytesOfWord24]

/-- An instruction that is an address and an access. -/
theorem of_access (i : Instr) (acc : HostAccess) (a : Byte) (h : encode i = a :: acc.bytes) : Statement i := by
  have hl := access_length acc
  unfold Statement
  rw [h, List.length_cons]
  omega

theorem rst : Statement (.rst) :=
  of_length _ 1 rfl (by decide) (by decide)

theorem init : Statement (.init) :=
  of_length _ 1 rfl (by decide) (by decide)

theorem clk : Statement (.clk) :=
  of_length _ 1 rfl (by decide) (by decide)

theorem rxb (b : Byte) : Statement (.rxb b) :=
  of_length _ 2 rfl (by decide) (by decide)

theorem svc : Statement (.svc) :=
  of_length _ 1 rfl (by decide) (by decide)

theorem xdone : Statement (.xdone) :=
  of_length _ 1 rfl (by decide) (by decide)

theorem hrd (a : Byte) : Statement (.hrd a) :=
  of_length _ 2 rfl (by decide) (by decide)

theorem hwr (a : Byte) (v : Word24) : Statement (.hwr a v) :=
  of_length _ 5 rfl (by decide) (by decide)

theorem stOff (c : BitVec 4) : Statement (.stOff c) :=
  of_length _ 1 rfl (by decide) (by decide)

theorem stOn (c : BitVec 4) : Statement (.stOn c) :=
  of_length _ 1 rfl (by decide) (by decide)

theorem other0 (d : BitVec 7) : Statement (.other0 d) :=
  of_length _ 1 rfl (by decide) (by decide)

theorem other101 (d : BitVec 5) : Statement (.other101 d) :=
  of_length _ 1 rfl (by decide) (by decide)

theorem other11 (d : BitVec 6) : Statement (.other11 d) :=
  of_length _ 1 rfl (by decide) (by decide)

theorem dacFrame (d : Sample12) : Statement (.dacFrame d) :=
  of_length _ 2 rfl (by decide) (by decide)

theorem midiEvent (t : BitVec 1) (c : BitVec 4) (n v : Byte) : Statement (.midiEvent t c n v) :=
  of_length _ 3 rfl (by decide) (by decide)

theorem qWidx (acc : HostAccess) : Statement (.qWidx acc) :=
  of_access _ acc _ rfl

theorem qRidx (acc : HostAccess) : Statement (.qRidx acc) :=
  of_access _ acc _ rfl

theorem irqCtrl (acc : HostAccess) : Statement (.irqCtrl acc) :=
  of_access _ acc _ rfl

theorem irqPend (acc : HostAccess) : Statement (.irqPend acc) :=
  of_access _ acc _ rfl

theorem tmrCtrl (acc : HostAccess) : Statement (.tmrCtrl acc) :=
  of_access _ acc _ rfl

theorem tmrCount (acc : HostAccess) : Statement (.tmrCount acc) :=
  of_access _ acc _ rfl

theorem tmrCnt (acc : HostAccess) : Statement (.tmrCnt acc) :=
  of_access _ acc _ rfl

theorem oscCtrl (acc : HostAccess) : Statement (.oscCtrl acc) :=
  of_access _ acc _ rfl

theorem oscPhase (acc : HostAccess) : Statement (.oscPhase acc) :=
  of_access _ acc _ rfl

theorem oscInc (acc : HostAccess) : Statement (.oscInc acc) :=
  of_access _ acc _ rfl

theorem oscAmp (acc : HostAccess) : Statement (.oscAmp acc) :=
  of_access _ acc _ rfl

theorem qSlot (i : BitVec 4) (f : BitVec 2) (acc : HostAccess) : Statement (.qSlot i f acc) :=
  of_access _ acc _ rfl

theorem nft (k : BitVec 7) (acc : HostAccess) : Statement (.nft k acc) :=
  of_access _ acc _ rfl

end Sys2Proof.Laws.EncodeLength
end

