-- ==== Sys2Proof/Laws/Runs.lean ====
section
/-! SUPPORT. Runs of operations: one operation after another, bytes received and served one by one, the clocks of a
tick and a whole frame. -/

namespace Sys2Proof.Machine

theorem runOps_cons (i : Instr) (is : List Instr) (s t : State) (h : exec i s = .next t) :
    runOps (i :: is) s = runOps is t := by
  simp [runOps, h]

/-- A run of two lists is the run of the second after the run of the first. -/
theorem runOps_append (is js : List Instr) (s t : State) (h : runOps is s = .next t) :
    runOps (is ++ js) s = runOps js t := by
  induction is generalizing s with
  | nil => cases h; rfl
  | cons i is ih =>
    simp only [runOps, List.cons_append] at h ⊢
    split at h
    · exact ih _ h
    · cases h
    · cases h

/-- Every invariant of the operations of a run holds at its end. -/
theorem runOps_induction (P : State → Prop) (ok : Instr → Prop)
    (hstep : ∀ i s t, ok i → P s → exec i s = .next t → P t) (is : List Instr) (s t : State)
    (hok : ∀ i ∈ is, ok i) (hP : P s) (h : runOps is s = .next t) : P t := by
  induction is generalizing s with
  | nil => cases h; exact hP
  | cons i is ih =>
    simp only [runOps] at h
    split at h
    · rename_i u hu
      exact ih u (fun j hj => hok j (List.mem_cons_of_mem _ hj)) (hstep i s u (hok i List.mem_cons_self) hP hu) h
    · cases h
    · cases h

theorem holdsAlong_cons (P : Instr → State → Prop) (i : Instr) (is : List Instr) (s t : State) (h : exec i s = .next t) :
    holdsAlong P (i :: is) s ↔ P i s ∧ holdsAlong P is t := by
  simp [holdsAlong, h]

/-- What each instruction keeps under a premise on the run holds at the end of every run that meets the premise. -/
theorem runOps_along (P : Instr → State → Prop) (Q : State → Prop)
    (hstep : ∀ i s t, P i s → Q s → exec i s = .next t → Q t) (is : List Instr) (s t : State)
    (hP : holdsAlong P is s) (hQ : Q s) (h : runOps is s = .next t) : Q t := by
  induction is generalizing s with
  | nil => cases h; exact hQ
  | cons i is ih =>
    simp only [runOps] at h
    split at h
    · rename_i u hu
      exact ih u (hP.2 u hu) (hstep i s u hP.1 hQ hu) h
    · cases h
    · cases h

/-! ### Bytes received and served -/

/-- The block can take a byte and serve it at once: the mask is open, no frame and no request waits. -/
structure Ready (s : State) : Prop where
  gie : s.gie = true
  frState : s.frState = .idle
  smpp : s.smpp = false
  rxp : s.rxp = false

/-- The state after a byte has arrived and been served. -/
def feed (b : Byte) (s : State) : State := serveByte b { s with rxdata := b, rxp := true }

/-- The state after bytes have arrived and been served, one by one. -/
def feeds : List Byte → State → State
  | [], s => s
  | b :: bs, s => feeds bs (feed b s)

/-- `SVC` with only the receive request waiting (60_exceptions.md R258). -/
theorem exec_svc_rx (s : State) (h : rxDispatchable s = true) : exec .svc s = .next (serveByte s.rxdata s) := by
  rcases execSvc_cases s with ⟨h1, _⟩ | ⟨_, h2, _⟩ | ⟨_, h2⟩
  · simp [rxDispatchable, h1] at h
  · simp [rxDispatchable, h2] at h
  · exact h2

/-- Serving a byte does not depend on the latch or the pending bit. -/
theorem feed_eq (b : Byte) (s : State) : feed b s = { serveByte b s with rxdata := b } := by
  rw [feed, serveByte_congr b s { s with rxdata := b, rxp := true } rfl rfl rfl rfl]
  conv_rhs => rw [serveByte_frame b s]

/-- The fields of the state after a byte has been received and served. -/
theorem feed_fields (b : Byte) (s : State) :
    (feed b s).q = (serveByte b s).q ∧ (feed b s).widx = (serveByte b s).widx ∧
      (feed b s).rxState = (serveByte b s).rxState ∧ (feed b s).ridx = s.ridx ∧ (feed b s).epoch = s.epoch ∧
      (feed b s).out = s.out ++ [.txb b] := by
  rw [feed_eq, serveByte_frame]
  exact ⟨rfl, rfl, rfl, rfl, rfl, rfl⟩

theorem feed_ready (b : Byte) (s : State) (h : Ready s) : Ready (feed b s) := by
  rw [feed_eq, serveByte_frame]
  exact ⟨h.gie, h.frState, h.smpp, rfl⟩

/-- Receiving one byte, `RXB b` then `SVC` (30_encoding.md R112). -/
theorem rxOps_run (b : Byte) (s : State) (h : Ready s) : runOps (rxOps b) s = .next (feed b s) := by
  have h1 : exec (.rxb b) s = .next { s with rxdata := b, rxp := true } := by
    simp only [exec, execRxb, arrive, h.rxp, Bool.false_eq_true, if_false]
  have h2 := exec_svc_rx { s with rxdata := b, rxp := true }
    ((rxDispatchable_iff _).mpr ⟨h.gie, h.frState, h.smpp, rfl⟩)
  rw [rxOps, runOps_cons _ _ _ _ h1, runOps_cons _ _ _ _ h2]
  rfl

/-- Receiving bytes one by one (30_encoding.md R112). -/
theorem rxMsgOps_run (bs : List Byte) (s : State) (h : Ready s) :
    runOps (rxMsgOps bs) s = .next (feeds bs s) ∧ Ready (feeds bs s) := by
  induction bs generalizing s with
  | nil => exact ⟨rfl, h⟩
  | cons b bs ih =>
    rw [rxMsgOps, runOps_append _ _ _ _ (rxOps_run b s h)]
    exact ih _ (feed_ready b s h)

/-! ### A whole frame -/

/-- The sample service of a state in range with the tables filled starts the frame of the tick's sample. -/
theorem sampleService_run (s : State) (hi : Inv s) (ht : s.tblValid = true) :
    ∃ p, sampleService s = .next (frameStart (tickSample s) { s with smpp := false, oscPhase := p }) ∧
      (s.oscActive = true → p = advance s.oscPhase s.oscInc) ∧ (s.oscActive = false → p = s.oscPhase) := by
  have hlt := phaseIndex_lt _ (advance_lt _ _ hi.phase_lt hi.inc_lt)
  rcases sampleService_cases s with ⟨h1, _⟩ | ⟨_, h2, h3⟩ | ⟨_, _, h3, _⟩ | ⟨_, h2, _, h3⟩
  · simp [ht] at h1
  · exact ⟨s.oscPhase, by simp [h3, tickSample, h2], by simp [h2], fun _ => rfl⟩
  · omega
  · exact ⟨_, by simp only [h3, tickSample, h2, if_true], fun _ => rfl, by simp [h2]⟩

/-- `FRAME`: `SVC` with a tick pending, and the two completions (30_encoding.md R112, 43_dac_framer.md R201). -/
theorem frameOps_run (s : State) (hi : Inv s) (hg : s.gie = true) (hf : s.frState = .idle) (hs : s.smpp = true)
    (ht : s.tblValid = true) :
    ∃ p, runOps frameOps s = .next
        { s with smpp := false, oscPhase := p, out := s.out ++ frameEvents (tickSample s), frSample := tickSample s,
                 cs := false, frState := .idle } ∧
      (s.oscActive = true → p = advance s.oscPhase s.oscInc) ∧ (s.oscActive = false → p = s.oscPhase) := by
  obtain ⟨p, hp, hp'⟩ := sampleService_run s hi ht
  refine ⟨p, ?_, hp'⟩
  have he : svcEnabled s = true := (svcEnabled_iff s).mpr ⟨hg, hf, .inl hs⟩
  have h1 : exec .svc s = .next (frameStart (tickSample s) { s with smpp := false, oscPhase := p }) := by
    rw [← hp]; simp [exec, execSvc, he, hs]
  rw [frameOps, runOps_cons _ _ _ _ h1, runOps_cons _ _ _ _ rfl, runOps_cons _ _ _ _ rfl, wholeFrame_eq]
  rfl

end Sys2Proof.Machine
end

