-- ==== Sys2Proof/Laws/Sine.lean ====
section
/-! SUPPORT. Bounds of the sines and cosines of the multiples of `pi / 80`, for the rounding of
40_tablegen.md R121. -/

namespace Sys2Proof.Machine

/-- `sin (k * pi / 80)` in billionths, for `k` up to 40. -/
def sinBillionths : List Int :=
  [0, 39259816, 78459096, 117537397, 156434465, 195090322, 233445364, 271440450, 309016994, 346117057] ++
  [382683432, 418659738, 453990500, 488621241, 522498565, 555570233, 587785252, 619093949, 649448048, 678800746] ++
  [707106781, 734322509, 760405966, 785316931, 809016994, 831469612, 852640164, 872496007, 891006524, 908143174] ++
  [923879533, 938191336, 951056516, 962455236, 972369920, 980785280, 987688341, 993068457, 996917334, 999229036] ++
  [1000000000]

/-- `cos (k * pi / 80)` in billionths. -/
def cosBillionths : List Int :=
  [1000000000, 999229036, 996917334, 993068457, 987688341, 980785280, 972369920, 962455236, 951056516, 938191336] ++
  [923879533, 908143174, 891006524, 872496007, 852640164, 831469612, 809016994, 785316931, 760405966, 734322509] ++
  [707106781, 678800746, 649448048, 619093949, 587785252, 555570233, 522498565, 488621241, 453990500, 418659738] ++
  [382683432, 346117057, 309016994, 271440450, 233445364, 195090322, 156434465, 117537397, 78459096, 39259816] ++
  [0]

/-- How far the two tables may be off, in billionths. -/
def boundBillionths : List Int :=
  [0, 600, 1224, 1873, 2546, 3245, 3971, 4725, 5508, 6321] ++
  [7166, 8043, 8953, 9899, 10881, 11901, 12960, 14060, 15202, 16388] ++
  [17620, 18900, 20229, 21608, 23041, 24529, 26074, 27679, 29346, 31077] ++
  [32874, 34740, 36678, 38691, 40781, 42951, 45206, 47547, 49979, 52503] ++
  [55125]

/-- The error of one angle addition. -/
theorem angle_addition_error (s c c1 s1 s' e e' d x y t u : ℝ) (hx : |x - s| ≤ e) (hy : |y - c| ≤ e) (ht : |t - s1| ≤ d) (hu : |u - c1| ≤ d)
   (x1 : |x| ≤ 1) (y1 : |y| ≤ 1) (h : |s * c1 + c * s1 - s'| + e * (|c1| + |s1|) + 2 * d ≤ e') : |x * u + y * t - s'| ≤ e' := by
  have e1 : x * u + y * t - s' = (s * c1 + c * s1 - s') + ((x - s) * c1 + x * (u - c1) + (y - c) * s1 + y * (t - s1)) := by ring
  have b1 : |(x - s) * c1| ≤ e * |c1| := by rw [abs_mul]; gcongr
  have b2 : |x * (u - c1)| ≤ d := by rw [abs_mul]; nlinarith [abs_nonneg x, abs_nonneg (u - c1)]
  have b3 : |(y - c) * s1| ≤ e * |s1| := by rw [abs_mul]; gcongr
  have b4 : |y * (t - s1)| ≤ d := by rw [abs_mul]; nlinarith [abs_nonneg y, abs_nonneg (t - s1)]
  rw [e1]
  calc _ ≤ |s * c1 + c * s1 - s'| + |(x - s) * c1 + x * (u - c1) + (y - c) * s1 + y * (t - s1)| := abs_add_le _ _
    _ ≤ |s * c1 + c * s1 - s'| + (|(x - s) * c1| + |x * (u - c1)| + |(y - c) * s1| + |y * (t - s1)|) := by
        gcongr
        exact (abs_add_le _ _).trans (by gcongr; exact (abs_add_le _ _).trans (by gcongr; exact abs_add_le _ _))
    _ ≤ e' := by linarith

/-- The first angle, from the series and six digits of pi. -/
theorem first_angle : |Real.sin (Real.pi / 80) - 39259816 / 10^9| ≤ 300 / 10^9 ∧ |Real.cos (Real.pi / 80) - 999229036 / 10^9| ≤ 300 / 10^9 := by
  have p1 := Real.pi_gt_d6
  have p2 := Real.pi_lt_d6
  have h1 : |Real.pi / 80| ≤ 1 := by rw [abs_le]; constructor <;> linarith
  have hs := Real.sin_bound h1
  have hc := Real.cos_bound h1
  set x := Real.pi / 80 with hx
  have x1 : 0.0392699 ≤ x := by rw [hx]; linarith
  have x2 : x ≤ 0.03926992 := by rw [hx]; linarith
  have xp : 0 ≤ x := by linarith
  rw [abs_of_nonneg xp] at hs hc
  have q4 : x ^ 4 * (5/96) ≤ 0.000000125 := by
    have : x ^ 4 ≤ 0.03926992 ^ 4 := by gcongr
    nlinarith
  have q2l : 0.0392699 ^ 2 ≤ x ^ 2 := by gcongr
  have q2u : x ^ 2 ≤ 0.03926992 ^ 2 := by gcongr
  have q3l : 0.0392699 ^ 3 ≤ x ^ 3 := by gcongr
  have q3u : x ^ 3 ≤ 0.03926992 ^ 3 := by gcongr
  have q5u : x ^ 5 ≤ 0.03926992 ^ 5 := by gcongr
  rw [abs_le] at hs hc
  constructor <;> rw [abs_le] <;> constructor <;> norm_num at * <;> linarith [hs.1, hs.2, hc.1, hc.2]

/-- The tables satisfy the angle addition within their bounds. -/
theorem billionths_step : ∀ k : Fin 40,
    |sinBillionths.getD k 0 * 999229036 + cosBillionths.getD k 0 * 39259816 - sinBillionths.getD (k+1) 0 * 10^9| + boundBillionths.getD k 0 * (999229036 + 39259816) + 2 * 300 * 10^9 ≤ boundBillionths.getD (k+1) 0 * 10^9 ∧
    |cosBillionths.getD k 0 * 999229036 - sinBillionths.getD k 0 * 39259816 - cosBillionths.getD (k+1) 0 * 10^9| + boundBillionths.getD k 0 * (999229036 + 39259816) + 2 * 300 * 10^9 ≤ boundBillionths.getD (k+1) 0 * 10^9 := by decide +kernel

/-- The sines and cosines of the multiples of `pi / 80` up to `pi / 2`, within the bounds. -/
theorem sin_cos_billionths (k : ℕ) (hk : k ≤ 40) : |Real.sin (k * (Real.pi / 80)) - ((sinBillionths.getD k 0 : ℤ) : ℝ) / 10^9| ≤ ((boundBillionths.getD k 0 : ℤ) : ℝ) / 10^9 ∧ |Real.cos (k * (Real.pi / 80)) - ((cosBillionths.getD k 0 : ℤ) : ℝ) / 10^9| ≤ ((boundBillionths.getD k 0 : ℤ) : ℝ) / 10^9 := by
  induction k with
  | zero => constructor <;> norm_num [sinBillionths, cosBillionths, boundBillionths]
  | succ k ih =>
    obtain ⟨a, b⟩ := ih (by omega)
    obtain ⟨c1, c2⟩ := billionths_step ⟨k, by omega⟩
    obtain ⟨b1, b2⟩ := first_angle
    simp only at c1 c2
    generalize sinBillionths.getD k 0 = s at *
    generalize cosBillionths.getD k 0 = c at *
    generalize boundBillionths.getD k 0 = e at *
    generalize sinBillionths.getD (k+1) 0 = s' at *
    generalize cosBillionths.getD (k+1) 0 = c' at *
    generalize boundBillionths.getD (k+1) 0 = e' at *
    have c1r : |(s:ℝ) * 999229036 + (c:ℝ) * 39259816 - (s':ℝ) * 10^9| + (e:ℝ) * (999229036 + 39259816) + 2 * 300 * 10^9 ≤ (e':ℝ) * 10^9 := by
      rw [← Int.cast_le (R := ℝ)] at c1; push_cast at c1; norm_num; exact c1
    have c2r : |(c:ℝ) * 999229036 - (s:ℝ) * 39259816 - (c':ℝ) * 10^9| + (e:ℝ) * (999229036 + 39259816) + 2 * 300 * 10^9 ≤ (e':ℝ) * 10^9 := by
      rw [← Int.cast_le (R := ℝ)] at c2; push_cast at c2; norm_num; exact c2
    clear c1 c2
    have ek : ((k + 1 : ℕ) : ℝ) * (Real.pi / 80) = k * (Real.pi / 80) + Real.pi / 80 := by push_cast; ring
    rw [ek, Real.sin_add, Real.cos_add]
    have x1 := Real.abs_sin_le_one (k * (Real.pi / 80))
    have y1 := Real.abs_cos_le_one (k * (Real.pi / 80))
    constructor
    · refine angle_addition_error ((s:ℝ) / 10^9) ((c:ℝ) / 10^9) (999229036 / 10^9) (39259816 / 10^9) ((s':ℝ) / 10^9) ((e:ℝ) / 10^9) ((e':ℝ) / 10^9) (300 / 10^9) _ _ _ _ a b b1 b2 x1 y1 ?_
      have : (s:ℝ) / 10^9 * (999229036 / 10^9) + (c:ℝ) / 10^9 * (39259816 / 10^9) - (s':ℝ) / 10^9 = ((s:ℝ) * 999229036 + c * 39259816 - s' * 10^9) / 10^18 := by ring
      rw [this, abs_div]
      norm_num at *
      linarith
    · have h := angle_addition_error ((c:ℝ) / 10^9) (- (s:ℝ) / 10^9) (999229036 / 10^9) (39259816 / 10^9) ((c':ℝ) / 10^9) ((e:ℝ) / 10^9) ((e':ℝ) / 10^9) (300 / 10^9) (Real.cos (k * (Real.pi / 80))) (-Real.sin (k * (Real.pi / 80))) (Real.sin (Real.pi / 80)) (Real.cos (Real.pi / 80)) b
        (by rw [show -Real.sin (k * (Real.pi / 80)) - -(s:ℝ) / 10^9 = -(Real.sin (k * (Real.pi / 80)) - (s:ℝ) / 10^9) by ring, abs_neg]; exact a) b1 b2 y1 (by rw [abs_neg]; exact x1) ?_
      · rw [show Real.cos (k * (Real.pi / 80)) * Real.cos (Real.pi / 80) - Real.sin (k * (Real.pi / 80)) * Real.sin (Real.pi / 80) - (c':ℝ) / 10^9 = Real.cos (k * (Real.pi / 80)) * Real.cos (Real.pi / 80) + -Real.sin (k * (Real.pi / 80)) * Real.sin (Real.pi / 80) - (c':ℝ) / 10^9 by ring]; exact h
      · have : (c:ℝ) / 10^9 * (999229036 / 10^9) + -(s:ℝ) / 10^9 * (39259816 / 10^9) - (c':ℝ) / 10^9 = ((c:ℝ) * 999229036 - s * 39259816 - c' * 10^9) / 10^18 := by ring
        rw [this, abs_div]
        norm_num at *
        linarith

end Sys2Proof.Machine
end

