-- ==== Sys2Proof/Tests/Slice0.lean ====
section
/-! SUPPORT. The model's own tests. Expected values are the spec's: 95_test_vectors.md (V-…), its tables and its
encodings; and one witness for every statement that has hypotheses. -/

namespace Sys2Proof.Tests

open Sys2Proof Sys2Proof.Machine

/-- One value of the next state, if there is one. -/
def got {α : Type} (o : StepOutcome) (f : State → α) : Option α :=
  match o with
  | .next t => some (f t)
  | .fault _ => none
  | .refused _ => none

/-- The refusal, if the step was refused. -/
def stop (o : StepOutcome) : Option Refusal :=
  match o with
  | .next _ => none
  | .fault _ => none
  | .refused r => some r

/-! ### Well-formedness -/

theorem test_wf_slot_index : (Instr.qSlot 10#4 0#2 .rd).wellFormed = false := by decide
theorem test_wf_slot_field : (Instr.qSlot 0#4 3#2 .rd).wellFormed = false := by decide
theorem test_wf_slot_last : (Instr.qSlot 9#4 2#2 .rd).wellFormed = true := by decide
theorem test_wf_note : (Instr.nft 108#7 .rd).wellFormed = false := by decide
theorem test_wf_note_last : (Instr.nft 107#7 .rd).wellFormed = true := by decide

/-! ### Decoding: words written out from 30_encoding.md -/

theorem test_decode_rst : decode .trace [0b00000000#8] = .ok .rst [] := by decide
theorem test_decode_init : decode .trace [0b00000001#8] = .ok .init [] := by decide
theorem test_decode_clk : decode .trace [0b00000010#8] = .ok .clk [] := by decide
theorem test_decode_rxb : decode .trace [0b00000011#8, 0b10010000#8] = .ok (.rxb 0x90#8) [] := by decide
theorem test_decode_svc : decode .trace [0b00000100#8] = .ok .svc [] := by decide
theorem test_decode_xdone : decode .trace [0b00000101#8, 0xAA#8] = .ok .xdone [0xAA#8] := by decide
theorem test_decode_hrd : decode .trace [0b00000110#8, 0b10111001#8] = .ok (.hrd 0xB9#8) [] := by decide
/-- The value's most significant byte comes first (R111). -/
theorem test_decode_hwr : decode .trace [0b00000111#8, 0x12#8, 0x04#8, 0x66#8, 0x67#8] = .ok (.hwr 0x12#8 0x046667#24) [] := by
  decide
theorem test_decode_reserved : decode .trace [0b00001000#8] = .error .traceReserved := by decide
theorem test_decode_short : decode .trace [0x07#8, 0x12#8, 0x04#8, 0x66#8] = .error .traceReserved := by decide
theorem test_decode_stOff : decode .rxByte [0b10000101#8] = .ok (.stOff 0b0101#4) [] := by decide
theorem test_decode_stOn : decode .rxByte [0b10011111#8] = .ok (.stOn 0b1111#4) [] := by decide
theorem test_decode_other0 : decode .rxByte [0b00111100#8] = .ok (.other0 0b0111100#7) [] := by decide
theorem test_decode_other101 : decode .rxByte [0b10110000#8] = .ok (.other101 0b10000#5) [] := by decide
theorem test_decode_other11 : decode .rxByte [0b11111000#8] = .ok (.other11 0b111000#6) [] := by decide
theorem test_decode_dacFrame : decode .dacFrame [0b00110111#8, 0b11010000#8] = .ok (.dacFrame 0b011111010000#12) [] := by decide
theorem test_decode_dacFrame_nibble : decode .dacFrame [0b01110111#8, 0xD0#8] = .error .wordReserved := by decide
theorem test_decode_midiEvent : decode .midiEvent [0b10010010#8, 0x3C#8, 0x7F#8] = .ok (.midiEvent 1#1 2#4 0x3C#8 0x7F#8) [] := by
  decide
theorem test_decode_midiEvent_off : decode .midiEvent [0b10000010#8, 0x3C#8, 0x7F#8] = .ok (.midiEvent 0#1 2#4 0x3C#8 0x7F#8) [] := by
  decide
theorem test_decode_qWidx : decode .hregRead [0x00#8] = .ok (.qWidx .rd) [] := by decide
theorem test_decode_qRidx : decode .hregWrite [0x01#8, 0x00#8, 0x00#8, 0x09#8] = .ok (.qRidx (.wr 9#24)) [] := by decide
theorem test_decode_irqCtrl : decode .hregRead [0x04#8] = .ok (.irqCtrl .rd) [] := by decide
theorem test_decode_irqPend : decode .hregRead [0x05#8] = .ok (.irqPend .rd) [] := by decide
theorem test_decode_tmrCtrl : decode .hregRead [0x08#8] = .ok (.tmrCtrl .rd) [] := by decide
theorem test_decode_tmrCount : decode .hregRead [0x09#8] = .ok (.tmrCount .rd) [] := by decide
theorem test_decode_tmrCnt : decode .hregRead [0x0A#8] = .ok (.tmrCnt .rd) [] := by decide
theorem test_decode_oscCtrl : decode .hregRead [0x10#8] = .ok (.oscCtrl .rd) [] := by decide
theorem test_decode_oscPhase : decode .hregWrite [0x11#8, 0x9F#8, 0xFF#8, 0xFE#8] = .ok (.oscPhase (.wr 0x9FFFFE#24)) [] := by
  decide
theorem test_decode_oscInc : decode .hregRead [0x12#8] = .ok (.oscInc .rd) [] := by decide
theorem test_decode_oscAmp : decode .hregRead [0x13#8] = .ok (.oscAmp .rd) [] := by decide
/-- `0x66` is `Q_SLOT[9].data1` (V-H4). -/
theorem test_decode_qSlot : decode .hregRead [0b01100110#8] = .ok (.qSlot 9#4 2#2 .rd) [] := by decide
/-- `0xB9` is `NFT[57]` (V-H1). -/
theorem test_decode_nft : decode .hregRead [0b10111001#8] = .ok (.nft 57#7 .rd) [] := by decide
/-- Addresses 0x02, 0x43, 0x67, 0x68, 0x7F, 0xEC, 0xFF are unmapped (V-H2). -/
theorem test_decode_unmapped :
    [0x02#8, 0x43#8, 0x67#8, 0x68#8, 0x7F#8, 0xEC#8, 0xFF#8].all
      (fun a => decode .hregRead [a] == .error .hostUnmapped) = true := by decide

theorem test_table_rxb : decodeTableWord 16 0x0390 = some (.rxb 0x90#8) := by decide
theorem test_table_hwr : decodeTableWord 40 0x0713000010 = some (.hwr 0x13#8 16#24) := by decide
theorem test_table_dacFrame : decodeTableWord 16 0x37D0 = some (.dacFrame 0x7D0#12) := by decide
theorem test_table_midiEvent : decodeTableWord 24 0x903C7F = some (.midiEvent 1#1 0#4 0x3C#8 0x7F#8) := by decide
theorem test_fetch_word : got (step (State.reset.withFetchWord 16 0x0390)) (fun t => (t.rxdata, t.rxp, t.input)) =
    some (0x90#8, true, []) := by decide

/-! ### The named protocol constants (30_encoding.md R114) and what is built from them -/

theorem test_protocol_constants :
    Config.stNoteOn = 0b1001#4 ∧ Config.stNoteOff = 0b1000#4 ∧ Config.statusMask = 0xF0#8 ∧ Config.dacCtrl = 0b0011#4 ∧
    Config.dacByte1Base = 0x30#8 ∧ Config.sampleHighMask = 0xF00#12 ∧ Config.sampleLowMask = 0x0FF#12 := by decide
/-- The examples of R102. -/
theorem test_frame_bytes : [0x000#12, 0xFF0#12, 0xFFF#12, 0x7D0#12].map (fun d => (frameByte1 d, frameByte2 d)) =
    [(0x30#8, 0x00#8), (0x3F#8, 0xF0#8), (0x3F#8, 0xFF#8), (0x37#8, 0xD0#8)] := by decide

/-! ### Tables (V-T1 to V-T6) -/

/-- The indices of the vectors. -/
def vectorIndices : List Nat := [0, 1, 2, 3, 10, 20, 39, 40, 41, 79, 80, 81, 100, 119, 120, 121, 158, 159]

theorem test_sine : vectorIndices.map sine =
    [0, 0, 0, 1, 10, 37, 122, 128, 133, 255, 255, 255, 218, 133, 128, 122, 0, 0] := by decide +kernel
theorem test_triangle : vectorIndices.map triangle =
    [0, 3, 6, 9, 31, 63, 124, 127, 130, 251, 255, 251, 191, 130, 127, 124, 6, 3] := by decide +kernel
theorem test_square : vectorIndices.map square =
    List.replicate 10 255 ++ List.replicate 8 0 := by decide +kernel
theorem test_sawtooth : vectorIndices.map sawtooth =
    [0, 1, 3, 4, 15, 31, 62, 63, 65, 125, 127, 129, 159, 189, 191, 192, 251, 253] := by decide +kernel
theorem test_notes : ([0, 1, 11, 12, 48, 57, 60, 69, 96, 107] : List (Fin 108)).map noteIncrement =
    [0x0029DC#24, 0x002C59#24, 0x004F05#24, 0x0053B8#24, 0x029DC3#24, 0x046666#24, 0x053B86#24, 0x08CCCD#24,
      0x29DC2F#24, 0x4F0576#24] := by decide +kernel
/-- The worked figures of R181: the increment of A4 is `440 * 160 / 16000` = 4.4 samples a tick, 288358 raw, and a cycle
takes about 36.4 ticks (V-S6). -/
theorem test_worked_increment :
    (Config.tuningFrequency * Config.tableLength / Config.sampleRate : Rat) = Config.workedIncrement ∧
    rawOfRatio 44 10 = 288358 ∧ (noteIncrement 57).toNat = 288358 ∧
    |Config.tableLength / Config.workedIncrement - Config.workedTicks| < 1 / 20 := by
  refine ⟨?_, by decide, by decide +kernel, ?_⟩ <;> norm_num [Config.workedIncrement, Config.workedTicks, Config.tuningFrequency]

/-! ### The eight operations -/

/-- A block that is set up: mask open, timer running with `COUNT` = 3, tables filled, note A4 playing a sine. -/
def playing : State :=
  { State.reset with
    wt := filledTables, tblValid := true, gie := true, ten := true, count := 3#16, oscActive := true
    oscInc := 0x046666#24 }

/-- An oscillator whose wavetable store holds two entries, written out (the columns of 95_test_vectors.md, V-O). -/
def voice (w : Wave) (idx : Nat) (a : Byte) (jdx : Nat) (b : Byte) (p inc : Phase) (amp : Byte) : State :=
  { State.reset with
    wt := Memory.write (Memory.write [] (160 * w.tag.toNat + idx) a) (160 * w.tag.toNat + jdx) b
    tblValid := true, gie := true, smpp := true, oscActive := true, oscWave := w, oscPhase := p, oscInc := inc
    oscAmp := amp }

/-- What a sample service leaves. -/
def sampleResult (s : State) : Option (Phase × Sample12 × List Event) :=
  got (exec .svc s) fun t => (t.oscPhase, t.frSample, t.out)

/-- `RST` in mid-frame appends nothing and releases chip-select (V-F3). -/
theorem test_rst : got (exec .rst { playing with
      frState := .byte2, cs := true, out := [.csAssert, .dacb 0x30#8, .dacb 0x00#8] })
      (fun t => (t.frState, t.cs, t.tblValid, t.out)) =
    some (.idle, false, false, [.csAssert, .dacb 0x30#8, .dacb 0x00#8]) := by decide
theorem test_rst_amp : got (exec .rst { playing with oscAmp := 3#8 }) (fun t => (t.oscAmp, t.oscActive, t.oscInc)) =
    some (16#8, false, 0#24) := by decide
theorem test_init : got (exec .init State.reset) (fun t => readTable t .sine 40) = some 128#8 := by decide +kernel
/-- `CNT` after successive clocks with `COUNT` = 3 is 1, 2, 3, 0, the fourth raising the tick (V-I3). -/
theorem test_clk : got (exec .clk { State.reset with ten := true, count := 3#16, cnt := 3#16 })
    (fun t => (t.cnt, t.smpp)) = some (0#16, true) := by decide
/-- `CNT` past `COUNT` counts round to `2^16` (V-I4). -/
theorem test_clk_round : got (exec .clk { State.reset with ten := true, count := 2#16, cnt := 0xFFFF#16 })
    (fun t => (t.cnt, t.smpp)) = some (0#16, false) := by decide
theorem test_clocks : clocksToMatch { State.reset with ten := true, count := 2#16, cnt := 5#16 } = 65534 := by decide
theorem test_rxb : got (exec (.rxb 0x90#8) State.reset) (fun t => (t.rxdata, t.rxp, t.out)) =
    some (0x90#8, true, []) := by decide
/-- A second byte before the first is served is refused (V-M9). -/
theorem test_rxb_overrun : stop (exec (.rxb 0x3C#8) { State.reset with rxdata := 0x90#8, rxp := true }) =
    some .rxOverrun := by decide
/-- The wrap keeps the fraction (V-O1), a falling and a rising slope across the end of the table (V-O3, V-O5), the clip
(V-O8), the largest sum of phase and increment (V-O13), and the largest fraction (V-O14). -/
theorem test_svc_sample :
    [voice .sine 2 0#8 3 1#8 0x9E6658#24 0x046666#24 16#8, voice .sawtooth 159 253#8 0 0#8 0x9F8000#24 0#24 16#8,
      voice .square 159 0#8 0 255#8 0x9FC000#24 0#24 16#8, voice .triangle 80 255#8 81 251#8 0x500000#24 0#24 255#8,
      voice .sawtooth 159 253#8 0 0#8 0x9FFFFF#24 0x9FFFFF#24 16#8,
      voice .sawtooth 1 1#8 2 3#8 0x010000#24 0x00FFFF#24 1#8].map sampleResult =
    [some (0x02CCBE#24, 0#12, [.csAssert, .dacb 0x30#8]), some (0x9F8000#24, 2016#12, [.csAssert, .dacb 0x37#8]),
      some (0x9FC000#24, 3056#12, [.csAssert, .dacb 0x3B#8]), some (0x500000#24, 4095#12, [.csAssert, .dacb 0x3F#8]),
      some (0x9FFFFE#24, 0#12, [.csAssert, .dacb 0x30#8]), some (0x01FFFF#24, 2#12, [.csAssert, .dacb 0x30#8])] := by decide
/-- Echo without effect: a real-time byte in `IDLE` (V-M12). -/
theorem test_svc_echo : got (exec .svc { State.reset with gie := true, rxp := true, rxdata := 0xFE#8 })
    (fun t => (t.rxp, t.rxState, t.q, t.out)) = some (false, .idle, [], [.txb 0xFE#8]) := by decide
/-- The second byte of a frame comes from the latch, whatever the host has written meanwhile (V-F1, V-F4). -/
theorem test_xdone : got (exec .xdone { State.reset with frState := .byte1, cs := true, frSample := 0x7D0#12, oscAmp := 0#8 })
    (fun t => (t.frState, t.cs, t.out)) = some (.byte2, true, [.dacb 0xD0#8]) := by decide
theorem test_xdone_release : got (exec .xdone { State.reset with frState := .byte2, cs := true })
    (fun t => (t.frState, t.cs, t.out)) = some (.idle, false, [.csDeassert]) := by decide
/-- The reads after reset (V-H1). -/
theorem test_hrd : [0x00#8, 0x01#8, 0x04#8, 0x05#8, 0x08#8, 0x09#8, 0x0A#8, 0x10#8, 0x11#8, 0x12#8, 0x13#8, 0x80#8,
      0xEB#8].map (fun a => got (exec (.hrd a) State.reset) (·.hostOut)) =
    List.replicate 10 (some [0#24]) ++ [some [0x10#24], some [0x0029DC#24], some [0x4F0576#24]] := by decide +kernel
/-- The refused reads (V-H2), and the mapped field that holds any value (V-H4). -/
theorem test_hrd_unmapped : [0x02#8, 0x43#8, 0x67#8, 0x68#8, 0x7F#8, 0xEC#8, 0xFF#8, 0x66#8].map
      (fun a => stop (exec (.hrd a) State.reset)) =
    List.replicate 7 (some .hostUnmapped) ++ [none] := by decide +kernel
/-- The accepted edge values (V-H3). -/
theorem test_hwr : got (exec (.hwr 0x10#8 0xFF#24) State.reset) (fun t => (t.oscActive, t.oscWave)) =
      some (true, .sawtooth) ∧
    got (exec (.hwr 0x09#8 0x12345#24) State.reset) (·.count) = some 0x2345#16 ∧
    got (exec (.hwr 0x13#8 0x1FF#24) State.reset) (·.oscAmp) = some 0xFF#8 ∧
    got (exec (.hwr 0x01#8 9#24) State.reset) (·.ridx) = some 9 ∧
    got (exec (.hwr 0x11#8 0x9FFFFF#24) State.reset) (·.oscPhase) = some 0x9FFFFF#24 := by decide
/-- The refused writes (V-H2). -/
theorem test_hwr_refused : [(0x02#8, 0#24), (0x43#8, 0#24), (0xEC#8, 0#24), (0x00#8, 0#24), (0x05#8, 0#24), (0x0A#8, 0#24),
      (0x40#8, 0#24), (0x80#8, 0#24), (0x01#8, 10#24), (0x11#8, 0xA00000#24), (0x12#8, 0xA00000#24)].map
      (fun p => stop (exec (.hwr p.1 p.2) State.reset)) =
    List.replicate 3 (some .hostUnmapped) ++ List.replicate 5 (some .hostReadOnly) ++
      List.replicate 3 (some .hostBadValue) := by decide

/-! ### RXBYTE, MIDIEVENT and DACFRAME words -/

/-- The mask open and a byte waiting, the parser in a given state. -/
def waiting (r : RxState) (b : Byte) : State :=
  { State.reset with gie := true, rxp := true, rxdata := b, rxState := r }

/-- The sample 0 of an inactive oscillator waiting to be sent. -/
def ticking : State := { State.reset with gie := true, smpp := true, tblValid := true }

/-- A Note Off status replaces an incomplete Note On (V-M10). -/
theorem test_stOff : got (exec (.stOff 0#4) { waiting .awaitingByte2 0x80#8 with q := [(0, 0x90#8), (1, 0x3C#8)] })
    (fun t => (t.rxState, t.q, t.out)) = some (.awaitingByte1, [(0, 0x80#8), (1, 0x3C#8)], [.txb 0x80#8]) := by decide
/-- The channel nibble is kept (V-M6). -/
theorem test_stOn : got (exec (.stOn 15#4) (waiting .idle 0x9F#8)) (fun t => (t.rxp, t.rxState, t.q, t.out)) =
    some (false, .awaitingByte1, [(0, 0x9F#8)], [.txb 0x9F#8]) := by decide
/-- With the mask closed, in a frame, with a tick waiting, with no byte waiting or another one, nothing is served
(60_exceptions.md R256, R257, R258, R259). -/
theorem test_stOn_held : [{ waiting .idle 0x9F#8 with gie := false }, { waiting .idle 0x9F#8 with frState := .byte1 },
      { waiting .idle 0x9F#8 with smpp := true }, { waiting .idle 0x9F#8 with rxp := false }, waiting .idle 0x90#8].all
      (fun s => got (exec (.stOn 15#4) s) id == some s) = true := by decide
/-- The third byte of a message completes the event, advances the index and copies the status (V-S2). -/
theorem test_other0 : got (exec (.other0 0x7F#7) { waiting .awaitingByte2 0x7F#8 with q := [(0, 0x90#8), (1, 0x3C#8)] })
    (fun t => (t.rxState, t.widx, t.q)) =
    some (.awaitingByte1, 1, [(0, 0x90#8), (1, 0x3C#8), (2, 0x7F#8), (4, 0x90#8)]) := by decide
/-- The index wraps from 9 to 0 (V-M8). -/
theorem test_other0_wrap : got (exec (.other0 0x49#7)
      { waiting .awaitingByte2 0x49#8 with widx := 9, q := [(0, 0x80#8), (36, 0x90#8), (37, 0x09#8)] })
    (fun t => (t.widx, t.q)) = some (0, [(0, 0x90#8), (36, 0x90#8), (37, 0x09#8), (38, 0x49#8)]) := by decide
/-- A control change is ignored in `IDLE` (V-M3). -/
theorem test_other101 : got (exec (.other101 0b10000#5) (waiting .idle 0xB0#8)) (fun t => (t.rxState, t.widx, t.q, t.out)) =
    some (.idle, 0, [], [.txb 0xB0#8]) := by decide
/-- A real-time byte is stored as data (V-M4). -/
theorem test_other11 : got (exec (.other11 0b111000#6) { waiting .awaitingByte1 0xF8#8 with q := [(0, 0x90#8)] })
    (fun t => (t.rxState, t.q)) = some (.awaitingByte2, [(0, 0x90#8), (1, 0xF8#8)]) := by decide
/-- The sample `0x7D0` is sent as the bytes `0x37, 0xD0` (V-S7, V-F1): the completion that hands over the second. -/
theorem test_dacFrame : got (exec (.dacFrame 0x7D0#12) { State.reset with frState := .byte1, cs := true, frSample := 0x7D0#12 })
    (fun t => (t.frState, t.cs, t.out)) = some (.byte2, true, [.dacb 0xD0#8]) := by decide
/-- A frame starts only for a tick, with the tick's sample (43_dac_framer.md R208). -/
theorem test_dacFrame_tick : got (exec (.dacFrame 0#12) ticking) (·.out) = some [.csAssert, .dacb 0x30#8] ∧
    [(0x7D0#12, ticking), (0#12, { ticking with gie := false }), (0#12, { ticking with smpp := false }),
      (0#12, { ticking with tblValid := false })].all (fun p => got (exec (.dacFrame p.1) p.2) id == some p.2) = true := by decide
/-- `90 3C 7F` yields one event (V-S2). -/
theorem test_midiEvent : got (exec (.midiEvent 1#1 0#4 0x3C#8 0x7F#8)
      { waiting .awaitingByte2 0x7F#8 with q := [(0, 0x90#8), (1, 0x3C#8)] }) (fun t => (t.widx, t.rxState, t.q)) =
    some (1, .awaitingByte1, [(0, 0x90#8), (1, 0x3C#8), (2, 0x7F#8), (4, 0x90#8)]) := by decide
/-- Note Off is queued like Note On (V-M1); an event that is not being assembled is not. -/
theorem test_midiEvent_off :
    [0#1, 1#1].map (fun t => got (exec (.midiEvent t 0#4 0x3C#8 0x40#8)
      { waiting .awaitingByte2 0x40#8 with q := [(0, 0x80#8), (1, 0x3C#8)] }) (fun t => (t.widx, t.q))) =
    [some (1, [(0, 0x80#8), (1, 0x3C#8), (2, 0x40#8), (4, 0x80#8)]), some (0, [(0, 0x80#8), (1, 0x3C#8)])] := by decide

/-! ### The register rows -/

/-- A state with distinct register values. -/
def regs : State :=
  { State.reset with
    widx := 7, ridx := 3, gie := true, smpp := true, rxp := true, ten := true, count := 999#16, cnt := 42#16
    oscActive := true, oscWave := .square, oscPhase := 0x123456#24, oscInc := 0x046666#24, oscAmp := 17#8
    q := [(38, 0x49#8)] }

theorem test_qWidx : got (exec (.qWidx .rd) regs) (·.hostOut) = some [7#24] := by decide
theorem test_qRidx : got (exec (.qRidx .rd) regs) (·.hostOut) = some [3#24] := by decide
theorem test_qRidx_write : got (exec (.qRidx (.wr 0x39#24)) regs) (·.ridx) = some 9 := by decide
theorem test_irqCtrl : got (exec (.irqCtrl .rd) regs) (·.hostOut) = some [1#24] := by decide
theorem test_irqCtrl_write : got (exec (.irqCtrl (.wr 0xFE#24)) regs) (·.gie) = some false := by decide
/-- `SMPP` is bit 0 and `RXP` bit 1 (30_encoding.md R106). -/
theorem test_irqPend : got (exec (.irqPend .rd) { regs with smpp := false }) (·.hostOut) = some [2#24] := by decide
theorem test_tmrCtrl_write : got (exec (.tmrCtrl (.wr 2#24)) regs) (·.ten) = some false := by decide
theorem test_tmrCount : got (exec (.tmrCount .rd) regs) (·.hostOut) = some [999#24] := by decide
theorem test_tmrCnt : got (exec (.tmrCnt .rd) regs) (·.hostOut) = some [42#24] := by decide
/-- `OSC_ACTIVE` is bit 0 and `OSC_WAVE` bits 2:1 (30_encoding.md R106). -/
theorem test_oscCtrl : got (exec (.oscCtrl .rd) regs) (·.hostOut) = some [5#24] := by decide
theorem test_oscCtrl_write : got (exec (.oscCtrl (.wr 2#24)) regs) (fun t => (t.oscActive, t.oscWave)) =
    some (false, .triangle) := by decide
theorem test_oscPhase : got (exec (.oscPhase .rd) regs) (·.hostOut) = some [0x123456#24] := by decide
theorem test_oscInc_write : got (exec (.oscInc (.wr 0x9FFFFF#24)) regs) (fun t => (t.oscInc, t.oscPhase)) =
    some (0x9FFFFF#24, 0x123456#24) := by decide
theorem test_oscAmp_write : got (exec (.oscAmp (.wr 0x1FF#24)) regs) (·.oscAmp) = some 0xFF#8 := by decide
theorem test_qSlot : got (exec (.qSlot 9#4 2#2 .rd) regs) (·.hostOut) = some [0x49#24] := by decide
theorem test_nft : got (exec (.nft 57#7 .rd) regs) (·.hostOut) = some [0x046666#24] := by decide +kernel
theorem test_nft_write : stop (exec (.nft 57#7 (.wr 0#24)) regs) = some .hostReadOnly := by decide

/-! ### Witnesses: a state and operands that meet the hypotheses of each statement, clause by clause -/

/-- The operation is done, and the next state meets a test. -/
def leads (i : Instr) (s : State) (p : State → Bool) : Bool :=
  match exec i s with
  | .next t => p t
  | .fault _ => false
  | .refused _ => false

/-- The operations are done, and the last state meets a test. -/
def leadsRun (is : List Instr) (s : State) (p : State → Bool) : Bool :=
  match runOps is s with
  | .next t => p t
  | .fault _ => false
  | .refused _ => false

theorem playing_inv : Inv { playing with smpp := true } := by
  refine ⟨by decide, by decide, rfl, rfl, ?_, ?_, ?_, ?_, ?_, ?_, ?_⟩
  · intro c hc; cases hc
  · intro i b h; cases h
  · intro i f b _ h; cases h
  · intro h; exact absurd rfl h
  · intro h; cases h
  · dsimp only [playing]; exact filledTables_wf
  · intro _; dsimp only [playing]

theorem playing_inv_quiet : Inv playing := by
  refine ⟨by decide, by decide, rfl, rfl, ?_, ?_, ?_, ?_, ?_, ?_, ?_⟩
  · intro c hc; cases hc
  · intro i b h; cases h
  · intro i f b _ h; cases h
  · intro h; exact absurd rfl h
  · intro h; cases h
  · dsimp only [playing]; exact filledTables_wf
  · intro _; dsimp only [playing]

theorem ticking_inv : Inv { playing with smpp := true, oscActive := false } := by
  have h := playing_inv
  exact ⟨h.phase_lt, h.inc_lt, h.cs_iff, h.q_wf, h.q_slots, h.status_class, h.data_class, h.status_written,
    h.note_written, h.wt_wf, h.tables_filled⟩

theorem reset_inv : Inv (place .trace [0x04#8] State.reset) := by
  refine ⟨by decide, by decide, rfl, rfl, ?_, ?_, ?_, ?_, ?_, rfl, ?_⟩
  · intro c hc; cases hc
  · intro i b h; cases h
  · intro i f b _ h; cases h
  · intro h; exact absurd rfl h
  · intro h; cases h
  · intro h; cases h

theorem witness_ResetDropsPartialMessage : (∃ t, exec .rst (waiting .awaitingByte2 0x3C#8) = .next t) ∧
    ∀ b ∈ [0x3C#8, 0x7F#8, 0xFE#8], isStatusByte b = false := ⟨⟨_, rfl⟩, by decide⟩
theorem witness_InitFillsTables : (∃ t, exec .init State.reset = .next t) ∧ 0 < 160 ∧ 159 < 160 :=
  ⟨⟨_, by simp only [exec, execInit]; rfl⟩, by decide, by decide⟩
theorem witness_SineTableFormula : 0 < 160 ∧ 40 < 160 ∧ 159 < 160 := by decide
theorem witness_WaveformFormulas : triangle 80 = 255 ∧ triangle 159 = 3 ∧ square 79 = 255 ∧ square 80 = 0 ∧ sawtooth 159 = 253 := by
  decide +kernel
theorem witness_WavetableProperties : sine 1 = sine (160 - 1) ∧ triangle 159 = triangle (160 - 159) := by decide +kernel
theorem witness_RxbLatchesByte : State.reset.rxp = false ∧ (waiting .idle 0#8).rxp = true := by decide
theorem witness_ParserTransitionTable :
    (∀ r, [waiting r 0x90#8, waiting r 0x8F#8].all (fun s => s.gie && decide (s.frState = .idle) && !s.smpp && s.rxp &&
      (hiNibble s.rxdata == 0b1001#4 || hiNibble s.rxdata == 0b1000#4)) = true) ∧
    ∀ r, [waiting r 0x00#8, waiting r 0x7F#8, waiting r 0xA0#8, waiting r 0xFF#8].all (fun s => s.gie &&
      decide (s.frState = .idle) && !s.smpp && s.rxp && decide (s.rxState = r) &&
      !(hiNibble s.rxdata == 0b1001#4 || hiNibble s.rxdata == 0b1000#4)) = true := by
  constructor <;> intro r <;> cases r <;> decide
theorem witness_ParserIdleRule :
    isStatusByte (waiting .idle 0x7F#8).rxdata = false ∧
    leads .svc (waiting .idle 0x90#8) (fun t => decide (t.rxState ≠ .idle)) = true ∧
    leads (.stOn 0#4) (waiting .idle 0x90#8) (fun t => decide (t.rxState ≠ .idle)) = true ∧
    leads .rst (waiting .awaitingByte1 0x90#8) (fun t => decide (t.rxState = .idle)) = true := by decide
/-- Each class has its word at a boundary value, served in each state of the parser and held for each reason. -/
theorem witness_RxByteRows : ((0b1000#4 ++ 0xF#4 : Byte) = 0x8F#8 ∧ (0b1001#4 ++ 0#4 : Byte) = 0x90#8 ∧
      (0b0#1 ++ 0x7F#7 : Byte) = 0x7F#8 ∧ (0b101#3 ++ 0#5 : Byte) = 0xA0#8 ∧ (0b11#2 ++ 0x3F#6 : Byte) = 0xFF#8) ∧
    (∀ r, [0x8F#8, 0x90#8, 0x7F#8, 0xA0#8, 0xFF#8].all (fun b => (waiting r b).gie &&
      decide ((waiting r b).frState = .idle) && !(waiting r b).smpp && (waiting r b).rxp &&
      decide ((waiting r b).rxdata = b) && decide ((waiting r b).rxState = r)) = true) ∧
    State.reset.gie = false ∧ { State.reset with frState := .byte1 }.frState ≠ .idle ∧ ticking.smpp = true ∧
    State.reset.rxp = false ∧ State.reset.rxdata ≠ 0x90#8 :=
  ⟨by decide, fun r => by cases r <;> decide, by decide⟩
/-- An event waiting for its last byte, served, and held for each of the reasons. -/
theorem witness_MidiEventRow :
    [{ waiting .awaitingByte2 0x7F#8 with q := [(0, 0x9F#8), (1, 0x00#8)] }].all (fun s => s.gie &&
      decide (s.frState = .idle) && !s.smpp && s.rxp && decide (s.rxdata = 0x7F#8) && !isStatusByte 0x7F#8 &&
      decide (s.rxState = .awaitingByte2) && decide (readSlot s s.widx .status = 0b100#3 ++ 1#1 ++ 0xF#4) &&
      decide (readSlot s s.widx .data0 = 0x00#8)) = true ∧
    State.reset.gie = false ∧ { State.reset with frState := .byte2 }.frState ≠ .idle ∧ ticking.smpp = true ∧
    State.reset.rxp = false ∧ State.reset.rxdata ≠ 0x7F#8 ∧ isStatusByte 0x80#8 = true ∧
    State.reset.rxState ≠ .awaitingByte2 ∧
    readSlot { State.reset with q := [(0, 0x9F#8), (1, 0x00#8)] } 0 .status ≠ 0b100#3 ++ 0#1 ++ 0xF#4 ∧
    readSlot { State.reset with q := [(0, 0x9F#8), (1, 0x00#8)] } 0 .data0 ≠ 0x01#8 := by decide
theorem witness_MidiRoundTrip : isStatusByte 0x90#8 = true ∧ isStatusByte 0x3C#8 = false ∧ isStatusByte 0x7F#8 = false ∧
    isStatusByte 0x40#8 = false ∧ isStatusByte 0x50#8 = false ∧
    { State.reset with gie := true }.gie = true ∧ { State.reset with gie := true }.frState = .idle ∧
    { State.reset with gie := true }.smpp = false ∧ { State.reset with gie := true }.rxp = false := by decide
theorem witness_ReceiveFrame : rxDispatchable (waiting .awaitingByte2 0x7F#8) = true ∧
    performs .svc (waiting .awaitingByte2 0x7F#8) = some .svc ∧
    performs (.other0 0x7F#7) (waiting .awaitingByte2 0x7F#8) = some .svc ∧
    leads .svc (waiting .awaitingByte2 0x7F#8) (fun _ => true) = true ∧
    leads (.other0 0x7F#7) (waiting .awaitingByte2 0x7F#8) (fun _ => true) = true ∧
    (12 : Nat) ∉ servedStores 0x7F#8 (waiting .awaitingByte2 0x7F#8) := by decide
/-- Eight shown, and nine shown, with the third byte of an event waiting. -/
theorem witness_QueueCompletionCount :
    [{ waiting .awaitingByte2 0x7F#8 with widx := 8 }, { waiting .awaitingByte2 0x7F#8 with widx := 9 }].all (fun s =>
      s.gie && decide (s.frState = .idle) && !s.smpp && s.rxp && completes s.rxdata s) = true ∧
    shownCount { waiting .awaitingByte2 0x7F#8 with widx := 8 } = 8 ∧
    shownCount { waiting .awaitingByte2 0x7F#8 with widx := 9 } = 9 := by decide
theorem witness_ShownEventsGrow : rxDispatchable (waiting .awaitingByte1 0x7F#8) = true ∧
    completes 0x7F#8 (waiting .awaitingByte1 0x7F#8) = false ∧
    rxDispatchable { waiting .awaitingByte2 0x7F#8 with widx := 8 } = true ∧
    completes 0x7F#8 { waiting .awaitingByte2 0x7F#8 with widx := 8 } = true ∧
    shownCount { waiting .awaitingByte2 0x7F#8 with widx := 8 } ≤ 8 := by decide
theorem witness_ContentsAfterMessages :
    (∀ m ∈ [Message.mk 0x90#8 0x3C#8 0x7F#8, Message.mk 0x80#8 0x3C#8 0x00#8], m.ok = true) ∧
    [Message.mk 0x90#8 0x3C#8 0x7F#8, Message.mk 0x80#8 0x3C#8 0x00#8][1]? = some (Message.mk 0x80#8 0x3C#8 0x00#8) ∧
    [Message.mk 0x90#8 0x3C#8 0x7F#8].getLast? = some (Message.mk 0x90#8 0x3C#8 0x7F#8) ∧
    { State.reset with gie := true }.gie = true ∧ State.reset.widx = 0 ∧ State.reset.ridx = 0 := by decide
theorem witness_ReadIndexUnread : Instr.svc ≠ .rst ∧ ∀ acc, hostOperand .svc ≠ some (0x01#8, acc) := by
  simp [hostOperand]
theorem witness_SvcDispatch : svcEnabled { waiting .idle 0x7F#8 with smpp := true, tblValid := true } = true ∧
    svcEnabled (waiting .idle 0x7F#8) = true ∧ svcEnabled State.reset = false ∧
    leads .svc { waiting .idle 0x7F#8 with smpp := true, tblValid := true } (fun t => t.rxp) = true ∧
    leads .svc (waiting .idle 0x7F#8) (fun t => !t.rxp) = true := by decide
theorem witness_ClkRule : State.reset.ten = false ∧
    [{ State.reset with ten := true }, { State.reset with ten := true, smpp := true }].all (fun s =>
      s.ten && decide (s.cnt = s.count)) = true ∧
    { State.reset with ten := true, cnt := 0xFFFF#16 }.cnt ≠ 0#16 := by decide
theorem witness_TimerPeriod : 0 < clocksToMatch { State.reset with ten := true } ∧
    { State.reset with ten := true, cnt := 5#16, count := 2#16 }.count.toNat < 5 := by decide
theorem witness_PendingBits :
    leads .svc (waiting .idle 0x7F#8) (fun t => !t.rxp) = true ∧
    leads (.other0 0x7F#7) (waiting .idle 0x7F#8) (fun t => !t.rxp) = true ∧
    leads .svc ticking (fun t => !t.smpp) = true ∧ leads (.dacFrame 0#12) ticking (fun t => !t.smpp) = true ∧
    leads .rst { ticking with rxp := true } (fun t => !t.rxp && !t.smpp) = true ∧
    leads (.rxb 0x90#8) State.reset (fun t => t.rxp) = true ∧
    leads .clk { State.reset with ten := true } (fun t => t.smpp) = true := by decide
theorem witness_MaskedSection :
    (∀ i ∈ [Instr.rxb 0x90#8, .svc, .stOn 0#4, .clk, .hwr 0x12#8 0x10000#24, .tmrCount .rd],
      i ≠ .rst ∧ hostWrites i ≠ some .irqCtrl ∧ hostWrites i ≠ some .oscPhase) ∧
    leadsRun [.rxb 0x90#8, .svc, .stOn 0#4, .clk, .hwr 0x12#8 0x10000#24, .tmrCount .rd] State.reset (fun t => t.rxp) = true ∧
    State.reset.gie = false ∧
    leadsRun (critOps [.rxb 0x90#8, .svc, .stOn 0#4]) { State.reset with gie := true } (fun t => t.rxp) = true := by decide
theorem witness_ServicesCommute :
    leadsRun [.svc, .xdone, .xdone, .svc] { waiting .idle 0x90#8 with smpp := true, tblValid := true } (fun t => !t.rxp) =
      true := by decide
/-- A run with a tick and a byte served in time, and one that completes an event with eight shown. -/
theorem witness_PromptRuns :
    (holdsAlong transportPrompt [.rxb 0x90#8, .svc, .clk, .svc, .xdone, .xdone]
        { ticking with smpp := false, ten := true } ∧
      holdsAlong servicePrompt [.rxb 0x90#8, .svc, .clk, .svc, .xdone, .xdone]
        { ticking with smpp := false, ten := true } ∧
      holdsAlong maskShort [.rxb 0x90#8, .svc, .clk, .svc, .xdone, .xdone]
        { ticking with smpp := false, ten := true }) ∧
    leadsRun [.rxb 0x90#8, .svc, .clk, .svc, .xdone, .xdone] { ticking with smpp := false, ten := true }
      (fun t => !t.rxp) = true ∧
    (leadsRun [.rxb 0x90#8, .svc] { ticking with smpp := false, ten := true } timerMatch = true ∧
      ∀ i ∈ [Instr.svc, .xdone, .xdone], ∀ b, i ≠ .rxb b) ∧
    holdsAlong consumerPrompt [.svc] { waiting .awaitingByte2 0x7F#8 with widx := 8 } ∧
    leadsRun [.svc] { waiting .awaitingByte2 0x7F#8 with widx := 8 } (fun t => decide (shownCount t = 9)) = true ∧
    Instr.svc ≠ .rst ∧ hostWrites .svc ≠ some .qRidx := by
  refine ⟨⟨?_, ?_, ?_⟩, by decide, ⟨by decide, by simp⟩, ?_, by decide, by decide, by decide⟩
  · iterate 6 refine (holdsAlong_cons _ _ _ _ _ rfl).mpr ⟨by unfold transportPrompt; decide, ?_⟩
    exact trivial
  · iterate 6
      refine (holdsAlong_cons _ _ _ _ _ rfl).mpr
        ⟨by first | exact fun h => absurd h (by decide) | exact fun _ => ⟨rfl, fun _ => nofun⟩, ?_⟩
    exact trivial
  · iterate 6 refine (holdsAlong_cons _ _ _ _ _ rfl).mpr ⟨by unfold maskShort; decide, ?_⟩
    exact trivial
  · exact (holdsAlong_cons _ _ _ _ _ rfl).mpr ⟨by unfold consumerPrompt; decide, trivial⟩

theorem witness_SampleServiceActive :
    ∃ s : State, Inv s ∧ s.gie = true ∧ s.frState = .idle ∧ s.smpp = true ∧ s.tblValid = true ∧ s.oscActive = true :=
  ⟨_, playing_inv, rfl, rfl, rfl, rfl, rfl⟩
/-- The refusal is V-O16. -/
theorem witness_SampleServiceInactive :
    leads .svc { State.reset with gie := true, smpp := true, tblValid := true } (fun t => t.cs) = true ∧
    stop (exec .svc { State.reset with gie := true, smpp := true }) = some .tablesNotReady := by decide
theorem witness_AdvanceRule : 0xA00000 ≤ (0x9F0000#24).toNat + (0x010000#24).toNat ∧
    (0x9F0000#24).toNat + (0x00FFFF#24).toNat < 0xA00000 ∧ (0x9FFFFF#24).toNat < 0xA00000 := by decide
theorem witness_InterpolationRule : (253#8).toNat < (255#8).toNat ∧ (0#8).toNat < (1#8).toNat := by decide
theorem witness_ScaleRule : 17 ≤ (17#8).toNat ∧ 4095 < (255#8).toNat * (17#8).toNat := by decide
theorem witness_PitchLaw : ∃ s : State, Inv s ∧ s.gie = true ∧ s.ten = true ∧ s.tblValid = true ∧ s.oscActive = true ∧
    s.frState = .idle ∧ s.smpp = false := ⟨_, playing_inv_quiet, rfl, rfl, rfl, rfl, rfl, rfl⟩
theorem witness_XdoneRule : { State.reset with frState := .byte1 }.frState = .byte1 ∧
    { State.reset with frState := .byte2 }.frState = .byte2 ∧ State.reset.frState = .idle := by decide
theorem witness_WholeFrame : ∃ s : State, Inv s ∧ s.gie = true ∧ s.frState = .idle ∧ s.smpp = true ∧ s.tblValid = true :=
  ⟨_, playing_inv, rfl, rfl, rfl, rfl⟩
theorem witness_DacFrameRow :
    (∃ s : State, Inv s ∧ s.gie = true ∧ s.frState = .idle ∧ s.smpp = true ∧ s.tblValid = true ∧ s.oscActive = true) ∧
    (∃ s : State, Inv s ∧ s.gie = true ∧ s.frState = .idle ∧ s.smpp = true ∧ s.tblValid = true ∧ s.oscActive = false ∧
      tickSample s = 0#12) ∧
    [{ State.reset with frState := .byte1, frSample := 0xFFF#12 },
      { State.reset with frState := .byte2, frSample := 0xFFF#12 }].all (fun s => s.frSample == 0xFFF#12) = true ∧
    ({ State.reset with frState := .byte1 }.frState ≠ .idle ∧ State.reset.frSample ≠ 0xFFF#12) ∧
    State.reset.gie = false ∧ State.reset.smpp = false ∧ State.reset.tblValid = false ∧ tickSample ticking ≠ 0xFFF#12 :=
  ⟨⟨_, playing_inv, rfl, rfl, rfl, rfl, rfl⟩, ⟨_, ticking_inv, rfl, rfl, rfl, rfl, rfl, rfl⟩, by decide, by decide,
    by decide⟩
/-- A stuck run with words of every kind in it; and an endless run that meets the premise of transport progress. -/
theorem witness_StuckTransport :
    holdsAlong (fun i u => i ≠ .rst ∧ performs i u ≠ some .xdone)
      [.rxb 0x90#8, .svc, .clk, .stOn 0#4, .dacFrame 1#12, .hwr 0x13#8 0#24]
      { State.reset with frState := .byte1, gie := true, ten := true } ∧
    leadsRun [.rxb 0x90#8, .svc, .clk, .stOn 0#4, .dacFrame 1#12, .hwr 0x13#8 0#24]
      { State.reset with frState := .byte1, gie := true, ten := true } (fun t => t.rxp && t.smpp) = true ∧
    ∃ (sched : ℕ → Instr) (states : ℕ → State), (∀ n, exec (sched n) (states n) = .next (states (n + 1))) ∧
      TransportProgress sched states ∧ (states 0).frState ≠ .idle := by
  refine ⟨?_, by decide, fun _ => .xdone, fun n => if n = 0 then { State.reset with frState := .byte2 } else
    completion { State.reset with frState := .byte2 }, fun n => ?_, fun n _ => ⟨n, Nat.le_refl n, rfl⟩, by decide⟩
  · iterate 6 refine (holdsAlong_cons _ _ _ _ _ rfl).mpr ⟨by decide, ?_⟩
    exact trivial
  · cases n <;> rfl
theorem witness_OutputEvents :
    leads .svc { ticking with rxp := true } (fun t => t.out == [.csAssert, .dacb 0x30#8]) = true ∧
    leads (.stOn 0#4) (waiting .idle 0x90#8) (fun t => t.out == [.txb 0x90#8]) = true := by decide
theorem witness_HostReadRegisters : regs.q.read (slotAddr 9 .data1) = some 0x49#8 ∧
    [0x02#8, 0x03#8, 0x0B#8, 0x3F#8, 0x43#8, 0x67#8, 0x7F#8, 0xEC#8, 0xFF#8].all isUnmapped = true ∧
    [0x00#8, 0x13#8, 0x40#8, 0x66#8, 0x80#8, 0xEB#8].any isUnmapped = false := by decide
theorem witness_HostWriteRegisters : (9#24).toNat % 16 < 10 ∧ (0x9FFFFF#24).toNat < 0xA00000 ∧
    (7#24).toNat / 2 % 4 = (Wave.sawtooth).tag.toNat := by decide
theorem witness_HostWriteRefusals : isUnmapped 0x67#8 = true ∧ isReadOnly 0x66#8 = true ∧ isReadOnly 0xEB#8 = true ∧
    isBadValue 0x01#8 0x1A#24 = true ∧ isBadValue 0x12#8 0xA00000#24 = true ∧ isUnmapped 0x13#8 = false ∧
    isReadOnly 0x13#8 = false ∧ isBadValue 0x13#8 0xFFFFFF#24 = false := by decide
theorem witness_RegisterRowsRead : (9#4).toNat < 10 ∧ (107#7).toNat < 108 ∧ 10 ≤ (10#4).toNat ∧ 108 ≤ (108#7).toNat ∧
    regs.q.read (slotAddr 9 .data1) = some 0x49#8 := by decide
theorem witness_RegisterRowsWrite : (9#24).toNat % 16 < 10 ∧ 10 ≤ (10#24).toNat % 16 ∧ 0xA00000 ≤ (0xA00000#24).toNat ∧
    slotFieldMapped 9#4 2#2 = true ∧ noteMapped 107#7 = true ∧ (6#24).toNat / 2 % 4 = (Wave.sawtooth).tag.toNat := by decide
theorem witness_ReadsHaveNoSideEffect : hostOperand (.hrd 0x11#8) = some (0x11#8, .rd) ∧
    hostOperand (.oscAmp (.wr 3#24)) = some (0x13#8, .wr 3#24) ∧ leads (.hrd 0x11#8) regs (fun _ => true) = true ∧
    leads (.oscAmp (.wr 3#24)) regs (fun _ => true) = true := by decide
/-- Each element of the ownership table is changed by its owner. -/
theorem witness_Ownership :
    leads .svc { waiting .awaitingByte2 0x7F#8 with q := [(0, 0x90#8)] } (fun t => decide (t.widx = 1) && decide (t.q ≠ [])) = true ∧
    leads (.qRidx (.wr 1#24)) State.reset (fun t => decide (t.ridx = 1)) = true ∧
    leads .svc (waiting .idle 0x7F#8) (fun t => !t.rxp) = true ∧
    leads .clk { State.reset with ten := true } (fun t => t.smpp) = true ∧ leads .svc ticking (fun t => !t.smpp) = true ∧
    leads (.rxb 0x90#8) State.reset (fun t => t.rxp && decide (t.rxdata = 0x90#8)) = true ∧
    leads .clk { State.reset with ten := true, count := 1#16 } (fun t => decide (t.cnt = 1#16)) = true ∧
    sampleResult (voice .sawtooth 1 1#8 2 3#8 0x010000#24 0x00FFFF#24 1#8) ≠ none ∧
    leads .xdone { State.reset with frState := .byte2, cs := true } (fun t => !t.cs) = true ∧
    leads (.hwr 0x11#8 1#24) State.reset (fun t => decide (t.oscPhase = 1#24)) = true ∧
    leads (.hwr 0x10#8 3#24) State.reset (fun t => t.oscActive && decide (t.oscWave = .triangle)) = true ∧
    leads (.hwr 0x12#8 1#24) State.reset (fun t => decide (t.oscInc = 1#24)) = true ∧
    leads (.hwr 0x13#8 1#24) State.reset (fun t => decide (t.oscAmp = 1#8)) = true ∧
    leads (.hwr 0x04#8 1#24) State.reset (fun t => t.gie) = true ∧
    leads (.hwr 0x08#8 1#24) State.reset (fun t => t.ten) = true ∧
    leads (.hwr 0x09#8 1#24) State.reset (fun t => decide (t.count = 1#16)) = true ∧
    leads .init State.reset (fun t => t.tblValid) = true ∧
    leads (.hrd 0x09#8) State.reset (fun t => decide (t.hostOut ≠ [])) = true := by decide
theorem witness_PopReturnsOldest : queueEmpty State.reset = true ∧ queueEmpty { State.reset with widx := 1 } = false := by
  decide
theorem witness_RefusalsComplete :
    stop (exec (.rxb 0#8) (waiting .idle 0#8)) = some .rxOverrun ∧
    stop (exec .svc { State.reset with gie := true, smpp := true }) = some .tablesNotReady ∧
    stop (exec (.hrd 0x43#8) State.reset) = some .hostUnmapped ∧
    stop (exec (.tmrCnt (.wr 0#24)) State.reset) = some .hostReadOnly ∧
    stop (exec (.oscInc (.wr 0xA00000#24)) State.reset) = some .hostBadValue := by decide
theorem witness_NoFault : Inv (place .trace [0x04#8] State.reset) ∧ Reachable (place .trace [0x04#8] State.reset) :=
  ⟨reset_inv, .start _ _⟩
theorem witness_TraceReserved : 0x08 ≤ (0x08#8).toNat ∧ ([0x12#8, 0#8, 0#8] : List Byte).length < 4 := by decide
theorem witness_InvKept : Inv (place .trace [0x04#8] State.reset) ∧
    ∃ t, step (place .trace [0x04#8] State.reset) = .next t := ⟨reset_inv, _, rfl⟩
theorem witness_BusFramesKept :
    BusInv true { State.reset with frState := .byte1, cs := true, out := [.csAssert, .dacb 0x30#8], input := [0x05#8] } ∧
    BusInv false { State.reset with frState := .byte1, cs := true, out := [.csAssert, .dacb 0x30#8] } ∧
    (∃ t, step { State.reset with frState := .byte1, cs := true, out := [.csAssert, .dacb 0x30#8], input := [0x05#8] } =
      .next t) ∧
    (∃ t, exec .xdone { State.reset with frState := .byte1, cs := true, out := [.csAssert, .dacb 0x30#8] } = .next t) ∧
    Instr.xdone ≠ .rst :=
  ⟨⟨[], .none, rfl⟩, ⟨[], .none, rfl⟩, ⟨_, rfl⟩, ⟨_, rfl⟩, by decide⟩
theorem witness_DecodeEncode : (Instr.qSlot 9#4 2#2 (.wr 0xABCDEF#24)).wellFormed = true ∧
    (Instr.midiEvent 1#1 15#4 0xFF#8 0x80#8).wellFormed = true := by decide
theorem witness_EncodeDecode : decode .hregWrite [0x66#8, 0xAB#8, 0xCD#8, 0xEF#8, 0x00#8] =
    .ok (.qSlot 9#4 2#2 (.wr 0xABCDEF#24)) [0x00#8] := by decide
theorem witness_StepRunsDecoded : decode .trace (place .trace [0x02#8, 0x05#8] State.reset).input = .ok .clk [0x05#8] ∧
    decode .trace (place .trace [0x08#8] State.reset).input = .error .traceReserved ∧
    (place .trace [0x02#8, 0x05#8] State.reset).input ≠ [] ∧ State.reset.input = [] ∧
    performs (.stOn 0#4) State.reset = none ∧ performs (.stOn 0#4) (waiting .idle 0x90#8) = some .svc := by decide
theorem witness_ProgramRuns : ∀ i ∈ [Instr.rst, .init, .hwr 0x09#8 3#24, .clk, .rxb 0x90#8, .svc, .xdone, .hrd 0#8],
    i.format = .trace := by decide

end Sys2Proof.Tests
end

section
/-! PROOFS. The scope's statements (00_scope.md R8): a step runs the word it reads, and a program's bytes placed as
input run as its operations do. The key fact is that no operation reads or changes the input. -/

namespace Sys2Proof.Machine

/-! ### A step, by what its input decodes to -/

theorem step_of_input_nil (s : State) (h : s.input = []) : step s = .next s := by
  simp [step, fetch, h]

theorem step_of_decode_ok (s : State) (i : Instr) (rest : List Byte) (hne : s.input ≠ [])
    (h : decode s.format s.input = .ok i rest) : step s = exec i { s with input := rest } := by
  obtain ⟨b, bs, hin⟩ := List.exists_cons_of_ne_nil hne
  rw [hin] at h
  simp [step, fetch, hin, h]

theorem step_of_decode_error (s : State) (e : DecodeError) (hne : s.input ≠ [])
    (h : decode s.format s.input = .error e) : step s = .refused (refusalOf e) := by
  obtain ⟨b, bs, hin⟩ := List.exists_cons_of_ne_nil hne
  rw [hin] at h
  simp [step, fetch, hin, h]

/-! ### The operation an instruction performs -/

theorem exec_of_performs_none (i : Instr) (s : State) (h : performs i s = none) : exec i s = .next s := by
  rw [exec_performs, h]

theorem exec_of_performs_some (i o : Instr) (s : State) (h : performs i s = some o) : exec i s = exec o s := by
  rw [exec_performs, h]

/-- Settles O59: the three answers of a step by what the input decodes to, and `exec` by what it performs. -/
theorem stepRunsDecoded : Obligations.StepRunsDecoded :=
  ⟨step_of_decode_ok, step_of_decode_error, step_of_input_nil, fun i s =>
    ⟨exec_of_performs_none i s, fun o h => ⟨performs_trace i o s h, exec_of_performs_some i o s h⟩⟩⟩

/-! ### The eight operations -/

theorem access_format_ne_trace (acc : HostAccess) : acc.format ≠ .trace := by cases acc <;> nofun

/-- The instructions of format TRACE are the eight operations (00_scope.md R8, 30_encoding.md R111). -/
theorem format_trace_cases (i : Instr) (h : i.format = .trace) :
    i = .rst ∨ i = .init ∨ i = .clk ∨ (∃ b, i = .rxb b) ∨ i = .svc ∨ i = .xdone ∨ (∃ a, i = .hrd a) ∨
      ∃ a v, i = .hwr a v := by
  cases i <;> simp [Instr.format, access_format_ne_trace] at h ⊢

/-! ### The operations neither read nor change the input -/

/-- An outcome with bytes placed as the input of its next state. -/
def placeNext (f : Format) (bs : List Byte) : StepOutcome → StepOutcome
  | .next s => .next (place f bs s)
  | .fault r => .fault r
  | .refused r => .refused r

@[simp] theorem placeNext_next (f : Format) (bs : List Byte) (s : State) :
    placeNext f bs (.next s) = .next (place f bs s) := rfl

@[simp] theorem placeNext_fault (f : Format) (bs : List Byte) (r : Fault) :
    placeNext f bs (.fault r) = .fault r := rfl

@[simp] theorem placeNext_refused (f : Format) (bs : List Byte) (r : Refusal) :
    placeNext f bs (.refused r) = .refused r := rfl

section
variable (f : Format) (bs : List Byte) (s : State)

theorem execInit_place : execInit (place f bs s) = placeNext f bs (execInit s) := by
  simp only [execInit, placeNext_next, place]

theorem execClk_place : execClk (place f bs s) = placeNext f bs (execClk s) := by
  simp only [execClk, apply_ite (placeNext f bs)]
  rfl

theorem arrive_place (b : Byte) : arrive b (place f bs s) = placeNext f bs (arrive b s) := by
  simp only [arrive, apply_ite (placeNext f bs)]
  rfl

theorem serveByte_place (b : Byte) : serveByte b (place f bs s) = place f bs (serveByte b s) := by
  rw [serveByte_congr b s (place f bs s) rfl rfl rfl rfl, serveByte_frame b s]
  rfl

theorem sampleService_place : sampleService (place f bs s) = placeNext f bs (sampleService s) := by
  simp only [sampleService, apply_ite (placeNext f bs)]
  rfl

theorem execSvc_place : execSvc (place f bs s) = placeNext f bs (execSvc s) := by
  simp only [execSvc, apply_ite (placeNext f bs), ← sampleService_place, placeNext_next, rxService, ← serveByte_place]
  rfl

theorem completion_place : completion (place f bs s) = place f bs (completion s) := by
  simp only [completion, place_frState]
  cases s.frState <;> rfl

theorem readReg_place (r : HReg) : readReg r (place f bs s) = readReg r s := by cases r <;> rfl

theorem writeReg_place (r : HReg) (v : Word24) : writeReg r v (place f bs s) = placeNext f bs (writeReg r v s) := by
  cases r
  case qRidx =>
    simp only [writeReg, writeRidx, apply_dite (placeNext f bs)]
    rfl
  case oscPhase =>
    simp only [writeReg, writePhase, apply_ite (placeNext f bs)]
    rfl
  case oscInc =>
    simp only [writeReg, writeInc, apply_ite (placeNext f bs)]
    rfl
  all_goals rfl

theorem hostAccess_place (a : Byte) (acc : HostAccess) :
    hostAccess a acc (place f bs s) = placeNext f bs (hostAccess a acc s) := by
  cases hr : regOfAddr a with
  | none => simp only [hostAccess_unmapped _ _ _ hr, placeNext_refused]
  | some r =>
    simp only [hostAccess_mapped a r acc _ hr]
    cases acc with
    | rd => rw [readReg_place]; rfl
    | wr v => exact writeReg_place f bs s r v

/-- An operation does the same whatever input stands after it, and leaves that input as it is (log 1). -/
theorem exec_place (i : Instr) (h : i.format = .trace) : exec i (place f bs s) = placeNext f bs (exec i s) := by
  rcases format_trace_cases i h with rfl | rfl | rfl | ⟨b, rfl⟩ | rfl | rfl | ⟨a, rfl⟩ | ⟨a, v, rfl⟩
  · rfl
  · exact execInit_place f bs s
  · exact execClk_place f bs s
  · exact arrive_place f bs s b
  · exact execSvc_place f bs s
  · exact congrArg Host.Outcome.next (completion_place f bs s)
  · exact hostAccess_place f bs s a .rd
  · exact hostAccess_place f bs s a (.wr v)

end

/-! ### A program placed as input -/

/-- A TRACE word decodes to the operation it encodes, with the bytes after it (30_encoding.md R111). -/
theorem decode_encode_trace (i : Instr) (rest : List Byte) (h : i.format = .trace) :
    decode .trace (encode i ++ rest) = .ok i rest := by
  rcases format_trace_cases i h with rfl | rfl | rfl | ⟨b, rfl⟩ | rfl | rfl | ⟨a, rfl⟩ | ⟨a, v, rfl⟩
  on_goal 8 => simp [decode, decodeTrace, encode, bytesOfWord24]
  all_goals rfl

theorem encode_ne_nil (i : Instr) : encode i ≠ [] := by cases i <;> simp [encode]

/-- A step on an operation's bytes runs it in the state before, with the bytes after it left as input. -/
theorem step_place_encode (i : Instr) (rest : List Byte) (s : State) (h : i.format = .trace) :
    step (place .trace (encode i ++ rest) s) = placeNext .trace rest (exec i s) := by
  have hne : (place .trace (encode i ++ rest) s).input ≠ [] :=
    List.append_ne_nil_of_left_ne_nil (encode_ne_nil i) rest
  rw [step_of_decode_ok _ i rest hne (decode_encode_trace i rest h), ← exec_place .trace rest s i h]
  rfl

/-- Settles O60, by induction on the operations: each step takes one operation's bytes and runs it, and what is left of
the input does not matter to it. -/
theorem programRuns : Obligations.ProgramRuns := by
  intro ops
  induction ops with
  | nil => exact fun s _ => rfl
  | cons i is ih =>
    intro s hf
    obtain ⟨hi, his⟩ := List.forall_mem_cons.mp hf
    have hstep : core.step (place .trace (encodeProgram (i :: is)) s) =
        placeNext .trace (encodeProgram is) (exec i s) := step_place_encode i (encodeProgram is) s hi
    simp only [List.length_cons, Host.Core.run, hstep, runOps, exec_place .trace [] s i hi]
    cases exec i s with
    | next t => exact ih t his
    | fault r => rfl
    | refused r => rfl

end Sys2Proof.Machine
end

section
/-! PROOFS. The state's statements (10_state.md): the reset values, the invariant of the block's state, which holds
after reset and is kept by every operation, and the read index, which no operation but the host's access reads. -/

namespace Sys2Proof.Machine

/-! ### The reset values (10_state.md R49) -/

theorem reset_holdsResetValues : holdsResetValues State.reset := by simp [holdsResetValues, State.reset]

theorem resetBlock_holdsResetValues (s : State) : holdsResetValues (resetBlock s) := by
  simp [holdsResetValues, resetBlock]

/-- Settles O1: both states are literals, and `RST` answers `resetBlock` in every state. -/
theorem resetStateValues : Obligations.ResetStateValues :=
  ⟨reset_holdsResetValues, fun s => ⟨resetBlock s, rfl, resetBlock_holdsResetValues s⟩⟩

/-- The reset values with nothing written to the storage meet the invariant. -/
theorem inv_of_holdsResetValues (s : State) (h : holdsResetValues s) (hq : s.q = []) (hwt : s.wt = []) : Inv s := by
  obtain ⟨-, -, hphase, hinc, -, hrx, hfr, -, -, -, -, htbl, hcs, -⟩ := h
  exact {
    phase_lt := by rw [hphase]; decide
    inc_lt := by rw [hinc]; decide
    cs_iff := by rw [hcs, (frameInProgress_false_iff s).mpr hfr]
    q_wf := by rw [hq]; rfl
    q_slots := by simp [hq]
    status_class := by simp [hq, Memory.read]
    data_class := by simp [hq, Memory.read]
    status_written := absurd hrx
    note_written := by simp [hrx]
    wt_wf := by rw [hwt]; rfl
    tables_filled := by simp [htbl] }

theorem inv_reset : Inv State.reset := inv_of_holdsResetValues _ reset_holdsResetValues rfl rfl

/-- The invariant says nothing of the input. -/
theorem inv_place (f : Format) (bs : List Byte) (s : State) (h : Inv s) : Inv (place f bs s) := { h with }

/-- Settles O52: the reset values meet the invariant of the state, and the empty history is no frames. -/
theorem invReset : Obligations.InvReset := fun f bs => ⟨inv_place f bs _ inv_reset, [], .none, rfl⟩

/-! ### The queue storage keeps the invariant -/

/-- A write leaves no address without a byte that had one. -/
theorem Memory.isSome_read_write (m : Memory) (a a' : Nat) (b : Byte) (h : (m.read a').isSome = true) :
    ((m.write a b).read a').isSome = true := by
  by_cases ha : a' = a
  · simp [ha]
  · rwa [Memory.read_write_other m a a' b ha]

/-- After a write of one slot field, a byte read in any field is the one written or was there before. -/
theorem read_write_slot (m : Memory) (i j : Fin Config.cap) (f g : SlotField) (b c : Byte)
    (h : (m.write (slotAddr i f) b).read (slotAddr j g) = some c) :
    (g = f ∧ c = b) ∨ m.read (slotAddr j g) = some c := by
  by_cases ha : slotAddr j g = slotAddr i f
  · rw [ha, Memory.read_write_same] at h
    exact .inl ⟨((slotAddr_inj j i g f).mp ha).2, (Option.some.inj h).symm⟩
  · rw [Memory.read_write_other m _ _ b ha] at h
    exact .inr h

/-- Storing a byte of the class its field takes, a status in a status field and no status in a data field, keeps the
invariant (30_encoding.md R96, 41_midi_rx.md R145). -/
theorem inv_writeSlot (i : Fin Config.cap) (f : SlotField) (b : Byte) (s : State) (h : Inv s)
    (hb : isStatusByte b = true ↔ f = .status) : Inv (writeSlot i f b s) :=
  { h with
    q_wf := Memory.wf_write _ _ _ h.q_wf
    q_slots := fun c hc => (Memory.mem_write _ _ _ c hc).elim (fun hw => ⟨i, f, hw⟩) (h.q_slots c)
    status_class := fun j c hc => by
      rcases read_write_slot _ _ _ _ _ _ _ hc with ⟨hf, rfl⟩ | hr
      · exact hb.mpr hf.symm
      · exact h.status_class j c hr
    data_class := fun j g c hg hc => by
      rcases read_write_slot _ _ _ _ _ _ _ hc with ⟨rfl, rfl⟩ | hr
      · exact Bool.eq_false_iff.mpr fun hs => hg (hb.mp hs)
      · exact h.data_class j g c hg hr
    status_written := fun hs => Memory.isSome_read_write _ _ _ _ (h.status_written hs)
    note_written := fun hs => Memory.isSome_read_write _ _ _ _ (h.note_written hs) }

/-- The status of the message being assembled is a status byte: it has been written (41_midi_rx.md R143, R146). -/
theorem isStatusByte_readSlot (s : State) (h : Inv s) (hs : s.rxState ≠ .idle) :
    isStatusByte (readSlot s s.widx .status) = true := by
  obtain ⟨b, hb⟩ := Option.isSome_iff_exists.mp (h.status_written hs)
  rw [readSlot, hb]
  exact h.status_class s.widx b hb

/-- Serving a byte keeps the invariant, in every row of the parser's table (41_midi_rx.md R150). -/
theorem inv_serveByte (b : Byte) (s : State) (h : Inv s) : Inv (serveByte b s) := by
  cases hb : isStatusByte b with
  | true =>
    have hw := inv_writeSlot s.widx .status b s h (by simp [hb])
    rw [serveByte_status b s hb]
    exact { hw with status_written := fun _ => by simp, note_written := nofun }
  | false =>
    cases hs : s.rxState with
    | idle =>
      rw [serveByte_idle b s hb hs]
      exact { h with }
    | awaitingByte1 =>
      have hw := inv_writeSlot s.widx .data0 b s h (by simp [hb])
      rw [serveByte_data0 b s hb hs]
      exact { hw with
        status_written := fun _ => hw.status_written (by simp [hs])
        note_written := fun _ => by simp }
    | awaitingByte2 =>
      have hstatus := isStatusByte_readSlot s h (by simp [hs])
      have hw := inv_writeSlot (nextIndex s.widx) .status (readSlot s s.widx .status) _
        (inv_writeSlot s.widx .data1 b s h (by simp [hb])) (by simp [hstatus])
      rw [serveByte_data1 b s hb hs]
      exact { hw with status_written := fun _ => by simp, note_written := nofun }

/-! ### Every operation keeps the invariant -/

theorem inv_resetBlock (s : State) : Inv (resetBlock s) :=
  inv_of_holdsResetValues _ (resetBlock_holdsResetValues s) rfl rfl

/-- `TBL_VALID` may be set with the tables filled (10_state.md R33). The store is a variable `m`, so that Lean does not
compute its 640 cells. -/
theorem inv_tables (m : Memory) (s : State) (h : Inv s) (hwf : m.wf = true) (hm : m = filledTables) :
    Inv { s with wt := m, tblValid := true } :=
  { h with wt_wf := hwf, tables_filled := fun _ => hm }

/-- A frame start asserts chip-select with the frame (42_synth.md R178). -/
theorem inv_frameStart (d : Sample12) (s : State) (h : Inv s) : Inv (frameStart d s) := by
  rw [frameStart_eq]
  exact { h with cs_iff := rfl }

/-- A completion releases chip-select exactly where it ends the frame (43_dac_framer.md R204, R205). -/
theorem inv_completion (s : State) (h : Inv s) : Inv (completion s) := by
  rcases completion_cases s with ⟨_, he⟩ | ⟨hf, he⟩ | ⟨_, he⟩ <;> rw [he]
  · exact h
  · exact { h with cs_iff := h.cs_iff.trans (by simp [frameInProgress, hf]) }
  · exact { h with cs_iff := rfl }

theorem inv_execClk (s t : State) (h : Inv s) (ht : execClk s = .next t) : Inv t := by
  rcases execClk_next s t ht with rfl | ⟨_, rfl⟩ | rfl
  · exact h
  · exact { h with }
  · exact { h with }

/-- `SVC`: the phase it leaves is the one before or the advanced one, both below `PMOD` (10_state.md R23). -/
theorem inv_execSvc (s t : State) (h : Inv s) (ht : execSvc s = .next t) : Inv t := by
  rcases execSvc_next s t ht with ⟨_, rfl⟩ | ⟨_, _, _, p, hoff, hon, rfl⟩ | ⟨_, rfl⟩
  · exact h
  · have hp : p.toNat < Config.pmod := by
      cases ha : s.oscActive with
      | false => rw [hoff ha]; exact h.phase_lt
      | true => rw [hon ha]; exact advance_lt _ _ h.phase_lt h.inc_lt
    exact inv_frameStart _ _ { h with phase_lt := hp }
  · exact inv_serveByte _ s h

/-- A host write that completes writes legal values only (44_host_port.md R229, R230). -/
theorem inv_writeReg (r : HReg) (v : Word24) (s t : State) (h : Inv s) (ht : writeReg r v s = .next t) : Inv t := by
  rcases writeReg_next r v s t ht with ⟨_, _, rfl⟩ | ⟨_, rfl⟩ | ⟨_, rfl⟩ | ⟨_, rfl⟩ | ⟨_, rfl⟩ | ⟨_, hv, rfl⟩ |
    ⟨_, hv, rfl⟩ | ⟨_, rfl⟩
  · exact { h with }
  · exact { h with }
  · exact { h with }
  · exact { h with }
  · exact { h with }
  · exact { h with phase_lt := hv }
  · exact { h with inc_lt := hv }
  · exact { h with }

/-- Every instruction keeps the invariant, by what it can do. -/
theorem inv_exec (i : Instr) (s t : State) (h : Inv s) (ht : exec i s = .next t) : Inv t := by
  rcases exec_next_cases i s t ht with ⟨_, rfl⟩ | ⟨_, rfl⟩ | ⟨_, rfl⟩ | ⟨_, hclk⟩ | ⟨b, _, _, rfl⟩ | ⟨_, hsvc⟩ |
    ⟨_, rfl⟩ | ⟨_, _, _, rfl⟩ | ⟨_, v, r, _, _, _, hwr⟩
  · exact h
  · exact inv_resetBlock s
  · exact inv_tables _ s h filledTables_wf rfl
  · exact inv_execClk s t h hclk
  · exact { h with }
  · exact inv_execSvc s t h hsvc
  · exact inv_completion s h
  · exact { h with }
  · exact inv_writeReg r v s t h hwr

/-- A step that answers a next state had no input, or took a word and ran it. -/
theorem step_next_cases (s t : State) (h : step s = .next t) :
    t = s ∨ ∃ i rest, exec i { s with input := rest } = .next t := by
  by_cases hin : s.input = []
  · rw [step_of_input_nil s hin] at h
    exact .inl (Host.Outcome.next.inj h).symm
  · cases hd : decode s.format s.input with
    | ok i rest => exact .inr ⟨i, rest, step_of_decode_ok s i rest hin hd ▸ h⟩
    | error e => rw [step_of_decode_error s e hin hd] at h; cases h

/-- Settles O53: taking a word from the input does not touch the invariant, and every instruction keeps it. -/
theorem invKept : Obligations.InvKept := by
  intro s t h ht
  rcases step_next_cases s t ht with rfl | ⟨i, rest, hi⟩
  · exact h
  · exact inv_exec i _ t (inv_place s.format rest s h) hi

/-! ### Nothing but the host's access reads RIDX -/

/-- The state with another read index. -/
def withRidx (r : Fin Config.cap) (s : State) : State := { s with ridx := r }

/-- An outcome with the read index of its next state set. -/
def ridxNext (r : Fin Config.cap) : StepOutcome → StepOutcome
  | .next t => .next (withRidx r t)
  | .fault f => .fault f
  | .refused x => .refused x

@[simp] theorem ridxNext_next (r : Fin Config.cap) (s : State) : ridxNext r (.next s) = .next (withRidx r s) := rfl

/-- Only address `0x01` selects `Q_RIDX` (10_state.md R36). -/
theorem eq_of_regOfAddr_qRidx (a : Byte) (h : regOfAddr a = some .qRidx) : a = 0x01#8 := by
  revert a; decide

section
variable (s : State) (r : Fin Config.cap)

/-- The operation an instruction performs does not depend on the read index. -/
theorem performs_ridx (i : Instr) : performs i (withRidx r s) = performs i s := rfl

theorem execInit_ridx : execInit (withRidx r s) = ridxNext r (execInit s) := by
  simp only [execInit, ridxNext_next, withRidx]

theorem execClk_ridx : execClk (withRidx r s) = ridxNext r (execClk s) := by
  simp only [execClk, apply_ite (ridxNext r)]
  rfl

theorem arrive_ridx (b : Byte) : arrive b (withRidx r s) = ridxNext r (arrive b s) := by
  simp only [arrive, apply_ite (ridxNext r)]
  rfl

theorem sampleService_ridx : sampleService (withRidx r s) = ridxNext r (sampleService s) := by
  simp only [sampleService, apply_ite (ridxNext r)]
  rfl

/-- The receive path writes its slots whatever the read index is (10_state.md R41). -/
theorem serveByte_ridx (b : Byte) : serveByte b (withRidx r s) = withRidx r (serveByte b s) := by
  rw [serveByte_congr b s (withRidx r s) rfl rfl rfl rfl, serveByte_frame b s]
  rfl

theorem execSvc_ridx : execSvc (withRidx r s) = ridxNext r (execSvc s) := by
  simp only [execSvc, apply_ite (ridxNext r), ← sampleService_ridx, ridxNext_next, rxService, ← serveByte_ridx]
  rfl

theorem completion_ridx : completion (withRidx r s) = withRidx r (completion s) := by
  rcases completion_cases s with ⟨hf, he⟩ | ⟨hf, he⟩ | ⟨hf, he⟩ <;> rw [he]
  · exact completion_idle _ hf
  · exact completion_byte1 _ hf
  · exact completion_byte2 _ hf

theorem readReg_ridx (g : HReg) (hg : g ≠ .qRidx) : readReg g (withRidx r s) = readReg g s := by
  cases g
  case qRidx => exact absurd rfl hg
  all_goals rfl

theorem writeReg_ridx (g : HReg) (v : Word24) (hg : g ≠ .qRidx) :
    writeReg g v (withRidx r s) = ridxNext r (writeReg g v s) := by
  cases g
  case qRidx => exact absurd rfl hg
  case oscPhase =>
    simp only [writeReg, writePhase, apply_ite (ridxNext r)]
    rfl
  case oscInc =>
    simp only [writeReg, writeInc, apply_ite (ridxNext r)]
    rfl
  all_goals rfl

theorem hostAccess_ridx (a : Byte) (acc : HostAccess) (ha : a ≠ 0x01#8) :
    hostAccess a acc (withRidx r s) = ridxNext r (hostAccess a acc s) := by
  cases hg : regOfAddr a with
  | none => simp only [hostAccess_unmapped _ _ _ hg, ridxNext]
  | some g =>
    have hne : g ≠ .qRidx := by
      rintro rfl
      exact ha (eq_of_regOfAddr_qRidx a hg)
    simp only [hostAccess_mapped a g acc _ hg]
    cases acc with
    | rd => rw [readReg_ridx s r g hne]; rfl
    | wr v => exact writeReg_ridx s r g v hne

/-- Every instruction but `RST` and an access of `Q_RIDX` runs the same whatever the read index is. -/
theorem exec_ridx (i : Instr) (hrst : i ≠ .rst) (hacc : ∀ acc, hostOperand i ≠ some (0x01#8, acc)) :
    exec i (withRidx r s) = ridxNext r (exec i s) := by
  rcases performs_cases i s with hp | ⟨rfl, _⟩ | ⟨rfl, _⟩ | ⟨rfl, _⟩ | ⟨b, rfl, _⟩ | hp | hp | ⟨a, acc, ha, _⟩
  · rw [exec_of_performs_none i s hp, exec_of_performs_none i _ ((performs_ridx s r i).trans hp), ridxNext_next]
  · exact absurd rfl hrst
  · exact execInit_ridx s r
  · exact execClk_ridx s r
  · exact arrive_ridx s r b
  · rw [exec_of_performs_some i _ s hp, exec_of_performs_some i _ _ ((performs_ridx s r i).trans hp)]
    exact execSvc_ridx s r
  · rw [exec_of_performs_some i _ s hp, exec_of_performs_some i _ _ ((performs_ridx s r i).trans hp)]
    exact congrArg Host.Outcome.next (completion_ridx s r)
  · rw [exec_hostOperand i a acc _ ha, exec_hostOperand i a acc _ ha]
    exact hostAccess_ridx s r a acc fun h1 => hacc acc (h1 ▸ ha)

end

/-- Settles O20: each operation commutes with setting the read index. -/
theorem readIndexUnread : Obligations.ReadIndexUnread := fun i s r hrst hacc => by
  refine (exec_ridx s r i hrst hacc).trans ?_
  cases exec i s <;> rfl

end Sys2Proof.Machine
end

section
/-! PROOFS. The memory's statements (20_memory.md): a host read has no side effect and a host write is idempotent
(R66), and each state element changes only by its owner (R67). -/

namespace Sys2Proof.Machine

/-! ### Reads and writes of the host port (R66) -/

/-- No register shows the history of returned values, so a read does not change what any register reads as. -/
theorem readReg_returnToHost (r : HReg) (v : Word24) (s : State) : readReg r (returnToHost v s) = readReg r s := by
  cases r <;> rfl

/-- A read access made twice returns the value it returned the first time. -/
theorem hostAccess_rd_twice (a : Byte) (s t : State) (h : hostAccess a .rd s = .next t) :
    ∃ v, t = returnToHost v s ∧ hostAccess a .rd t = .next (returnToHost v t) := by
  obtain ⟨r, hr, ⟨_, rfl⟩ | ⟨_, hwr, _⟩⟩ := hostAccess_next a .rd s t h
  · exact ⟨readReg r s, rfl, by rw [hostAccess_mapped a r _ _ hr, readReg_returnToHost]⟩
  · cases hwr

/-- A register write that completes writes a value that does not depend on the state, so it completes again and changes
nothing more. -/
theorem writeReg_twice (r : HReg) (v : Word24) (s t : State) (h : writeReg r v s = .next t) :
    writeReg r v t = .next t := by
  rcases writeReg_next r v s t h with ⟨rfl, hv, rfl⟩ | ⟨rfl, rfl⟩ | ⟨rfl, rfl⟩ | ⟨rfl, rfl⟩ | ⟨rfl, rfl⟩ |
    ⟨rfl, hv, rfl⟩ | ⟨rfl, hv, rfl⟩ | ⟨rfl, rfl⟩
  · exact dif_pos hv
  · rfl
  · rfl
  · rfl
  · rfl
  · exact if_pos hv
  · exact if_pos hv
  · rfl

theorem hostAccess_wr_twice (a : Byte) (v : Word24) (s t : State) (h : hostAccess a (.wr v) s = .next t) :
    hostAccess a (.wr v) t = .next t := by
  obtain ⟨r, hr, ⟨hrd, _⟩ | ⟨w, hwr, hw⟩⟩ := hostAccess_next a (.wr v) s t h
  · cases hrd
  · cases hwr
    rw [hostAccess_mapped a r _ _ hr]
    exact writeReg_twice r v s t hw

/-- Settles O45: every read and write form is an access of its operand's address. -/
theorem readsHaveNoSideEffect : Obligations.ReadsHaveNoSideEffect := by
  refine ⟨fun i a s t ha h => ?_, fun i a v s t ha h => ?_⟩ <;> rw [exec_hostOperand i a _ _ ha] at h ⊢
  · obtain ⟨v, rfl, htwice⟩ := hostAccess_rd_twice a s t h
    exact ⟨v, rfl, by rw [htwice]; simp [returnToHost]⟩
  · exact hostAccess_wr_twice a v s t h

/-! ### One writer per element (R67) -/

/-- Settles O46, by what each instruction can do: the state it leaves names the elements it writes, and the operation it
performs, or the register it writes for the host, owns them. The clauses on the two pending bits have a bit that an
operation leaves alone both clear and set, which `simp +contextual` finds absurd. -/
theorem ownership : Obligations.Ownership := by
  intro i s t hrst h
  rcases exec_next_cases i s t h with ⟨_, rfl⟩ | ⟨rfl, _⟩ | ⟨rfl, rfl⟩ | ⟨rfl, hclk⟩ | ⟨b, rfl, hrxp, rfl⟩ |
    ⟨hp, hsvc⟩ | ⟨hp, rfl⟩ | ⟨a, ha, v, rfl⟩ | ⟨_, v, r, _, _, hw, hwr⟩
  · -- no operation
    simp +contextual
  · -- `RST`
    exact absurd rfl hrst
  · -- `INIT`: the tables and `TBL_VALID`
    simp +contextual
  · -- `CLK`: `CNT`, and `SMPP` raised
    rcases execClk_next s t hclk with rfl | ⟨_, rfl⟩ | rfl <;> simp +contextual
  · -- `RXB`: `RXDATA`, and `RXP` raised
    simp +contextual [hrxp]
  · -- `SVC`
    rcases execSvc_next s t hsvc with ⟨_, rfl⟩ | ⟨_, hsmpp, _, p, _, _, rfl⟩ | ⟨hrx, rfl⟩
    · simp +contextual
    · -- the sample service: the phase, the framer, and `SMPP` cleared
      simp +contextual [frameStart_eq, hp, hsmpp]
    · -- the RX service: the queue, the parser, and `RXP` cleared
      obtain ⟨q, w, r, hfields, _⟩ := serveByte_fields s.rxdata s
      simp +contextual [hfields, hp, hrx]
  · -- `XDONE`: the framer
    rcases completion_cases s with ⟨_, he⟩ | ⟨_, he⟩ | ⟨_, he⟩ <;> simp +contextual [he, hp]
  · -- a host read: the returned values
    simp +contextual [ha]
  · -- a host write: the register
    rcases writeReg_next r v s t hwr with ⟨rfl, _, rfl⟩ | ⟨rfl, rfl⟩ | ⟨rfl, rfl⟩ | ⟨rfl, rfl⟩ | ⟨rfl, rfl⟩ |
      ⟨rfl, _, rfl⟩ | ⟨rfl, _, rfl⟩ | ⟨rfl, rfl⟩ <;> simp +contextual [hw]

end Sys2Proof.Machine
end

section
/-! PROOFS. The encoding's statements (30_encoding.md): in every format the decoder and the encoder are inverse to each
other, every received byte is of one class (R91), and the two bytes of a frame carry its sample (R102, R103). -/

namespace Sys2Proof

/-! ### Format TRACE (R111) -/

theorem wellFormed_of_format_trace (i : Instr) (h : i.format = .trace) : i.wellFormed = true := by
  rcases Machine.format_trace_cases i h with rfl | rfl | rfl | ⟨b, rfl⟩ | rfl | rfl | ⟨a, rfl⟩ | ⟨a, v, rfl⟩ <;> rfl

/-- What the TRACE decoder accepts is the encoding of an operation: its cases with a tag of `0x00` to `0x07` and the
whole operand. -/
theorem decodeTrace_ok (bs : List Byte) (i : Instr) (rest : List Byte) (h : decodeTrace bs = .ok i rest) :
    i.format = .trace ∧ encode i ++ rest = bs := by
  revert h
  fun_cases decodeTrace bs with
  | case2 _ _ ht | case3 _ _ ht | case4 _ _ ht | case5 _ ht | case7 _ _ ht | case8 _ _ ht | case9 _ ht | case11 _ ht =>
    obtain ⟨-, rfl⟩ := BitVec.toNat_eq_nat.mp ht
    rintro ⟨⟩
    simp [Instr.format, encode, bytesOfWord24]
  | _ => nofun

/-! ### Format RXBYTE (R91) -/

@[simp] theorem decodeRxByte_stOff (c : BitVec 4) : decodeRxByte (Config.stNoteOff ++ c) = .stOff c := by
  revert c; decide

@[simp] theorem decodeRxByte_stOn (c : BitVec 4) : decodeRxByte (Config.stNoteOn ++ c) = .stOn c := by
  revert c; decide

@[simp] theorem decodeRxByte_other0 (d : BitVec 7) : decodeRxByte (0b0#1 ++ d) = .other0 d := by revert d; decide

@[simp] theorem decodeRxByte_other101 (d : BitVec 5) : decodeRxByte (0b101#3 ++ d) = .other101 d := by
  revert d; decide

@[simp] theorem decodeRxByte_other11 (d : BitVec 6) : decodeRxByte (0b11#2 ++ d) = .other11 d := by revert d; decide

theorem wellFormed_decodeRxByte (b : Byte) : (decodeRxByte b).wellFormed = true := by revert b; decide

theorem format_decodeRxByte (b : Byte) : (decodeRxByte b).format = .rxByte := by revert b; decide

theorem encode_decodeRxByte (b : Byte) : encode (decodeRxByte b) = [b] := by revert b; decide

/-! ### Format DACFRAME (R100, R102) -/

/-- The two bytes of a frame, as one 16-bit word, are the control nibble and the sample. -/
theorem frameBytes_append (d : Sample12) :
    (Machine.frameByte1 d ++ Machine.frameByte2 d : BitVec 16) = Config.dacCtrl ++ d := by
  rw [frameByte1_eq, frameByte2_eq, BitVec.append_assoc, BitVec.cast_eq, BitVec.extractLsb'_append_extractLsb']

theorem decode_encode_dacFrame (d : Sample12) (rest : List Byte) :
    decode .dacFrame (encode (.dacFrame d) ++ rest) = .ok (.dacFrame d) rest := by
  have hjoin : d.extractLsb' 8 4 ++ d.extractLsb' 0 8 = d := BitVec.extractLsb'_append_extractLsb'
  simp [decode, encode, decodeDacFrame, frameByte1_eq, frameByte2_eq, hjoin]

theorem decodeDacFrame_ok (bs : List Byte) (i : Instr) (rest : List Byte) (h : decodeDacFrame bs = .ok i rest) :
    ∃ d, i = .dacFrame d ∧ encode i ++ rest = bs := by
  revert h
  fun_cases decodeDacFrame bs with
  | case1 byte1 byte2 _ hctrl =>
    rintro ⟨⟩
    refine ⟨_, rfl, ?_⟩
    have hhigh : (loNibble byte1 ++ byte2).extractLsb' 8 4 = loNibble byte1 := BitVec.extractLsb'_append_eq_left
    have hlow : (loNibble byte1 ++ byte2).extractLsb' 0 8 = byte2 := BitVec.extractLsb'_append_eq_right
    simp [encode, frameByte1_eq, frameByte2_eq, hhigh, hlow, ← hctrl]
  | _ => nofun

/-! ### Format MIDIEVENT (R96) -/

theorem eventStatus_noteOff (c : BitVec 4) : eventStatus 0#1 c = Config.stNoteOff ++ c := rfl

theorem eventStatus_noteOn (c : BitVec 4) : eventStatus 1#1 c = Config.stNoteOn ++ c := rfl

theorem decode_encode_midiEvent (t : BitVec 1) (c : BitVec 4) (n v : Byte) (rest : List Byte) :
    decode .midiEvent (encode (.midiEvent t c n v) ++ rest) = .ok (.midiEvent t c n v) rest := by
  rcases BitVec.eq_zero_or_eq_one t with rfl | rfl
  · simp [decode, encode, decodeMidiEvent, eventStatus_noteOff]
  · have hne : Config.stNoteOn ≠ Config.stNoteOff := by decide
    simp [decode, encode, decodeMidiEvent, eventStatus_noteOn, hne]

theorem decodeMidiEvent_ok (bs : List Byte) (i : Instr) (rest : List Byte) (h : decodeMidiEvent bs = .ok i rest) :
    ∃ t c n v, i = .midiEvent t c n v ∧ encode i ++ rest = bs := by
  revert h
  fun_cases decodeMidiEvent bs with
  | case1 status n v _ hoff =>
    rintro ⟨⟩
    refine ⟨_, _, _, _, rfl, ?_⟩
    simp [encode, eventStatus_noteOff, ← hoff]
  | case2 status n v _ _ hon =>
    rintro ⟨⟩
    refine ⟨_, _, _, _, rfl, ?_⟩
    simp [encode, eventStatus_noteOn, ← hon]
  | _ => nofun

/-! ### Format HREG (R105) -/

/-- The addresses of the slot fields, and the parts of an address in their range. -/
theorem slotHostAddr_range (i : BitVec 4) (f : BitVec 2) (h : slotFieldMapped i f = true) :
    (0x40 ≤ (slotHostAddr i f).toNat ∧ (slotHostAddr i f).toNat ≤ 0x67 ∧ (slotHostAddr i f).extractLsb' 0 2 ≠ 3#2) ∧
      (slotHostAddr i f).extractLsb' 2 4 = i ∧ (slotHostAddr i f).extractLsb' 0 2 = f := by
  revert i f; decide

theorem slotHostAddr_join (a : Byte) (h : 0x40 ≤ a.toNat ∧ a.toNat ≤ 0x67 ∧ a.extractLsb' 0 2 ≠ 3#2) :
    slotFieldMapped (a.extractLsb' 2 4) (a.extractLsb' 0 2) = true ∧
      slotHostAddr (a.extractLsb' 2 4) (a.extractLsb' 0 2) = a := by
  revert a; decide

theorem noteHostAddr_range (k : BitVec 7) (h : noteMapped k = true) :
    (0x80 ≤ (noteHostAddr k).toNat ∧ (noteHostAddr k).toNat ≤ 0xEB) ∧ (noteHostAddr k).extractLsb' 0 7 = k := by
  revert k; decide

theorem noteHostAddr_join (a : Byte) (h : 0x80 ≤ a.toNat ∧ a.toNat ≤ 0xEB) :
    noteMapped (a.extractLsb' 0 7) = true ∧ noteHostAddr (a.extractLsb' 0 7) = a := by
  revert a; decide

theorem decodeHreg_of_slot_range (a : Byte) (acc : HostAccess)
    (h : 0x40 ≤ a.toNat ∧ a.toNat ≤ 0x67 ∧ a.extractLsb' 0 2 ≠ 3#2) :
    decodeHreg a acc = some (.qSlot (a.extractLsb' 2 4) (a.extractLsb' 0 2) acc) := by
  fun_cases decodeHreg a acc with
  | case12 => rfl
  | case13 | case14 => contradiction
  | _ => omega

theorem decodeHreg_of_note_range (a : Byte) (acc : HostAccess) (h : 0x80 ≤ a.toNat ∧ a.toNat ≤ 0xEB) :
    decodeHreg a acc = some (.nft (a.extractLsb' 0 7) acc) := by
  fun_cases decodeHreg a acc with
  | case13 => rfl
  | case14 => contradiction
  | _ => omega

/-- An address decodes to the register rows that are well formed and access it, and to nothing else (R105, R234). -/
theorem decodeHreg_eq_some_iff (a : Byte) (acc : HostAccess) (i : Instr) :
    decodeHreg a acc = some i ↔
      i.format ≠ .trace ∧ i.wellFormed = true ∧ Machine.hostOperand i = some (a, acc) := by
  constructor
  · fun_cases decodeHreg a acc with
    | case12 =>
      rintro ⟨⟩
      obtain ⟨hmapped, haddr⟩ := slotHostAddr_join a ‹_›
      simp [Instr.format, Machine.access_format_ne_trace, Instr.wellFormed, hmapped, Machine.hostOperand, haddr]
    | case13 =>
      rintro ⟨⟩
      obtain ⟨hmapped, haddr⟩ := noteHostAddr_join a ‹_›
      simp [Instr.format, Machine.access_format_ne_trace, Instr.wellFormed, hmapped, Machine.hostOperand, haddr]
    | case14 => nofun
    | _ ha =>
      obtain ⟨-, rfl⟩ := BitVec.toNat_eq_nat.mp ha
      rintro ⟨⟩
      exact ⟨Machine.access_format_ne_trace acc, rfl, rfl⟩
  · rintro ⟨hf, hw, ha⟩
    cases i with
    | qSlot k f acc' =>
      obtain ⟨rfl, rfl⟩ := Prod.mk.inj (Option.some.inj ha)
      obtain ⟨hrange, hk, hfield⟩ := slotHostAddr_range k f hw
      rw [decodeHreg_of_slot_range _ _ hrange, hk, hfield]
    | nft k acc' =>
      obtain ⟨rfl, rfl⟩ := Prod.mk.inj (Option.some.inj ha)
      obtain ⟨hrange, hk⟩ := noteHostAddr_range k hw
      rw [decodeHreg_of_note_range _ _ hrange, hk]
    | hrd | hwr => exact absurd rfl hf
    | _ => cases ha <;> rfl

/-- A register row is written as the address it accesses and the data of its access. -/
theorem encode_of_hostOperand (i : Instr) (a : Byte) (acc : HostAccess) (hf : i.format ≠ .trace)
    (h : Machine.hostOperand i = some (a, acc)) : i.format = acc.format ∧ encode i = a :: acc.bytes := by
  cases i with
  | hrd | hwr => exact absurd rfl hf
  | _ => cases h <;> exact ⟨rfl, rfl⟩

theorem decode_access (a : Byte) (acc : HostAccess) (rest : List Byte) :
    decode acc.format (a :: acc.bytes ++ rest) = decodeHregThen a acc rest := by
  cases acc <;> simp [HostAccess.format, HostAccess.bytes, decode, bytesOfWord24]

theorem decodeHregThen_eq_ok_iff (a : Byte) (acc : HostAccess) (rest rest' : List Byte) (i : Instr) :
    decodeHregThen a acc rest = .ok i rest' ↔ decodeHreg a acc = some i ∧ rest = rest' := by
  unfold decodeHregThen
  cases decodeHreg a acc <;> simp

/-- A register row decodes from its own bytes. -/
theorem decode_encode_hreg (i : Instr) (a : Byte) (acc : HostAccess) (rest : List Byte) (hf : i.format ≠ .trace)
    (hw : i.wellFormed = true) (h : Machine.hostOperand i = some (a, acc)) :
    decode i.format (encode i ++ rest) = .ok i rest := by
  obtain ⟨hformat, hbytes⟩ := encode_of_hostOperand i a acc hf h
  rw [hformat, hbytes, decode_access, decodeHregThen_eq_ok_iff]
  exact ⟨(decodeHreg_eq_some_iff a acc i).mpr ⟨hf, hw, h⟩, rfl⟩

/-- An accepted HREG word is the encoding of a register row of that access. -/
theorem decodeHregThen_ok (a : Byte) (acc : HostAccess) (rest rest' : List Byte) (i : Instr)
    (h : decodeHregThen a acc rest = .ok i rest') :
    i.wellFormed = true ∧ i.format = acc.format ∧ encode i ++ rest' = a :: acc.bytes ++ rest := by
  obtain ⟨hreg, rfl⟩ := (decodeHregThen_eq_ok_iff a acc rest rest' i).mp h
  obtain ⟨hf, hw, hop⟩ := (decodeHreg_eq_some_iff a acc i).mp hreg
  obtain ⟨hformat, hbytes⟩ := encode_of_hostOperand i a acc hf hop
  exact ⟨hw, hformat, by rw [hbytes]⟩

/-! ### Every format -/

/-- Settles O55, format by format: the TRACE words, the byte classes, the frame, the event, and the register rows by
the address they access. -/
theorem decodeEncode : Obligations.DecodeEncode := by
  intro i rest hw
  cases i
  case rst | init | clk | rxb | svc | xdone | hrd | hwr => exact Machine.decode_encode_trace _ rest rfl
  case stOff | stOn | other0 | other101 | other11 => simp [Instr.format, decode, encode]
  case dacFrame d => exact decode_encode_dacFrame d rest
  case midiEvent t c n v => exact decode_encode_midiEvent t c n v rest
  all_goals exact decode_encode_hreg _ _ _ rest (Machine.access_format_ne_trace _) hw rfl

/-- Settles O56, format by format: what each decoder accepts is the encoding of what it answers. -/
theorem encodeDecode : Obligations.EncodeDecode := by
  intro f bs i rest
  fun_cases decode f bs with
  | case1 =>
    intro h
    obtain ⟨hf, hbytes⟩ := decodeTrace_ok bs i rest h
    exact ⟨wellFormed_of_format_trace i hf, hf, hbytes⟩
  | case2 b =>
    rintro ⟨⟩
    exact ⟨wellFormed_decodeRxByte b, format_decodeRxByte b, by rw [encode_decodeRxByte]; rfl⟩
  | case4 =>
    intro h
    obtain ⟨d, rfl, hbytes⟩ := decodeDacFrame_ok bs i rest h
    exact ⟨rfl, rfl, hbytes⟩
  | case5 =>
    intro h
    obtain ⟨t, c, n, v, rfl, hbytes⟩ := decodeMidiEvent_ok bs i rest h
    exact ⟨rfl, rfl, hbytes⟩
  | case6 a bs' => exact decodeHregThen_ok a .rd bs' rest i
  | case8 a v2 v1 v0 bs' =>
    intro h
    have hreg := decodeHregThen_ok a (.wr (word24OfBytes v2 v1 v0)) bs' rest i h
    simpa [HostAccess.format, HostAccess.bytes, bytesOfWord24] using hreg
  | _ => nofun

/-- Decoding, both directions at once. -/
theorem decode_eq_ok_iff (f : Format) (bs : List Byte) (i : Instr) (rest : List Byte) :
    decode f bs = .ok i rest ↔ i.wellFormed = true ∧ i.format = f ∧ encode i ++ rest = bs := by
  refine ⟨encodeDecode f bs i rest, ?_⟩
  rintro ⟨hw, rfl, rfl⟩
  exact decodeEncode i rest hw

/-! ### The classes of received bytes (R91) -/

/-- The bit strings that extend given high bits. -/
theorem exists_append_eq_iff {n m : Nat} (p : BitVec n) (b : BitVec (n + m)) :
    (∃ d : BitVec m, p ++ d = b) ↔ b.extractLsb' m n = p := by
  constructor
  · rintro ⟨d, rfl⟩
    exact BitVec.extractLsb'_append_eq_left
  · rintro rfl
    exact ⟨_, BitVec.extractLsb'_append_extractLsb'⟩

/-- Settles O57: the bytes that decode to a row are those that extend the row's fixed high bits, and the mask reads
those bits. -/
theorem rxByteClasses : Obligations.RxByteClasses := by
  intro b
  simp only [decode_eq_ok_iff, Instr.wellFormed, Instr.format, encode, List.append_nil, List.cons.injEq, true_and,
    and_true]
  rw [exists_append_eq_iff (m := 4), exists_append_eq_iff (m := 4), exists_append_eq_iff (m := 7),
    exists_append_eq_iff (m := 5), exists_append_eq_iff (m := 6)]
  revert b
  decide

/-- Settles O58: each word is the encoding of the instruction it stands for. -/
theorem specWords : Obligations.SpecWords :=
  ⟨decodeEncode (.rxb 0x90#8) [] rfl, decodeEncode (.hwr 0x12#8 0x046666#24) [] rfl,
    decodeEncode (.stOn 0b0101#4) [] rfl, decodeEncode (.dacFrame 0x7D0#12) [] rfl,
    decodeEncode (.midiEvent 1#1 0#4 0x3C#8 0x7F#8) [] rfl, decodeEncode (.qSlot 9#4 2#2 .rd) [] rfl,
    decodeEncode (.oscAmp (.wr 16#24)) [] rfl, decodeEncode (.nft 57#7 .rd) [] rfl⟩

end Sys2Proof

namespace Sys2Proof.Machine

/-! ### Reserved traces (R111) -/

theorem decodeTrace_reserved (tag : Byte) (bs : List Byte) (h : 0x08 ≤ tag.toNat) :
    decodeTrace (tag :: bs) = .error .traceReserved := by
  simp only [decodeTrace]
  split
  case h_9 => rfl
  all_goals omega

theorem decodeTrace_hwr_short (bs : List Byte) (h : bs.length < 4) :
    decodeTrace (0x07#8 :: bs) = .error .traceReserved := by
  match bs, h with
  | [], _ | [_], _ | [_, _], _ | [_, _, _], _ => rfl

theorem step_place_traceReserved (tag : Byte) (bs : List Byte) (s : State)
    (h : decodeTrace (tag :: bs) = .error .traceReserved) :
    step (place .trace (tag :: bs) s) = .refused .traceReserved :=
  step_of_decode_error _ .traceReserved (List.cons_ne_nil tag bs) h

/-- Settles O51: the TRACE decoder rejects each of these, and the step refuses what it rejects. -/
theorem traceReserved : Obligations.TraceReserved := fun s =>
  ⟨fun tag bs h => step_place_traceReserved tag bs s (decodeTrace_reserved tag bs h),
    step_place_traceReserved 0x03#8 [] s rfl, step_place_traceReserved 0x06#8 [] s rfl,
    fun bs h => step_place_traceReserved 0x07#8 bs s (decodeTrace_hwr_short bs h)⟩

/-! ### Frames (R102, R103) -/

theorem frameByte1_toNat (d : Sample12) : (frameByte1 d).toNat = 0x30 + d.toNat / 256 := by
  have hhigh : (d.extractLsb' 8 4).toNat = d.toNat / 256 := by
    have hlt := d.isLt
    rw [BitVec.extractLsb'_toNat, Nat.shiftRight_eq_div_pow]
    omega
  rw [frameByte1_eq, BitVec.toNat_append, ← Nat.shiftLeft_add_eq_or_of_lt (BitVec.isLt _), hhigh]
  rfl

theorem frameByte2_toNat (d : Sample12) : (frameByte2 d).toNat = d.toNat % 256 := by
  simp [frameByte2_eq]

/-- Settles O35: each byte as a number, and both as the control nibble before the sample. -/
theorem frameBytes : Obligations.FrameBytes := by
  intro d
  have h1 := frameByte1_toNat d
  exact ⟨h1, by omega, by omega, frameByte2_toNat d, frameBytes_append d⟩

/-- The events of a frame, with its bytes as numbers. -/
theorem frameEvents_eq (d : Sample12) :
    frameEvents d = [.csAssert, .dacb (BitVec.ofNat 8 (0x30 + d.toNat / 256)),
      .dacb (BitVec.ofNat 8 (d.toNat % 256)), .csDeassert] := by
  rw [← frameByte1_toNat, ← frameByte2_toNat, BitVec.ofNat_toNat, BitVec.ofNat_toNat, BitVec.setWidth_eq,
    BitVec.setWidth_eq, frameEvents]

/-- Settles O36: the run of the three operations sends the events of the tick's frame. -/
theorem wholeFrame : Obligations.WholeFrame := by
  intro s hi hg hf hs ht
  obtain ⟨p, hrun, -⟩ := frameOps_run s hi hg hf hs ht
  refine ⟨_, hrun, ?_, rfl, rfl, rfl, rfl, rfl⟩
  rw [frameEvents_eq]

end Sys2Proof.Machine
end

section
/-! PROOFS. The table generator's statements (40_tablegen.md): what `INIT` leaves, the waveforms in closed form, and the
sine and note tables as rounded real numbers. -/

namespace Sys2Proof.Machine

/-! ### The triangle, the square and the sawtooth (R122 to R124) -/

/-- The triangle's accumulator climbs from 0 to its turn. -/
theorem triangleAcc_rising (i : ℕ) (h : i ≤ 80) : triangleAcc i = 255 * i := by
  induction i with
  | zero => rfl
  | succ i ih =>
    have hi : i < halfTable := h
    rw [triangleAcc, if_pos hi, ih (by omega)]
    rfl

/-- From its turn the triangle's accumulator falls, to 0 at the table's end. -/
theorem triangleAcc_falling (i : ℕ) (h : 80 ≤ i) : triangleAcc i = 255 * (160 - i) := by
  induction i, h using Nat.le_induction with
  | base => exact triangleAcc_rising 80 le_rfl
  | succ i hi ih =>
    have hturn : ¬ i < halfTable := Nat.not_lt.mpr hi
    rw [triangleAcc, if_neg hturn, ih]
    simp only [Config.sampleMax]
    omega

theorem triangle_rising (i : ℕ) (h : i ≤ 80) : triangle i = 51 * i / 16 := by
  simp only [triangle, triangleAcc_rising i h, Config.tableLength]
  omega

theorem triangle_falling (i : ℕ) (h : 80 ≤ i) : triangle i = 51 * (160 - i) / 16 := by
  simp only [triangle, triangleAcc_falling i h, Config.tableLength]
  omega

theorem square_high (i : ℕ) (h : i < 80) : square i = 255 := if_pos h

theorem square_low (i : ℕ) (h : 80 ≤ i) : square i = 0 := if_neg (Nat.not_lt.mpr h)

/-- Settles O7: the triangle from the two slopes of its accumulator; the square and the sawtooth by definition. -/
theorem waveformFormulas : Obligations.WaveformFormulas :=
  ⟨triangle_rising, fun i h _ => triangle_falling i h, square_high, fun i h _ => square_low i h, fun _ _ => rfl⟩

/-! ### `INIT` (R120) -/

theorem exec_init (s : State) : exec .init s = .next { s with wt := filledTables, tblValid := true } :=
  rfl

/-- Settles O5: `INIT` sets the store and the flag to constants, and every entry of the filled store is its sample. -/
theorem initFillsTables : Obligations.InitFillsTables := by
  refine fun s => ⟨exec_init s, fun t ht => ?_⟩
  have hnext : t = { s with wt := filledTables, tblValid := true } :=
    (Host.Outcome.next.inj ((exec_init s).symm.trans ht)).symm
  have hwt : t.wt = filledTables := by rw [hnext]
  have htwice : exec .init t = .next t := by
    rw [hnext]
    exact exec_init _
  exact ⟨htwice, fun i hi => ⟨readTable_filled t .sine i hwt hi, readTable_filled t .triangle i hwt hi,
    readTable_filled t .square i hwt hi, readTable_filled t .sawtooth i hwt hi⟩⟩

/-! ### The properties of the four tables (R125) -/

theorem sine_le (i : ℕ) (h : i < 160) : sine i ≤ 255 := by
  revert i
  decide +kernel

theorem triangle_le (i : ℕ) : triangle i ≤ 255 := by
  rcases le_total i 80 with h | h
  · rw [triangle_rising i h]; omega
  · rw [triangle_falling i h]; omega

theorem square_le (i : ℕ) : square i ≤ 255 := by
  rcases lt_or_ge i 80 with h | h
  · rw [square_high i h]
  · rw [square_low i h]; omega

theorem sawtooth_le (i : ℕ) (h : i < 160) : sawtooth i ≤ 253 := by
  simp only [sawtooth, Config.sampleMax, Config.tableLength]
  omega

/-- The sine table is symmetric about entry 80. -/
theorem sine_symm (i : ℕ) (h1 : 1 ≤ i) (h : i < 160) : sine i = sine (160 - i) := by
  have hall : ∀ i < 160, 1 ≤ i → sine i = sine (160 - i) := by decide +kernel
  exact hall i h h1

/-- The triangle is symmetric about its turn: each slope is the other's mirror. -/
theorem triangle_symm (i : ℕ) (h : i ≤ 160) : triangle i = triangle (160 - i) := by
  rcases le_total i 80 with hi | hi
  · rw [triangle_rising i hi, triangle_falling (160 - i) (by omega), Nat.sub_sub_self h]
  · rw [triangle_falling i hi, triangle_rising (160 - i) (by omega)]

theorem filledTables_read_entry (w : Wave) (i : ℕ) (h : i < 160) :
    filledTables.read (tableAddr w i) = some (waveSample w i) := by
  rw [filledTables_read _ (tableAddr_lt w i h), filledByte_tableAddr w i h]

theorem sineChecksum : ((List.range 160).map sine).sum = 20401 := by decide +kernel

theorem triangleChecksum : ((List.range 160).map triangle).sum = 20325 := by decide +kernel

theorem squareChecksum : ((List.range 160).map square).sum = 20400 := by decide +kernel

theorem sawtoothChecksum : ((List.range 160).map sawtooth).sum = 20195 := by decide +kernel

/-- Settles O8: the store's contents, the bounds and the symmetry by the lemmas above; the extremes are entries. -/
theorem wavetableProperties : Obligations.WavetableProperties :=
  ⟨rfl, filledTables_length, filledTables_read_entry, filledTables_read_none,
    fun i h => ⟨sine_le i h, triangle_le i, square_le i, sawtooth_le i h⟩,
    rfl, rfl, rfl, rfl,
    rfl, triangle_rising 80 le_rfl, rfl, rfl,
    fun i h1 h => ⟨sine_symm i h1 (by omega), triangle_symm i (by omega)⟩,
    sineChecksum, triangleChecksum, squareChecksum, sawtoothChecksum⟩

/-! ### The sine table as real numbers (R121)

The formula is `128 - 127.5 * cos (i * pi / 80)` rounded down. About entry 40 the cosine is `-sin (j * pi / 80)` going up
and `sin (j * pi / 80)` going down, whose bounds decide the rounding; at `j = 0`, the tie, the bound is exact. The second
half mirrors the first. -/

/-- R121's formula, with its tie rule's half, in the closed form `sin (x + 3*pi/2) = -cos x`. -/
theorem sineFormula_eq_cos (i : ℕ) :
    (Config.sineScale : ℝ) *
        (1 + Real.sin (2 * Real.pi * i / Config.tableLength + Config.sinePhase * Real.pi)) + 1 / 2 =
      128 - 255 / 2 * Real.cos (i * (Real.pi / 80)) := by
  have hangle : 2 * Real.pi * i / Config.tableLength + Config.sinePhase * Real.pi =
      i * (Real.pi / 80) - Real.pi / 2 + 2 * Real.pi := by
    norm_num [Config.sinePhase]
    ring
  rw [hangle, Real.sin_add_two_pi, Real.sin_sub_pi_div_two]
  norm_num [Config.sineScale]
  ring

/-- Every value of `128 - 127.5 * x` for `x` within `e` billionths of `c` billionths rounds down to `n`. -/
abbrev RoundsTo (n c e : ℤ) : Prop :=
  2 * 10 ^ 9 * n ≤ 256 * 10 ^ 9 - 255 * (c + e) ∧ 256 * 10 ^ 9 - 255 * (c - e) < 2 * 10 ^ 9 * (n + 1)

theorem RoundsTo.floor_eq {n c e : ℤ} {x : ℝ} (h : RoundsTo n c e)
    (hx : |x - (c : ℝ) / 10 ^ 9| ≤ (e : ℝ) / 10 ^ 9) : ⌊128 - 255 / 2 * x⌋ = n := by
  obtain ⟨hlo, hhi⟩ := h
  have hlo' : (2 * 10 ^ 9 * n : ℝ) ≤ 256 * 10 ^ 9 - 255 * (c + e) := by exact_mod_cast hlo
  have hhi' : (256 * 10 ^ 9 - 255 * (c - e) : ℝ) < 2 * 10 ^ 9 * (n + 1) := by exact_mod_cast hhi
  obtain ⟨hx1, hx2⟩ := abs_le.mp hx
  rw [Int.floor_eq_iff]
  constructor <;> linarith

/-- The bounds of the sines decide the rounding of the entries 40 down to 0. -/
theorem sine_firstQuarter_roundsTo :
    ∀ j < 41, RoundsTo (sine (40 - j)) (sinBillionths.getD j 0) (boundBillionths.getD j 0) := by decide +kernel

/-- The bounds of the sines decide the rounding of the entries 40 up to 80. -/
theorem sine_secondQuarter_roundsTo :
    ∀ j < 41, RoundsTo (sine (40 + j)) (-sinBillionths.getD j 0) (boundBillionths.getD j 0) := by decide +kernel

theorem sine_firstQuarter (j : ℕ) (h : j ≤ 40) :
    (sine (40 - j) : ℤ) = ⌊128 - 255 / 2 * Real.cos ((40 - j : ℕ) * (Real.pi / 80))⌋ := by
  have hangle : ((40 - j : ℕ) : ℝ) * (Real.pi / 80) = Real.pi / 2 - j * (Real.pi / 80) := by
    rw [Nat.cast_sub h]
    push_cast
    ring
  rw [hangle, Real.cos_pi_div_two_sub]
  exact ((sine_firstQuarter_roundsTo j (by omega)).floor_eq (sin_cos_billionths j h).1).symm

theorem sine_secondQuarter (j : ℕ) (h : j ≤ 40) :
    (sine (40 + j) : ℤ) = ⌊128 - 255 / 2 * Real.cos ((40 + j : ℕ) * (Real.pi / 80))⌋ := by
  have hangle : ((40 + j : ℕ) : ℝ) * (Real.pi / 80) = j * (Real.pi / 80) + Real.pi / 2 := by
    push_cast
    ring
  have hsin := (sin_cos_billionths j h).1
  rw [← abs_neg, neg_sub', ← neg_div, ← Int.cast_neg] at hsin
  rw [hangle, Real.cos_add_pi_div_two]
  exact ((sine_secondQuarter_roundsTo j (by omega)).floor_eq hsin).symm

theorem sine_firstHalf (i : ℕ) (h : i ≤ 80) :
    (sine i : ℤ) = ⌊128 - 255 / 2 * Real.cos (i * (Real.pi / 80))⌋ := by
  rcases le_total i 40 with hi | hi
  · simpa only [Nat.sub_sub_self hi] using sine_firstQuarter (40 - i) (by omega)
  · simpa only [Nat.add_sub_cancel' hi] using sine_secondQuarter (i - 40) (by omega)

theorem sine_secondHalf (i : ℕ) (h1 : 80 ≤ i) (h : i < 160) :
    (sine i : ℤ) = ⌊128 - 255 / 2 * Real.cos (i * (Real.pi / 80))⌋ := by
  have hangle : ((160 - i : ℕ) : ℝ) * (Real.pi / 80) = 2 * Real.pi - i * (Real.pi / 80) := by
    rw [Nat.cast_sub h.le]
    push_cast
    ring
  rw [sine_symm i (by omega) h, sine_firstHalf (160 - i) (by omega), hangle, Real.cos_two_pi_sub]

/-- Settles O6: the formula is a scaled cosine, and each half of the table is that cosine rounded down. -/
theorem sineTableFormula : Obligations.SineTableFormula := by
  intro i h
  rw [sineFormula_eq_cos]
  rcases le_total i 80 with hi | hi
  · exact sine_firstHalf i hi
  · exact sine_secondHalf i hi h

/-! ### The note table as real numbers (R128)

The increment is `288358.4 * 2 ^ ((k - 57) / 12)`. Its twelfth power is rational, so comparing twelfth powers of
integers decides between which half-integers it lies. -/

/-- A number rounds to `n` when the `m`-th power of its double lies between those of `2n - 1` and `2n + 1`. -/
theorem floor_add_half_eq_of_pow {x : ℝ} {n : ℤ} {m : ℕ} (hm : m ≠ 0) (hx : 0 ≤ x) (hn : 0 ≤ n)
    (hlo : (2 * n - 1 : ℝ) ^ m ≤ (2 * x) ^ m) (hhi : (2 * x) ^ m < (2 * n + 1 : ℝ) ^ m) : ⌊x + 1 / 2⌋ = n := by
  have hn' : (0 : ℝ) ≤ n := by exact_mod_cast hn
  have hlo' : (2 * n - 1 : ℝ) ≤ 2 * x := le_of_pow_le_pow_left₀ hm (by linarith) hlo
  have hhi' : 2 * x < (2 * n + 1 : ℝ) := lt_of_pow_lt_pow_left₀ m (by linarith) hhi
  rw [Int.floor_eq_iff]
  constructor <;> linarith

/-- R128's increment of note `k`, in raw units, before it is rounded. -/
noncomputable def exactIncrement (k : ℕ) : ℝ :=
  1441792 / 5 * (2 : ℝ) ^ (((k : ℝ) - 57) / 12)

theorem exactIncrement_eq_formula (k : ℕ) :
    (Config.tuningFrequency : ℝ) * (2 : ℝ) ^ (((k : ℝ) - Config.tuningIndex) / Config.octaveNotes) *
      Config.tableLength / Config.sampleRate * Config.fracScale = exactIncrement k := by
  norm_num [exactIncrement, Config.tuningFrequency, Config.tuningIndex, Config.octaveNotes]
  ring

theorem exactIncrement_nonneg (k : ℕ) : 0 ≤ exactIncrement k := by
  unfold exactIncrement
  positivity

/-- Twelve semitones double the frequency, so the twelfth power of an increment is rational. -/
theorem exactIncrement_pow_twelve (k : ℕ) :
    (2 * exactIncrement k) ^ 12 = (2883584 / 5) ^ 12 * (2 ^ k / 2 ^ 57) := by
  have hroot : ((2 : ℝ) ^ (((k : ℝ) - 57) / 12)) ^ 12 = 2 ^ k / 2 ^ 57 := by
    have hexp : ((k : ℝ) - 57) / 12 * (12 : ℕ) = k - (57 : ℕ) := by
      push_cast
      ring
    rw [← Real.rpow_natCast, ← Real.rpow_mul zero_le_two, hexp, Real.rpow_sub zero_lt_two, Real.rpow_natCast,
      Real.rpow_natCast]
  rw [exactIncrement, ← mul_assoc, mul_pow, hroot]
  norm_num

/-- The exact twelfth powers put every entry's increment within half a raw unit of the entry. -/
theorem noteIncrement_pow_bounds : ∀ k : Fin 108,
    ((2 * (noteIncrement k).toNat - 1 : ℤ) * 5) ^ 12 * 2 ^ 57 ≤ 2883584 ^ 12 * 2 ^ k.val ∧
    2883584 ^ 12 * 2 ^ k.val < ((2 * (noteIncrement k).toNat + 1 : ℤ) * 5) ^ 12 * 2 ^ 57 := by decide +kernel

theorem noteIncrement_eq_floor (k : Fin 108) :
    ((noteIncrement k).toNat : ℤ) = ⌊exactIncrement k + 1 / 2⌋ := by
  obtain ⟨hlo, hhi⟩ := noteIncrement_pow_bounds k
  generalize (noteIncrement k).toNat = n at hlo hhi ⊢
  have hlo' : ((2 * n - 1 : ℝ) * 5) ^ 12 * 2 ^ 57 ≤ 2883584 ^ 12 * 2 ^ k.val := by exact_mod_cast hlo
  have hhi' : (2883584 ^ 12 * 2 ^ k.val : ℝ) < ((2 * n + 1 : ℝ) * 5) ^ 12 * 2 ^ 57 := by exact_mod_cast hhi
  have hscale : ((2883584 / 5) ^ 12 * (2 ^ k.val / 2 ^ 57) : ℝ) = 2883584 ^ 12 * 2 ^ k.val / (5 ^ 12 * 2 ^ 57) := by
    ring
  refine (floor_add_half_eq_of_pow (m := 12) (by decide) (exactIncrement_nonneg k) (Int.natCast_nonneg n) ?_ ?_).symm
  · rw [exactIncrement_pow_twelve, hscale, le_div_iff₀ (by positivity), ← mul_assoc, ← mul_pow]
    exact hlo'
  · rw [exactIncrement_pow_twelve, hscale, div_lt_iff₀ (by positivity), ← mul_assoc, ← mul_pow]
    exact hhi'

/-- Settles O9: the formula's value is the exact increment, which rounds to the table's entry. -/
theorem noteTableFormula : Obligations.NoteTableFormula := by
  intro k
  rw [exactIncrement_eq_formula]
  exact noteIncrement_eq_floor k

end Sys2Proof.Machine
end

section
/-! PROOFS. MIDI receive's statements (41_midi_rx.md): the arrival of a byte, the parser's table run by `SVC` and by the
words, what serving a byte leaves in every slot, what the indices show, and whole messages. -/

namespace Sys2Proof.Machine

/-! ### The arrival of a byte (R140) -/

/-- Settles O10: the two branches of the arrival. -/
theorem rxbLatchesByte : Obligations.RxbLatchesByte := fun b s =>
  ⟨fun h => by simp [exec, execRxb, arrive, h], fun h => by simp [exec, execRxb, arrive, h]⟩

/-! ### The parser's table (R141 to R147, R150) -/

theorem nextIndex_val (i : Fin Config.cap) : (nextIndex i).val = (i.val + 1) % 10 := rfl

theorem nextIndex_ne (i : Fin Config.cap) : nextIndex i ≠ i := by revert i; decide

theorem nextIndex_nextIndex_ne (i : Fin Config.cap) : nextIndex (nextIndex i) ≠ i := by revert i; decide

/-- The status test is a test of the high nibble (R143). -/
theorem isStatusByte_iff (b : Byte) :
    isStatusByte b = true ↔ hiNibble b = 0b1001#4 ∨ hiNibble b = 0b1000#4 := by
  simp [isStatusByte]

theorem completes_iff (b : Byte) (s : State) :
    completes b s = true ↔ isStatusByte b = false ∧ s.rxState = .awaitingByte2 := by
  simp [completes]

/-- `SVC` enabled by the receive request alone serves the latched byte (60_exceptions.md R258). -/
theorem exec_svc_serves (s : State) (hg : s.gie = true) (hf : s.frState = .idle) (hs : s.smpp = false)
    (hp : s.rxp = true) : exec .svc s = .next (serveByte s.rxdata s) :=
  exec_svc_rx s ((rxDispatchable_iff s).mpr ⟨hg, hf, hs, hp⟩)

/-- Settles O11: `SVC` serves the latch, and the parser has one law per row of the table. -/
theorem parserTransitionTable : Obligations.ParserTransitionTable := by
  refine ⟨nextIndex_val, fun s hg hf hs hp => ?_⟩
  rw [exec_svc_serves s hg hf hs hp, ← isStatusByte_iff, Bool.not_eq_true]
  exact ⟨fun hb => congrArg _ (serveByte_status _ s hb), fun hb hr => congrArg _ (serveByte_data0 _ s hb hr),
    fun hb hr => congrArg _ (serveByte_data1 _ s hb hr), fun hb hr => congrArg _ (serveByte_idle _ s hb hr)⟩

/-- An instruction other than `RST` that changes `RXSTATE` serves the byte in the latch (20_memory.md R67). -/
theorem serves_of_rxState_ne (i : Instr) (s t : State) (hrst : i ≠ .rst) (h : exec i s = .next t)
    (hne : t.rxState ≠ s.rxState) :
    performs i s = some .svc ∧ rxDispatchable s = true ∧ t = serveByte s.rxdata s := by
  obtain ⟨hwriter, -⟩ := ownership i s t hrst h
  obtain ⟨hsvc, hrx⟩ := hwriter (.inr (.inr hne))
  rw [exec_of_performs_some i _ s hsvc, exec_svc_rx s hrx] at h
  exact ⟨hsvc, hrx, (Host.Outcome.next.inj h).symm⟩

/-- Settles O12: `RST` enters `IDLE`; any other change of `RXSTATE` is the service of a byte, which leaves `IDLE` at a
status byte only and never enters it. -/
theorem parserIdleRule : Obligations.ParserIdleRule := by
  refine ⟨fun s hg hf hs hp hb hr => ?_, fun i s t h hs ht => ?_, fun i s t h hs ht => ?_⟩
  · rw [exec_svc_serves s hg hf hs hp, serveByte_idle _ s hb hr]
  · have hrst : i ≠ .rst := by
      rintro rfl
      cases h
      exact ht rfl
    obtain ⟨hsvc, hrx, rfl⟩ := serves_of_rxState_ne i s t hrst h (hs ▸ ht)
    obtain ⟨q, w, r, hfields, -, hleft⟩ := serveByte_fields s.rxdata s
    rw [hfields] at ht
    exact ⟨hsvc, hrx, hleft hs ht⟩
  · by_contra hrst
    obtain ⟨-, -, rfl⟩ := serves_of_rxState_ne i s t hrst h (ht ▸ hs.symm)
    obtain ⟨q, w, r, hfields, hentered, -⟩ := serveByte_fields s.rxdata s
    rw [hfields] at ht
    exact hs (hentered ht)

/-! ### The RXBYTE words (30_encoding.md R91; log 8) -/

/-- The word of format RXBYTE that carries a byte. -/
def RxByteWord (i : Instr) (b : Byte) : Prop :=
  (∃ c, i = .stOff c ∧ b = stOffByte c) ∨ (∃ c, i = .stOn c ∧ b = stOnByte c) ∨
    (∃ d, i = .other0 d ∧ b = other0Byte d) ∨ (∃ d, i = .other101 d ∧ b = other101Byte d) ∨
    ∃ d, i = .other11 d ∧ b = other11Byte d

/-- A word that carries a byte is the service of that byte, whatever its class. -/
theorem exec_rxByteWord (i : Instr) (b : Byte) (s : State) (h : RxByteWord i b) : exec i s = serveWord b s := by
  rcases h with ⟨_, rfl, rfl⟩ | ⟨_, rfl, rfl⟩ | ⟨_, rfl, rfl⟩ | ⟨_, rfl, rfl⟩ | ⟨_, rfl, rfl⟩ <;> rfl

/-- The words that carry a status byte are those of the two status classes. -/
theorem isStatusByte_rxByteWord (i : Instr) (b : Byte) (h : RxByteWord i b) :
    isStatusByte b = true ↔ ∃ c, i = .stOff c ∨ i = .stOn c := by
  rcases h with ⟨_, rfl, rfl⟩ | ⟨_, rfl, rfl⟩ | ⟨_, rfl, rfl⟩ | ⟨_, rfl, rfl⟩ | ⟨_, rfl, rfl⟩ <;> simp

theorem serves_eq_false_iff (b : Byte) (s : State) :
    serves b s = false ↔
      s.gie = false ∨ s.frState ≠ .idle ∨ s.smpp = true ∨ s.rxp = false ∨ s.rxdata ≠ b := by
  rw [← Bool.not_eq_true, serves_iff, rxDispatchable_iff]
  simp only [not_and_or, or_assoc, Bool.not_eq_true, Bool.not_eq_false]

theorem serveWord_served (b : Byte) (s : State) (h : serves b s = true) : serveWord b s = .next (serveByte b s) := by
  rcases serveWord_cases b s with ⟨_, hw⟩ | ⟨hn, _⟩
  · exact hw
  · rw [h] at hn; cases hn

/-- Settles O13: each of the five words is the service of its byte, whose class picks the parser's row. -/
theorem rxByteRows : Obligations.RxByteRows := by
  intro i b s (hword : RxByteWord i b)
  have hstatus := isStatusByte_rxByteWord i b hword
  rw [exec_rxByteWord i b s hword]
  refine ⟨fun hg hf hs hp hb => ?_, fun hn => if_neg (Bool.eq_false_iff.mp ((serves_eq_false_iff b s).mpr hn))⟩
  rw [serveWord_served b s ((serves_iff b s).mpr ⟨(rxDispatchable_iff s).mpr ⟨hg, hf, hs, hp⟩, hb⟩)]
  refine ⟨fun hi => congrArg _ (serveByte_status b s (hstatus.mpr hi)), fun hi => ?_⟩
  have hother : isStatusByte b = false := Bool.eq_false_iff.mpr fun hst =>
    have ⟨c, hc⟩ := hstatus.mp hst
    hc.elim (hi c).1 (hi c).2
  exact ⟨fun hr => congrArg _ (serveByte_idle b s hother hr), fun hr => congrArg _ (serveByte_data0 b s hother hr),
    fun hr => congrArg _ (serveByte_data1 b s hother hr)⟩

/-! ### What serving a byte leaves in every slot -/

/-- What a slot field reads as after a write of one. -/
theorem readSlot_writeSlot (s : State) (i j : Fin Config.cap) (f g : SlotField) (b : Byte) :
    readSlot (writeSlot i f b s) j g = if j = i ∧ g = f then b else readSlot s j g := by
  split
  case isTrue h => obtain ⟨rfl, rfl⟩ := h; exact readSlot_writeSlot_same s j g b
  case isFalse h => exact readSlot_writeSlot_other s i j f g b h

section
variable (b : Byte) (s : State) (i : Fin Config.cap) (f : SlotField)

theorem readSlot_serveByte_status (hb : isStatusByte b = true) :
    readSlot (serveByte b s) i f = if i = s.widx ∧ f = .status then b else readSlot s i f := by
  rw [serveByte_status b s hb]
  exact readSlot_writeSlot s s.widx i .status f b

theorem readSlot_serveByte_idle (hb : isStatusByte b = false) (hs : s.rxState = .idle) :
    readSlot (serveByte b s) i f = readSlot s i f := by
  rw [serveByte_idle b s hb hs]
  rfl

theorem readSlot_serveByte_data0 (hb : isStatusByte b = false) (hs : s.rxState = .awaitingByte1) :
    readSlot (serveByte b s) i f = if i = s.widx ∧ f = .data0 then b else readSlot s i f := by
  rw [serveByte_data0 b s hb hs]
  exact readSlot_writeSlot s s.widx i .data0 f b

/-- A completion stores the last byte, and the status again in the next slot (R146). -/
theorem readSlot_serveByte_data1 (hb : isStatusByte b = false) (hs : s.rxState = .awaitingByte2) :
    readSlot (serveByte b s) i f =
      if i = nextIndex s.widx ∧ f = .status then readSlot s s.widx .status
      else if i = s.widx ∧ f = .data1 then b else readSlot s i f := by
  rw [serveByte_data1 b s hb hs, ← readSlot_writeSlot s s.widx i .data1 f b]
  exact readSlot_writeSlot (writeSlot s.widx .data1 b s) (nextIndex s.widx) i .status f _

end

/-- A completion leaves the whole event in its slot (R146). -/
theorem slotRecord_completed (b : Byte) (s : State) (h : completes b s = true) :
    slotRecord (serveByte b s) s.widx = readSlot s s.widx .status ++ readSlot s s.widx .data0 ++ b := by
  obtain ⟨hb, hs⟩ := (completes_iff b s).mp h
  simp [slotRecord, readSlot_serveByte_data1 b s _ _ hb hs, (nextIndex_ne s.widx).symm]

/-! ### The MIDIEVENT word (30_encoding.md R96; log 8) -/

theorem eventStatus_eq (t : BitVec 1) (c : BitVec 4) : eventStatus t c = 0b100#3 ++ t ++ c := by
  revert t c; decide

theorem queues_eq_false_iff (t : BitVec 1) (c : BitVec 4) (n v : Byte) (s : State) :
    queues t c n v s = false ↔
      s.gie = false ∨ s.frState ≠ .idle ∨ s.smpp = true ∨ s.rxp = false ∨ s.rxdata ≠ v ∨ isStatusByte v = true ∨
        s.rxState ≠ .awaitingByte2 ∨ readSlot s s.widx .status ≠ eventStatus t c ∨ readSlot s s.widx .data0 ≠ n := by
  rw [← Bool.not_eq_true, queues_iff, not_and_or, Bool.not_eq_true, serves_eq_false_iff, completes_iff]
  simp only [not_and_or, or_assoc, Bool.not_eq_false]

/-- Settles O14: where the word's event completes, the word is the service of its last byte; the event is then in its
slot and its status in the next. -/
theorem midiEventRow : Obligations.MidiEventRow := by
  intro ty c n v s
  rw [← eventStatus_eq]
  refine ⟨fun hg hf hs hp hv hb hr hst hn => ?_, fun hn => if_neg (Bool.eq_false_iff.mp ?_)⟩
  · have hrx : rxDispatchable s = true := (rxDispatchable_iff s).mpr ⟨hg, hf, hs, hp⟩
    have hcomp : completes v s = true := (completes_iff v s).mpr ⟨hb, hr⟩
    have hq : queues ty c n v s = true :=
      (queues_iff ty c n v s).mpr ⟨(serves_iff v s).mpr ⟨hrx, hv⟩, hcomp, hst, hn⟩
    have hexec : exec (.midiEvent ty c n v) s = .next (serveByte v s) := by
      rw [exec_of_performs_some (.midiEvent ty c n v) .svc s (if_pos hq), exec_svc_rx s hrx, hv]
    have hnext : (serveByte v s).widx = nextIndex s.widx := by rw [serveByte_data1 v s hb hr]
    refine ⟨_, hexec, ?_, ?_, ?_⟩
    · rw [serveByte_data1 v s hb hr, hst]
    · rw [slotRecord_completed v s hcomp, hst, hn]
    · rw [hnext, readSlot_serveByte_data1 v s _ _ hb hr, if_pos ⟨rfl, rfl⟩, hst]
  · exact (queues_eq_false_iff ty c n v s).mpr hn

/-! ### The frame of the receive service (R150) -/

/-- Settles O16: the instruction is the service of the latched byte, and the frame is that service's. -/
theorem receiveFrame : Obligations.ReceiveFrame := by
  intro i s t hsvc hrx h
  rw [exec_of_performs_some i .svc s hsvc, exec_svc_rx s hrx] at h
  obtain rfl := Host.Outcome.next.inj h
  exact ⟨serveByte_frame s.rxdata s, fun a ha => serveByte_read s.rxdata s a ha⟩

/-! ### What the indices show (10_state.md R42) -/

theorem shownCount_eq (s : State) : shownCount s = (s.widx.val + 10 - s.ridx.val) % 10 := by
  have hval : shownCount s = (10 - s.ridx.val + s.widx.val) % 10 := Fin.val_sub s.widx s.ridx
  have hlt : s.ridx.val < 10 := s.ridx.isLt
  omega

theorem queueEmpty_iff (s : State) : queueEmpty s = true ↔ s.ridx = s.widx := by simp [queueEmpty]

theorem queueEmpty_of_shownCount (s : State) (h : shownCount s = 0) : queueEmpty s = true := by
  have hzero : s.widx - s.ridx = 0 := Fin.ext h
  exact (queueEmpty_iff s).mpr (sub_eq_zero.mp hzero).symm

/-- The write index stands just past the events shown. -/
theorem ridx_add_shownCount (s : State) : s.ridx + Fin.ofNat Config.cap (shownCount s) = s.widx := by
  simp [shownCount]

/-- Advancing the write index shows one more event, and none past nine. -/
theorem shownCount_advanced (s t : State) (hw : t.widx = nextIndex s.widx) (hr : t.ridx = s.ridx) :
    shownCount t = (shownCount s + 1) % 10 := by
  rw [shownCount, hw, hr, nextIndex, add_sub_right_comm]
  exact nextIndex_val (s.widx - s.ridx)

/-- The slot being assembled is not shown. -/
theorem shown_ne_widx (s : State) (j : ℕ) (hj : j < shownCount s) : s.ridx + Fin.ofNat Config.cap j ≠ s.widx := by
  intro he
  rw [shownCount, ← he, add_sub_cancel_left, Fin.val_ofNat] at hj
  exact hj.not_ge (Nat.mod_le j _)

/-- With eight or fewer events shown, neither is the slot after it. -/
theorem shown_ne_nextIndex (s : State) (j : ℕ) (hj : j < shownCount s) (h : shownCount s ≤ 8) :
    s.ridx + Fin.ofNat Config.cap j ≠ nextIndex s.widx := by
  have hone := shownCount_advanced s { s with widx := nextIndex s.widx } rfl rfl
  exact shown_ne_widx { s with widx := nextIndex s.widx } j (by omega)

theorem slotRecord_congr (s t : State) (i : Fin Config.cap) (h : ∀ f, readSlot t i f = readSlot s i f) :
    slotRecord t i = slotRecord s i := by
  simp only [slotRecord, h]

/-- With the indices where they were, a change of the slot being assembled leaves the events shown. -/
theorem shownEvents_congr (s t : State) (hw : t.widx = s.widx) (hr : t.ridx = s.ridx)
    (h : ∀ i f, i ≠ s.widx → readSlot t i f = readSlot s i f) : shownEvents t = shownEvents s := by
  have hcount : shownCount t = shownCount s := by rw [shownCount, hw, hr, shownCount]
  rw [shownEvents, hcount, hr]
  exact List.map_congr_left fun j hj =>
    slotRecord_congr s t _ fun f => h _ f (shown_ne_widx s j (List.mem_range.mp hj))

/-- With the write index advanced and eight or fewer events shown before, a change of the finished slot and the one
after it adds the finished slot's record as the newest. -/
theorem shownEvents_advanced (s t : State) (hw : t.widx = nextIndex s.widx) (hr : t.ridx = s.ridx)
    (hcount : shownCount s ≤ 8)
    (h : ∀ i f, i ≠ s.widx → i ≠ nextIndex s.widx → readSlot t i f = readSlot s i f) :
    shownEvents t = shownEvents s ++ [slotRecord t s.widx] := by
  have hone : shownCount t = shownCount s + 1 := by
    rw [shownCount_advanced s t hw hr]
    omega
  rw [shownEvents, hone, hr, List.range_succ, List.map_append, List.map_singleton, ridx_add_shownCount]
  congr 1
  refine List.map_congr_left fun j hj => slotRecord_congr s t _ fun f => ?_
  have hj := List.mem_range.mp hj
  exact h _ f (shown_ne_widx s j hj) (shown_ne_nextIndex s j hj hcount)

/-! ### What a served byte does to the events shown (R148, R151) -/

/-- A completion advances the write index and leaves the read index (R146). -/
theorem serveByte_completed_indices (b : Byte) (s : State) (h : completes b s = true) :
    (serveByte b s).widx = nextIndex s.widx ∧ (serveByte b s).ridx = s.ridx := by
  obtain ⟨hb, hs⟩ := (completes_iff b s).mp h
  rw [serveByte_data1 b s hb hs]
  exact ⟨rfl, rfl⟩

/-- A byte that completes no event leaves both indices, and every slot but the one being assembled. -/
theorem serveByte_not_completed (b : Byte) (s : State) (h : completes b s = false) :
    (serveByte b s).widx = s.widx ∧ (serveByte b s).ridx = s.ridx ∧
      ∀ i f, i ≠ s.widx → readSlot (serveByte b s) i f = readSlot s i f := by
  cases hb : isStatusByte b with
  | true => exact ⟨by rw [serveByte_status b s hb], by rw [serveByte_status b s hb],
      fun i f hi => by simp [readSlot_serveByte_status b s i f hb, hi]⟩
  | false =>
    cases hs : s.rxState with
    | idle => exact ⟨by rw [serveByte_idle b s hb hs], by rw [serveByte_idle b s hb hs],
        fun i f _ => readSlot_serveByte_idle b s i f hb hs⟩
    | awaitingByte1 => exact ⟨by rw [serveByte_data0 b s hb hs], by rw [serveByte_data0 b s hb hs],
        fun i f hi => by simp [readSlot_serveByte_data0 b s i f hb hs, hi]⟩
    | awaitingByte2 => simp [completes, hb, hs] at h

/-- Settles O17: a completion advances the write index alone, and with nine events shown that index meets `RIDX`. -/
theorem queueCompletionCount : Obligations.QueueCompletionCount := by
  refine fun s => ⟨queueEmpty_iff s, shownCount_eq s, fun hg hf hs hp hc => ?_⟩
  obtain ⟨hw, hr⟩ := serveByte_completed_indices s.rxdata s hc
  have hcount := shownCount_advanced s _ hw hr
  refine ⟨_, exec_svc_serves s hg hf hs hp, hr, fun h => by omega, fun h => ?_⟩
  have hzero : shownCount (serveByte s.rxdata s) = 0 := by omega
  have hempty := queueEmpty_of_shownCount _ hzero
  have hridx : s.ridx = nextIndex s.widx := by rw [← hw, ← hr]; exact (queueEmpty_iff _).mp hempty
  obtain ⟨hb, hstate⟩ := (completes_iff _ s).mp hc
  exact ⟨hempty, hzero, by rw [readSlot_serveByte_data1 _ s _ _ hb hstate, if_pos ⟨hridx, rfl⟩]⟩

/-- Settles O18: a byte that completes nothing changes only the slot being assembled; a completion changes that slot and
the next one's status. -/
theorem shownEventsGrow : Obligations.ShownEventsGrow := by
  intro s t hrx h
  rw [exec_svc_rx s hrx] at h
  obtain rfl := Host.Outcome.next.inj h
  refine ⟨fun hc => ?_, fun hc hcount => ?_⟩
  · obtain ⟨hw, hr, hslots⟩ := serveByte_not_completed _ s hc
    exact shownEvents_congr s _ hw hr hslots
  · obtain ⟨hw, hr⟩ := serveByte_completed_indices _ s hc
    obtain ⟨hb, hstate⟩ := (completes_iff _ s).mp hc
    rw [shownEvents_advanced s _ hw hr hcount, slotRecord_completed _ s hc]
    intro i f hi hnext
    simp [readSlot_serveByte_data1 _ s i f hb hstate, hi, hnext]

/-! ### Whole messages -/

/-- The byte of a message that a slot field takes (30_encoding.md R96). -/
def Message.field (m : Message) : SlotField → Byte
  | .status => m.status
  | .data0 => m.data0
  | .data1 => m.data1

/-- From one state to the next a message has been queued: it fills the slot that was being assembled, its status is
inherited by the next slot, and every other slot field is as before (41_midi_rx.md R146). -/
structure Queued (m : Message) (s t : State) : Prop where
  widx : t.widx = nextIndex s.widx
  ridx : t.ridx = s.ridx
  rxState : t.rxState = .awaitingByte1
  slots : ∀ i f, readSlot t i f =
    if i = s.widx then m.field f else if i = nextIndex s.widx ∧ f = .status then m.status else readSlot s i f

theorem Queued.record {m : Message} {s t : State} (h : Queued m s t) : slotRecord t s.widx = m.record := by
  simp [slotRecord, h.slots, Message.field, Message.record]

theorem Queued.status {m : Message} {s t : State} (h : Queued m s t) : readSlot t t.widx .status = m.status := by
  simp [h.widx, h.slots, nextIndex_ne]

theorem readSlot_feed (b : Byte) (s : State) (i : Fin Config.cap) (f : SlotField) :
    readSlot (feed b s) i f = readSlot (serveByte b s) i f := by
  rw [feed_eq]
  rfl

/-- Two data bytes queue a message under the status already in the slot (R146, running status). -/
theorem feeds_data (n v : Byte) (s : State) (hn : isStatusByte n = false) (hv : isStatusByte v = false)
    (hs : s.rxState = .awaitingByte1) : Queued ⟨readSlot s s.widx .status, n, v⟩ s (feeds [n, v] s) := by
  obtain ⟨-, hw, hst, hr, -⟩ := feed_fields n s
  obtain ⟨-, hw', hst', hr', -⟩ := feed_fields v (feed n s)
  rw [serveByte_data0 n s hn hs] at hw hst
  rw [serveByte_data1 v (feed n s) hv hst, hw] at hw'
  rw [serveByte_data1 v (feed n s) hv hst] at hst'
  refine ⟨hw', hr'.trans hr, hst', fun i f => ?_⟩
  simp only [feeds, readSlot_feed, readSlot_serveByte_data1 v _ _ _ hv hst, hw,
    readSlot_serveByte_data0 n s _ _ hn hs]
  by_cases hi : i = s.widx
  · rw [hi]
    cases f <;> simp [Message.field, (nextIndex_ne s.widx).symm]
  · simp [hi]

/-- A status byte and two data bytes queue a message, whatever the parser's state (R143). -/
theorem feeds_message (m : Message) (s : State) (h : m.ok = true) : Queued m s (feeds m.bytes s) := by
  obtain ⟨⟨hst, hn⟩, hv⟩ : (isStatusByte m.status = true ∧ isStatusByte m.data0 = false) ∧
      isStatusByte m.data1 = false := by simpa [Message.ok] using h
  obtain ⟨-, hw, hr, hridx, -⟩ := feed_fields m.status s
  rw [serveByte_status _ s hst] at hw hr
  have hslots : ∀ i f, readSlot (feed m.status s) i f =
      if i = s.widx ∧ f = .status then m.status else readSlot s i f := fun i f =>
    (readSlot_feed m.status s i f).trans (readSlot_serveByte_status m.status s i f hst)
  have hstatus : readSlot (feed m.status s) (feed m.status s).widx .status = m.status := by simp [hslots, hw]
  have hq := feeds_data m.data0 m.data1 (feed m.status s) hn hv hr
  rw [hstatus] at hq
  refine ⟨by rw [← hw]; exact hq.widx, hq.ridx.trans hridx, hq.rxState, fun i f => ?_⟩
  rw [Message.bytes, feeds, hq.slots i f, hw, hslots]
  by_cases hi : i = s.widx <;> simp [hi]

theorem feeds_append (bs cs : List Byte) (s : State) : feeds (bs ++ cs) s = feeds cs (feeds bs s) := by
  induction bs generalizing s with
  | nil => rfl
  | cons b bs ih => exact ih (feed b s)

/-- Bytes served one by one are echoed one by one (R142). -/
theorem feeds_out (bs : List Byte) (s : State) : (feeds bs s).out = s.out ++ bs.map .txb := by
  induction bs generalizing s with
  | nil => simp [feeds]
  | cons b bs ih =>
    obtain ⟨-, -, -, -, -, hout⟩ := feed_fields b s
    simp [feeds, ih, hout]

/-- Settles O15: the three bytes queue a message, and the two bytes after it queue one under the status it left. -/
theorem midiRoundTrip : Obligations.MidiRoundTrip := by
  intro s st n v n' v' hst hn hv hn' hv' hg hf hs hp
  have hready : Ready s := ⟨hg, hf, hs, hp⟩
  have h1 : Queued ⟨st, n, v⟩ s (feeds [st, n, v] s) := feeds_message ⟨st, n, v⟩ s (by simp [Message.ok, hst, hn, hv])
  have h2 := feeds_data n' v' (feeds [st, n, v] s) hn' hv' h1.rxState
  rw [h1.status] at h2
  refine ⟨⟨_, (rxMsgOps_run _ s hready).1, h1.record, h1.widx, h1.status, h1.rxState, h1.ridx, feeds_out _ s⟩,
    ⟨_, (rxMsgOps_run _ s hready).1, ?_, ?_, ?_, h2.status, h2.rxState, h2.ridx.trans h1.ridx, feeds_out _ s⟩⟩
  · refine Eq.trans ?_ h1.record
    refine slotRecord_congr _ _ s.widx fun f => (h2.slots s.widx f).trans ?_
    simp [h1.widx, (nextIndex_ne s.widx).symm, (nextIndex_nextIndex_ne s.widx).symm]
  · rw [← h1.widx]
    exact h2.record
  · rw [← h1.widx]
    exact h2.widx

/-! ### The contents after any number of messages (R149) -/

/-- What the queue holds after messages with no read, from an empty queue at index 0. A slot field of one of the last
ten messages holds its byte, but for the status of the slot at `WIDX`, which is the last message's. -/
structure HoldsMessages (ms : List Message) (t : State) : Prop where
  widx : t.widx.val = ms.length % 10
  ridx : t.ridx = 0
  shown : shownEvents t = (ms.drop (ms.length - ms.length % 10)).map Message.record
  slots : ∀ (j : ℕ) (m : Message) (f : SlotField), ms[j]? = some m → ms.length ≤ j + 10 →
    (f = .status → Fin.ofNat 10 j ≠ t.widx) → readSlot t (Fin.ofNat 10 j) f = m.field f
  status : ∀ m : Message, ms.getLast? = some m → readSlot t t.widx .status = m.status

theorem holdsMessages_nil (s : State) (hw : s.widx = 0) (hr : s.ridx = 0) : HoldsMessages [] s := by
  constructor <;> simp [hw, hr, shownEvents, shownCount]

/-- What is shown after one more message: one event more, or nothing at the tenth. -/
theorem HoldsMessages.shown_queued {ms : List Message} {m : Message} {s t : State} (h : HoldsMessages ms s)
    (hq : Queued m s t) :
    shownEvents t = ((ms ++ [m]).drop ((ms ++ [m]).length - (ms ++ [m]).length % 10)).map Message.record := by
  have hcount : shownCount s = ms.length % 10 := by simp [shownCount, h.ridx, h.widx]
  rw [List.length_append, List.length_singleton]
  rcases Nat.lt_or_ge (ms.length % 10) 9 with hlt | hge
  · have hslots : ∀ i f, i ≠ s.widx → i ≠ nextIndex s.widx → readSlot t i f = readSlot s i f := fun i f hi hn => by
      simp [hq.slots, hi, hn]
    rw [shownEvents_advanced s t hq.widx hq.ridx (by omega) hslots, h.shown, hq.record,
      show ms.length + 1 - (ms.length + 1) % 10 = ms.length - ms.length % 10 by omega,
      List.drop_append_of_le_length (Nat.sub_le _ _), List.map_append, List.map_singleton]
  · have hzero : shownCount t = 0 := by
      rw [shownCount_advanced s t hq.widx hq.ridx]
      omega
    rw [show ms.length + 1 - (ms.length + 1) % 10 = ms.length + 1 by omega, List.drop_of_length_le (by simp)]
    simp [shownEvents, hzero]

/-- One more message takes the slot at `WIDX`, which is none of the nine messages' before it. -/
theorem HoldsMessages.queued {ms : List Message} {m : Message} {s t : State} (h : HoldsMessages ms s)
    (hq : Queued m s t) : HoldsMessages (ms ++ [m]) t := by
  have hwidx : ∀ j, Fin.ofNat 10 j = s.widx ↔ j % 10 = ms.length % 10 := fun j => by
    rw [Fin.ext_iff, h.widx, Fin.val_ofNat]
  refine ⟨?_, hq.ridx.trans h.ridx, h.shown_queued hq, fun j m' f hj hlen hf => ?_, fun m' hm' => ?_⟩
  · rw [hq.widx, nextIndex_val, h.widx, List.length_append, List.length_singleton]
    omega
  · rw [List.length_append, List.length_singleton] at hlen
    rw [hq.slots]
    rcases Nat.lt_trichotomy j ms.length with hlt | rfl | hgt
    · rw [List.getElem?_append_left hlt] at hj
      have hne : Fin.ofNat 10 j ≠ s.widx := by rw [Ne, hwidx]; omega
      have hnext : ¬(Fin.ofNat 10 j = nextIndex s.widx ∧ f = .status) := fun ⟨he, hs⟩ => hf hs (he.trans hq.widx.symm)
      rw [if_neg hne, if_neg hnext]
      exact h.slots j m' f hj (by omega) fun _ => hne
    · obtain rfl : m = m' := by simpa using hj
      exact if_pos ((hwidx _).mpr rfl)
    · rw [List.getElem?_eq_none (by simp; omega)] at hj
      cases hj
  · obtain rfl : m = m' := by simpa using hm'
    exact hq.status

theorem holdsMessages_feeds (ms : List Message) (s : State) (hok : ∀ m ∈ ms, m.ok = true) (hw : s.widx = 0)
    (hr : s.ridx = 0) : HoldsMessages ms (feeds (ms.flatMap Message.bytes) s) := by
  induction ms using List.reverseRecOn with
  | nil => exact holdsMessages_nil s hw hr
  | append_singleton ms m ih =>
    rw [List.forall_mem_append, List.forall_mem_singleton] at hok
    rw [List.flatMap_append, List.flatMap_singleton, feeds_append]
    exact (ih hok.1).queued (feeds_message m _ hok.2)

/-- Settles O19, by induction on the messages: each takes the slot at `WIDX`. -/
theorem contentsAfterMessages : Obligations.ContentsAfterMessages := by
  intro ms s hok hg hf hs hp hw hr
  have h := holdsMessages_feeds ms s hok hw hr
  refine ⟨_, (rxMsgOps_run _ s ⟨hg, hf, hs, hp⟩).1, h.widx, h.ridx, h.shown, fun j m hj hlen => ?_, h.status,
    feeds_out _ s⟩
  exact ⟨h.slots j m .data0 hj hlen nofun, h.slots j m .data1 hj hlen nofun,
    fun hne => h.slots j m .status hj hlen fun _ => hne⟩

end Sys2Proof.Machine
end

section
/-! PROOFS. Synthesis's statements (42_synth.md): the advance, the interpolation and the scale in exact integers, the
sample service of an active and of an inactive oscillator, and the phase and the frames after any number of sample
periods. -/

namespace Sys2Proof.Machine

/-! ### The advance (R173, R174) -/

/-- A phase in range stands still under the increment 0. -/
theorem advance_zero (p : Phase) (h : p.toNat < Config.pmod) : advance p 0#24 = p :=
  BitVec.eq_of_toNat_eq (by rw [advance_toNat_mod p 0#24 h (by decide)]; exact Nat.mod_eq_of_lt h)

/-- Settles O30: the two branches of the exact advance, whose result is in range. -/
theorem advanceRule : Obligations.AdvanceRule := by
  intro p i hp hi
  have hexact := advance_toNat p i hp hi
  have hlt := advance_lt p i hp hi
  exact ⟨fun h => hexact.trans (if_pos h), fun h => hexact.trans (if_neg (Nat.not_le.mpr h)), hlt,
    Nat.le_of_lt_succ (phaseIndex_lt _ hlt), advance_zero p hp⟩

/-! ### The interpolation (R176) -/

/-- On a rising slope the interpolation adds the floor of the fraction of the rise. -/
theorem interp_rising (a b : Byte) (frac : BitVec 16) (h : a.toNat ≤ b.toNat) :
    (interp a b frac).toNat = a.toNat + (b.toNat - a.toNat) * frac.toNat / 65536 := by
  obtain ⟨d, hd⟩ := Nat.exists_eq_add_of_le h
  have hexact := interp_toNat a b frac
  rw [hd, Nat.cast_add, add_sub_cancel_left, ← Nat.cast_mul] at hexact
  rw [hd, Nat.add_sub_cancel_left]
  omega

/-- On a falling slope the interpolation takes off the ceiling of the fraction of the fall. -/
theorem interp_falling (a b : Byte) (frac : BitVec 16) (h : b.toNat ≤ a.toNat) :
    (interp a b frac).toNat = a.toNat - ((a.toNat - b.toNat) * frac.toNat + 65535) / 65536 := by
  obtain ⟨d, hd⟩ := Nat.exists_eq_add_of_le h
  have hexact := interp_toNat a b frac
  rw [hd, Nat.cast_add, sub_add_cancel_left, neg_mul, ← Nat.cast_mul] at hexact
  rw [hd, Nat.add_sub_cancel_left]
  omega

/-- A 16-bit fraction of a number is at most the number. -/
theorem mul_frac_le (d : ℕ) (frac : BitVec 16) : d * frac.toNat ≤ d * 65535 :=
  Nat.mul_le_mul_left d (Nat.le_of_lt_succ frac.isLt)

/-- The interpolation lies between its operands. -/
theorem interp_between (a b : Byte) (frac : BitVec 16) :
    min a.toNat b.toNat ≤ (interp a b frac).toNat ∧ (interp a b frac).toNat ≤ max a.toNat b.toNat := by
  rcases le_total a.toNat b.toNat with h | h
  · have hfrac := mul_frac_le (b.toNat - a.toNat) frac
    rw [interp_rising a b frac h]
    omega
  · have hfrac := mul_frac_le (a.toNat - b.toNat) frac
    rw [interp_falling a b frac h]
    omega

/-- At the fraction 0 the interpolation is its first operand. -/
theorem interp_zero (a b : Byte) : interp a b 0#16 = a := by
  apply BitVec.eq_of_toNat_eq
  rcases le_total a.toNat b.toNat with h | h
  · simp [interp_rising a b _ h]
  · simp [interp_falling a b _ h]

/-- Between equal operands the interpolation is flat. -/
theorem interp_self (a : Byte) (frac : BitVec 16) : interp a a frac = a :=
  BitVec.eq_of_toNat_eq (by simp [interp_rising a a frac le_rfl])

/-- Settles O31: the exact value, and the laws of the two slopes, from which the bounds follow. -/
theorem interpolationRule : Obligations.InterpolationRule := by
  intro a b frac
  obtain ⟨hmin, hmax⟩ := interp_between a b frac
  refine ⟨interp_toNat a b frac, hmin, hmax, ?_, ?_, fun h => interp_rising a b frac h.le,
    fun h => interp_falling a b frac h.le⟩
  · rintro rfl
    exact interp_zero a b
  · rintro rfl
    exact interp_self a frac

/-! ### The scale (R177) -/

/-- Settles O32: the exact scale; a byte times 16 stays below the clip, and a product exceeds 4095 exactly where its
factor exceeds the quotient. -/
theorem scaleRule : Obligations.ScaleRule := by
  intro s8 amp
  have hexact := scale_toNat s8 amp
  refine ⟨hexact, ?_, ?_, fun h => (Nat.div_lt_iff_lt_mul (by omega)).symm⟩
  · rintro rfl
    have hbyte : s8.toNat < 256 := s8.isLt
    have hprod : (scale s8 16#8).toNat = min (s8.toNat * 16) 4095 := hexact
    omega
  · rintro rfl
    exact BitVec.eq_of_toNat_eq (by simp [hexact])

/-! ### The sample service (R170, R171, R178) -/

/-- `SVC` with a tick pending is the sample service (60_exceptions.md R257, R258). -/
theorem exec_svc_sample (s : State) (hg : s.gie = true) (hf : s.frState = .idle) (hs : s.smpp = true) :
    exec .svc s = sampleService s := by
  have he : svcEnabled s = true := (svcEnabled_iff s).mpr ⟨hg, hf, .inl hs⟩
  simp [exec, execSvc, he, hs]

/-- Frame start, with byte 1 as a number (42_synth.md R178, 30_encoding.md R102). -/
theorem frameStart_eq_ofNat (d : Sample12) (s : State) :
    frameStart d s =
      { s with out := s.out ++ [.csAssert, .dacb (BitVec.ofNat 8 (0x30 + d.toNat / 256))], frSample := d, cs := true,
               frState := .byte1 } := by
  rw [frameStart_eq, ← frameByte1_toNat, BitVec.ofNat_toNat, BitVec.setWidth_eq]

/-- The sample at a phase in range, from the waveform's own samples: the tables hold them (R174 to R177). -/
theorem voiceSample_filled (s : State) (p : Phase) (hwt : s.wt = filledTables) (hp : p.toNat < Config.pmod) :
    voiceSample s p =
      scale (interp (waveSample s.oscWave (phaseIndex p)) (waveSample s.oscWave (nextTableIndex (phaseIndex p)))
        (phaseFrac p)) s.oscAmp := by
  rw [voiceSample, readTable_filled s _ _ hwt (phaseIndex_lt p hp), readTable_filled s _ _ hwt (nextTableIndex_lt _)]

/-- The sample at a phase in range, in exact integers (R174 to R177). -/
theorem voiceSample_toNat (s : State) (p : Phase) (hwt : s.wt = filledTables) (hp : p.toNat < Config.pmod) (a b : ℕ)
    (ha : a = (waveSample s.oscWave (p.toNat / 65536)).toNat)
    (hb : b = (waveSample s.oscWave ((p.toNat / 65536 + 1) % 160)).toNat) :
    (voiceSample s p).toNat =
      min ((((a : ℤ) * 65536 + ((b : ℤ) - a) * (p.toNat % 65536 : ℕ)) / 65536).toNat * s.oscAmp.toNat) 4095 := by
  rw [voiceSample_filled s p hwt hp, scale_toNat, ← Int.toNat_natCast (interp _ _ _).toNat, interp_toNat,
    phaseFrac_toNat, phaseIndex_eq, ha, hb]
  rfl

/-- The sample service of an active oscillator in range advances, plays and starts the frame (R170, R178). -/
theorem sampleService_active (s : State) (hi : Inv s) (ht : s.tblValid = true) (ha : s.oscActive = true) :
    sampleService s = .next (frameStart (voiceSample s (advance s.oscPhase s.oscInc))
      { s with smpp := false, oscPhase := advance s.oscPhase s.oscInc }) := by
  obtain ⟨p, hrun, hp, -⟩ := sampleService_run s hi ht
  rw [hrun, hp ha, tickSample, if_pos ha]

/-- Settles O28: the service advances, plays and starts the frame, and each of the three is exact. -/
theorem sampleServiceActive : Obligations.SampleServiceActive := by
  intro s hi hg hf hs ht hact T P idx frac a b S8 S12 hT hP hidx hfrac ha hb hS8 hS12
  have hphase : (advance s.oscPhase s.oscInc).toNat = P := by
    rw [hP, hT]
    exact advance_toNat _ _ hi.phase_lt hi.inc_lt
  have hsample : (voiceSample s (advance s.oscPhase s.oscInc)).toNat = S12 := by
    rw [hS12, hS8, hfrac, ← hphase]
    exact voiceSample_toNat s _ (hi.tables_filled ht) (advance_lt _ _ hi.phase_lt hi.inc_lt) a b
      (by rw [ha, hidx, hphase]) (by rw [hb, hidx, hphase])
  rw [exec_svc_sample s hg hf hs, sampleService_active s hi ht hact, frameStart_eq_ofNat, ← hsample, ← hphase]
  simp only [BitVec.ofNat_toNat, BitVec.setWidth_eq]

/-- Settles O29: the two answers of the service without an oscillator to serve. -/
theorem sampleServiceInactive : Obligations.SampleServiceInactive := by
  intro s hg hf hs
  rw [exec_svc_sample s hg hf hs]
  refine ⟨fun ht ha => ?_, fun ht => ?_⟩
  · simp only [sampleService, ht, ha, if_true, Bool.false_eq_true, if_false]
    exact congrArg _ (frameStart_eq_ofNat 0#12 _)
  · simp only [sampleService, ht, Bool.false_eq_true, if_false]

/-! ### The clocks of a tick (60_exceptions.md R262) -/

/-- The clocks before the match only count. -/
theorem clocks_before_match (s : State) (ht : s.ten = true) (n : ℕ) (hn : n < clocksToMatch s) :
    runOps (List.replicate n .clk) s = .next { s with cnt := s.cnt + BitVec.ofNat 16 n } := by
  induction n with
  | zero => simp [runOps]
  | succ n ih =>
    have hne : s.cnt + BitVec.ofNat 16 n ≠ s.count := by
      unfold clocksToMatch at hn
      bv_omega
    rw [List.replicate_succ', runOps_append _ _ _ _ (ih (by omega)), BitVec.ofNat_add, ← BitVec.add_assoc]
    simp [runOps, exec, execClk, timerMatch, ht, hne]

/-- `TICK` of a running timer starts it again and raises the sample clock (30_encoding.md R112). -/
theorem tickOps_run (s : State) (ht : s.ten = true) :
    runOps (tickOps s) s = .next { s with cnt := 0#16, smpp := true } := by
  have hmatch : s.cnt + BitVec.ofNat 16 (s.count - s.cnt).toNat = s.count := by
    rw [BitVec.ofNat_toNat, BitVec.setWidth_eq, BitVec.add_comm, BitVec.sub_add_cancel]
  rw [tickOps, clocksToMatch, List.replicate_succ',
    runOps_append _ _ _ _ (clocks_before_match s ht _ (Nat.lt_succ_self _)), hmatch]
  simp [runOps, exec, execClk, timerMatch, ht]

/-! ### The pitch law (R181) -/

/-- Between two ticks of an active oscillator: the timer runs, the mask is open, no frame is in progress. -/
structure Sounding (s : State) : Prop where
  inv : Inv s
  gie : s.gie = true
  ten : s.ten = true
  tblValid : s.tblValid = true
  oscActive : s.oscActive = true
  frState : s.frState = .idle
  smpp : s.smpp = false

/-- What one sample period does: the phase advances by the increment, the frame of its sample is sent, and the voice
stays the same. -/
structure SamplePeriod (s t : State) : Prop where
  sounding : Sounding t
  phase : t.oscPhase.toNat = (s.oscPhase.toNat + s.oscInc.toNat) % Config.pmod
  inc : t.oscInc = s.oscInc
  voice : voiceSample t = voiceSample s
  out : t.out = s.out ++ frameEvents (voiceSample s t.oscPhase)

/-- `SAMPLE` is one sample period (30_encoding.md R112): the clocks of the tick, then the frame. -/
theorem sampleOps_run (s : State) (h : Sounding s) : ∃ t, runOps (sampleOps s) s = .next t ∧ SamplePeriod s t := by
  obtain ⟨p, hframe, hp, -⟩ := frameOps_run { s with cnt := 0#16, smpp := true } { h.inv with } h.gie h.frState rfl
    h.tblValid
  have hrun := (runOps_append _ frameOps _ _ (tickOps_run s h.ten)).trans hframe
  have hsample : tickSample { s with cnt := 0#16, smpp := true } = voiceSample s p := by
    rw [hp h.oscActive]
    exact if_pos h.oscActive
  refine ⟨_, hrun, ⟨?_, h.gie, h.ten, h.tblValid, h.oscActive, rfl, rfl⟩, ?_, rfl, rfl, ?_⟩
  · exact runOps_induction Inv (fun _ => True) (fun i u v _ => inv_exec i u v) _ s _ (fun _ _ => trivial) h.inv hrun
  · rw [hp h.oscActive]
    exact advance_toNat_mod _ _ h.inv.phase_lt h.inv.inc_lt
  · rw [hsample]

/-- The frames of `n` sample periods from the phase `P0` with the increment `I`, each with the sample at its own
phase. -/
def framesOfPeriods (voice : Phase → Sample12) (P0 I n : ℕ) : List Event :=
  (List.range n).flatMap fun j => frameEvents (voice (BitVec.ofNat 24 ((P0 + (j + 1) * I) % Config.pmod)))

/-- The first period's frame, then those of the periods from the phase it left. -/
theorem framesOfPeriods_succ (voice : Phase → Sample12) (P0 I n : ℕ) :
    framesOfPeriods voice P0 I (n + 1) =
      frameEvents (voice (BitVec.ofNat 24 ((P0 + I) % Config.pmod))) ++
        framesOfPeriods voice ((P0 + I) % Config.pmod) I n := by
  have hphase : ∀ j, (P0 + (j + 1 + 1) * I) % Config.pmod = ((P0 + I) % Config.pmod + (j + 1) * I) % Config.pmod :=
    fun j => by rw [Nat.mod_add_mod]; congr 1; ring
  simp [framesOfPeriods, List.range_succ_eq_map, List.flatMap_map, hphase]

/-- `SAMPLE`, `n` times, by induction on the sample periods. -/
theorem playSamples_run (n : ℕ) (s : State) (h : Sounding s) :
    ∃ t, playSamples n s = .next t ∧ t.oscPhase.toNat = (s.oscPhase.toNat + n * s.oscInc.toNat) % Config.pmod ∧
      t.oscInc = s.oscInc ∧
      t.out = s.out ++ framesOfPeriods (voiceSample s) s.oscPhase.toNat s.oscInc.toNat n := by
  induction n generalizing s with
  | zero =>
    refine ⟨s, rfl, ?_, rfl, (List.append_nil _).symm⟩
    rw [Nat.zero_mul, Nat.add_zero, Nat.mod_eq_of_lt h.inv.phase_lt]
  | succ n ih =>
    obtain ⟨u, hrun, hu⟩ := sampleOps_run s h
    obtain ⟨t, hplay, hphase, hinc, hout⟩ := ih u hu.sounding
    refine ⟨t, by rw [playSamples, hrun]; exact hplay, ?_, hinc.trans hu.inc, ?_⟩
    · rw [hphase, hu.phase, hu.inc, Nat.mod_add_mod, Nat.add_assoc, Nat.succ_mul, Nat.add_comm s.oscInc.toNat]
    · rw [framesOfPeriods_succ, ← hu.phase, BitVec.ofNat_toNat, BitVec.setWidth_eq, hout, hu.out, hu.voice, hu.inc,
        List.append_assoc]

/-- Settles O33: the run of `n` sample periods. -/
theorem pitchLaw : Obligations.PitchLaw := fun n s hi hg hten ht ha hf hs =>
  playSamples_run n s ⟨hi, hg, hten, ht, ha, hf, hs⟩

end Sys2Proof.Machine
end

section
/-! PROOFS. The converter framer's statements (43_dac_framer.md): the completions, what each instruction emits, the
DACFRAME word, the bus history as whole frames, and the transport, without which a frame stays and with which it ends. -/

namespace Sys2Proof.Machine

/-! ### The completions (R204, R205) -/

/-- Settles O34: the completion by the framer's state; byte 2 is the latch's low byte. -/
theorem xdoneRule : Obligations.XdoneRule := by
  refine fun s => ⟨fun h => ?_, fun h => congrArg _ (completion_byte2 s h), fun h => congrArg _ (completion_idle s h)⟩
  rw [← frameByte2_eq]
  exact congrArg _ (completion_byte1 s h)

/-! ### What each instruction emits (R208, 41_midi_rx.md R142, 00_scope.md R10) -/

/-- The events are those of the operation performed. -/
theorem emitted_congr (i o : Instr) (s : State) (h : performs i s = performs o s) : emitted i s = emitted o s := by
  rw [emitted, h, emitted]

theorem emitted_of_performs_other (i : Instr) (s : State) (hsvc : performs i s ≠ some .svc)
    (hxdone : performs i s ≠ some .xdone) : emitted i s = [] := by
  simp [emitted, hsvc, hxdone]

theorem execSvc_out (s t : State) (h : execSvc s = .next t) : t.out = s.out ++ emitted .svc s := by
  rcases execSvc_next s t h with ⟨hoff, rfl⟩ | ⟨hon, hsmpp, _, p, _, _, rfl⟩ | ⟨hrx, rfl⟩
  · simp [emitted, performs, hoff]
  · simp [emitted, performs, hon, hsmpp, frameStart_eq]
  · obtain ⟨hg, hf, hsmpp, hrxp⟩ := (rxDispatchable_iff s).mp hrx
    have hon : svcEnabled s = true := (svcEnabled_iff s).mpr ⟨hg, hf, .inr hrxp⟩
    rw [serveByte_frame]
    simp [emitted, performs, hon, hsmpp]

theorem completion_out (s : State) : (completion s).out = s.out ++ emitted .xdone s := by
  rcases completion_cases s with ⟨hf, he⟩ | ⟨hf, he⟩ | ⟨hf, he⟩ <;> simp [he, emitted, performs, hf]

/-- An instruction that performs neither `SVC` nor `XDONE` emits nothing; nor does `RST`
(70_reset_and_hazards.md R293). -/
theorem out_of_performs_other (i : Instr) (s t : State) (h : exec i s = .next t) (hsvc : performs i s ≠ some .svc)
    (hxdone : performs i s ≠ some .xdone) : t.out = s.out := by
  rcases exec_next_cases i s t h with ⟨_, rfl⟩ | ⟨_, rfl⟩ | ⟨_, rfl⟩ | ⟨_, hclk⟩ | ⟨b, _, _, rfl⟩ | ⟨hp, _⟩ |
    ⟨hp, _⟩ | ⟨_, _, _, rfl⟩ | ⟨_, v, r, _, _, _, hwr⟩
  · rfl
  · rfl
  · rfl
  · rcases execClk_next s t hclk with rfl | ⟨_, rfl⟩ | rfl <;> rfl
  · rfl
  · exact absurd hp hsvc
  · exact absurd hp hxdone
  · rfl
  · rcases writeReg_next r v s t hwr with ⟨_, _, rfl⟩ | ⟨_, rfl⟩ | ⟨_, rfl⟩ | ⟨_, rfl⟩ | ⟨_, rfl⟩ | ⟨_, _, rfl⟩ |
      ⟨_, _, rfl⟩ | ⟨_, rfl⟩ <;> rfl

/-- An instruction that performs `XDONE` is the completion. -/
theorem eq_completion_of_performs_xdone (i : Instr) (s t : State) (hp : performs i s = some .xdone)
    (h : exec i s = .next t) : t = completion s := by
  rw [exec_of_performs_some i _ s hp] at h
  exact (Host.Outcome.next.inj h).symm

/-- Settles O39: the events are those of the `SVC` or the `XDONE` that the instruction performs. -/
theorem outputEvents : Obligations.OutputEvents := by
  intro i s t h
  by_cases hsvc : performs i s = some .svc
  · rw [exec_of_performs_some i _ s hsvc] at h
    rw [emitted_congr i .svc s hsvc]
    exact execSvc_out s t h
  by_cases hxdone : performs i s = some .xdone
  · rw [eq_completion_of_performs_xdone i s t hxdone h, emitted_congr i .xdone s hxdone]
    exact completion_out s
  · rw [emitted_of_performs_other i s hsvc hxdone, List.append_nil]
    exact out_of_performs_other i s t h hsvc hxdone

/-! ### The DACFRAME word (R201; log 9) -/

section
variable (d : Sample12) (s : State)

/-- The word of the tick's sample starts its frame. -/
theorem exec_dacFrame_start (hi : Inv s) (hg : s.gie = true) (hf : s.frState = .idle) (hs : s.smpp = true)
    (ht : s.tblValid = true) (hd : tickSample s = d) :
    ∃ p, exec (.dacFrame d) s = .next (frameStart d { s with smpp := false, oscPhase := p }) ∧
      exec .svc s = .next (frameStart d { s with smpp := false, oscPhase := p }) ∧
      (s.oscActive = true → p = advance s.oscPhase s.oscInc) ∧ (s.oscActive = false → p = s.oscPhase) := by
  obtain ⟨p, hrun, hp⟩ := sampleService_run s hi ht
  have hsvc := (exec_svc_sample s hg hf hs).trans hrun
  have hsends : sends d s = true :=
    (sends_iff d s).mpr (.inl ⟨hf, (svcEnabled_iff s).mpr ⟨hg, hf, .inl hs⟩, hs, ht, hd⟩)
  have hperforms : performs (.dacFrame d) s = some .svc := by
    simp [performs, hsends, (frameInProgress_false_iff s).mpr hf]
  rw [hd] at hsvc
  exact ⟨p, (exec_of_performs_some _ _ s hperforms).trans hsvc, hsvc, hp⟩

/-- The word of the sample in the latch is a completion of its frame. -/
theorem exec_dacFrame_completion (hf : s.frState ≠ .idle) (hd : s.frSample = d) :
    exec (.dacFrame d) s = .next (completion s) := by
  have hsends : sends d s = true := (sends_iff d s).mpr (.inr ⟨hf, hd⟩)
  have hperforms : performs (.dacFrame d) s = some .xdone := by
    simp [performs, hsends, (frameInProgress_true_iff s).mpr hf]
  exact exec_of_performs_some _ _ s hperforms

theorem exec_dacFrame_not_sends (h : sends d s = false) : exec (.dacFrame d) s = .next s :=
  exec_of_performs_none _ s (by simp [performs, h])

/-- No step that sends the sample is due: another frame is in progress, or no service of such a tick is enabled. -/
theorem sends_eq_false (h : (s.frState ≠ .idle ∧ s.frSample ≠ d) ∨
    (s.frState = .idle ∧ (s.gie = false ∨ s.smpp = false ∨ s.tblValid = false ∨ tickSample s ≠ d))) :
    sends d s = false := by
  rw [← Bool.not_eq_true, sends_iff, svcEnabled_iff]
  rintro (⟨hf, ⟨hg, -⟩, hs, ht, hd⟩ | ⟨hf, hd⟩)
  · simp [hf, hg, hs, ht, hd] at h
  · simp [hf, hd] at h

/-- Three words of one sample run as `FRAME` once the first has started the sample's frame. -/
theorem dacFrame_run (u : State) (hword : exec (.dacFrame d) s = .next (frameStart d u))
    (hsvc : exec .svc s = .next (frameStart d u)) :
    runOps [.dacFrame d, .dacFrame d, .dacFrame d] s = .next (completion (completion (frameStart d u))) ∧
      runOps frameOps s = .next (completion (completion (frameStart d u))) := by
  have hfirst := exec_dacFrame_completion d (frameStart d u) (by simp [frameStart_eq]) (by simp [frameStart_eq])
  have hsecond := exec_dacFrame_completion d (completion (frameStart d u)) (by simp [frameStart_eq, completion_byte1])
    (by simp [frameStart_eq, completion_byte1])
  constructor
  · rw [runOps_cons _ _ _ _ hword, runOps_cons _ _ _ _ hfirst, runOps_cons _ _ _ _ hsecond, runOps]
  · rw [frameOps, runOps_cons _ _ _ _ hsvc, runOps_cons _ _ _ _ rfl, runOps_cons _ _ _ _ rfl, runOps]

end

/-- Settles O37: the word is the `SVC` or the `XDONE` that is due, and else nothing is. -/
theorem dacFrameRow : Obligations.DacFrameRow := by
  refine fun d s => ⟨fun hi hg hf hs ht hd => ?_, fun hf hd => ?_, fun hf hd => ?_, fun h => ?_⟩
  · obtain ⟨p, hword, hsvc, hp⟩ := exec_dacFrame_start d s hi hg hf hs ht hd
    obtain ⟨hwords, hframe⟩ := dacFrame_run d s _ hword hsvc
    refine ⟨⟨p, by rw [hword, frameStart_eq_ofNat], hp⟩, _, hwords, hframe, ?_⟩
    rw [wholeFrame_eq, frameEvents_eq]
  · rw [exec_dacFrame_completion d s (by simp [hf]) hd, completion_byte1 s hf, hd, ← frameByte2_toNat,
      BitVec.ofNat_toNat, BitVec.setWidth_eq]
  · rw [exec_dacFrame_completion d s (by simp [hf]) hd, completion_byte2 s hf]
  · exact exec_dacFrame_not_sends d s (sends_eq_false d s h)

/-! ### The bus history as whole frames (R207) -/

section
variable (s : State)

theorem frameSoFar_idle (h : s.frState = .idle) : frameSoFar s = [] := by simp [frameSoFar, h]

theorem frameSoFar_byte1 (h : s.frState = .byte1) :
    frameSoFar s = [.csAssert, .dacb (frameByte1 s.frSample)] := by simp [frameSoFar, h, frameEvents]

theorem frameSoFar_byte2 (h : s.frState = .byte2) :
    frameSoFar s = [.csAssert, .dacb (frameByte1 s.frSample), .dacb (frameByte2 s.frSample)] := by
  simp [frameSoFar, h, frameEvents]

/-- The frame in progress is a frame cut short. -/
theorem frameSoFar_eq_take : ∃ n < 4, frameSoFar s = (frameEvents s.frSample).take n := by
  cases h : s.frState with
  | idle => exact ⟨0, by decide, frameSoFar_idle s h⟩
  | byte1 => exact ⟨2, by decide, frameSoFar_byte1 s h⟩
  | byte2 => exact ⟨3, by decide, frameSoFar_byte2 s h⟩

end

theorem frameSoFar_congr (s t : State) (hf : t.frState = s.frState) (hd : t.frSample = s.frSample) :
    frameSoFar t = frameSoFar s := by
  simp only [frameSoFar, hf, hd]

theorem busHistory_append (s t : State) (es : List Event) (h : t.out = s.out ++ es) :
    busHistory t = busHistory s ++ es.filter isBusEvent := by
  rw [busHistory, h, List.filter_append, busHistory]

/-- The frame in progress goes on by the bus events emitted. -/
theorem BusInv.extend {cuts : Bool} {s t : State} (h : BusInv cuts s) (es : List Event) (hout : t.out = s.out ++ es)
    (hframe : frameSoFar t = frameSoFar s ++ es.filter isBusEvent) : BusInv cuts t := by
  obtain ⟨l, hl, hs⟩ := h
  exact ⟨l, hl, by rw [busHistory_append s t es hout, hs, hframe, List.append_assoc]⟩

/-- What leaves the framer alone and emits nothing on the bus keeps the bus history. -/
theorem BusInv.congr {cuts : Bool} {s t : State} (h : BusInv cuts s) (es : List Event) (hout : t.out = s.out ++ es)
    (hbus : es.filter isBusEvent = []) (hf : t.frState = s.frState) (hd : t.frSample = s.frSample) :
    BusInv cuts t :=
  h.extend es hout (by rw [frameSoFar_congr s t hf hd, hbus, List.append_nil])

/-- `SVC`: a sample service begins a frame with its first two events; an echo is not of the bus. -/
theorem busInv_execSvc (cuts : Bool) (s t : State) (h : BusInv cuts s) (ht : execSvc s = .next t) : BusInv cuts t := by
  rcases execSvc_next s t ht with ⟨_, rfl⟩ | ⟨hon, _, _, p, _, _, rfl⟩ | ⟨_, rfl⟩
  · exact h
  · obtain ⟨-, hf, -⟩ := (svcEnabled_iff s).mp hon
    rw [frameStart_eq]
    refine h.extend [.csAssert, .dacb (frameByte1 (tickSample s))] rfl ?_
    rw [frameSoFar_byte1 _ rfl, frameSoFar_idle s hf]
    rfl
  · rw [serveByte_frame]
    exact h.congr [.txb s.rxdata] rfl rfl rfl rfl

/-- `XDONE`: the first completion carries the frame on, the second makes it whole. -/
theorem busInv_completion (cuts : Bool) (s : State) (h : BusInv cuts s) : BusInv cuts (completion s) := by
  rcases completion_cases s with ⟨_, he⟩ | ⟨hf, he⟩ | ⟨hf, he⟩ <;> rw [he]
  · exact h
  · refine h.extend [.dacb (frameByte2 s.frSample)] rfl ?_
    rw [frameSoFar_byte2 _ rfl, frameSoFar_byte1 s hf]
    rfl
  · obtain ⟨l, hl, hs⟩ := h
    refine ⟨l ++ frameEvents s.frSample, hl.whole _ _, ?_⟩
    rw [busHistory_append s _ [.csDeassert] rfl, hs, frameSoFar_byte2 s hf, frameSoFar_idle _ rfl, List.append_nil,
      List.append_assoc]
    rfl

/-- An instruction that performs neither `SVC` nor `XDONE` and is not `RST` leaves the framer as it is
(20_memory.md R67). -/
theorem framer_of_performs_other (i : Instr) (s t : State) (hrst : i ≠ .rst) (h : exec i s = .next t)
    (hsvc : performs i s ≠ some .svc) (hxdone : performs i s ≠ some .xdone) :
    t.frState = s.frState ∧ t.frSample = s.frSample ∧ t.cs = s.cs := by
  obtain ⟨-, -, -, -, -, -, -, -, hsample, hframer, -⟩ := ownership i s t hrst h
  have hkept : ¬(t.frState ≠ s.frState ∨ t.cs ≠ s.cs) := fun hne =>
    (hframer hne).elim (fun hp => hsvc hp.1) hxdone
  obtain ⟨hf, hcs⟩ := not_or.mp hkept
  exact ⟨not_not.mp hf, not_not.mp fun hne => hsvc (hsample hne).1, not_not.mp hcs⟩

/-- Every instruction but `RST` keeps the bus history a sequence of frames, with no new cut. -/
theorem busInv_exec (cuts : Bool) (i : Instr) (s t : State) (h : BusInv cuts s) (hrst : i ≠ .rst)
    (ht : exec i s = .next t) : BusInv cuts t := by
  by_cases hsvc : performs i s = some .svc
  · rw [exec_of_performs_some i _ s hsvc] at ht
    exact busInv_execSvc cuts s t h ht
  by_cases hxdone : performs i s = some .xdone
  · rw [eq_completion_of_performs_xdone i s t hxdone ht]
    exact busInv_completion cuts s h
  · obtain ⟨hf, hd, -⟩ := framer_of_performs_other i s t hrst ht hsvc hxdone
    have hout := out_of_performs_other i s t ht hsvc hxdone
    exact h.congr [] (by rw [hout, List.append_nil]) rfl hf hd

/-- `RST` cuts the frame in progress short (R207, 70_reset_and_hazards.md R293). -/
theorem busInv_resetBlock (s : State) (h : BusInv true s) : BusInv true (resetBlock s) := by
  obtain ⟨l, hl, hs⟩ := h
  obtain ⟨n, hn, hcut⟩ := frameSoFar_eq_take s
  refine ⟨l ++ frameSoFar s, hcut ▸ hl.cut l s.frSample n rfl hn, ?_⟩
  rw [frameSoFar_idle (resetBlock s) rfl, List.append_nil, ← hs]
  rfl

/-- A sequence of whole frames is one of frames that may be cut. -/
theorem Frames.allow_cuts {l : List Event} (h : Frames false l) : Frames true l := by
  induction h with
  | none => exact .none
  | whole l d _ ih => exact ih.whole l d
  | cut l d n _ hc hn ih => exact ih.cut l d n rfl hn

/-- Settles O54: taking a word does not touch the bus, and each operation's events carry the frame on, end it or, with
`RST`, cut it. -/
theorem busFramesKept : Obligations.BusFramesKept := by
  refine ⟨fun s t h ht => ?_, fun i s t h hrst ht => busInv_exec false i s t h hrst ht, ?_⟩
  · rcases step_next_cases s t ht with rfl | ⟨i, rest, hi⟩
    · exact h
    have hin : BusInv true { s with input := rest } := h
    by_cases hrst : i = .rst
    · subst hrst
      cases hi
      exact busInv_resetBlock _ hin
    · exact busInv_exec true i _ t hin hrst hi
  · rintro s ⟨l, hl, hs⟩
    exact ⟨l, hl.allow_cuts, hs⟩

/-! ### The transport (R206, 60_exceptions.md R259) -/

/-- Nothing has moved: the framer, the receive path and the outputs are as before, and requests are held. -/
structure Held (s t : State) : Prop where
  frState : t.frState = s.frState
  frSample : t.frSample = s.frSample
  cs : t.cs = s.cs
  out : t.out = s.out
  q : t.q = s.q
  widx : t.widx = s.widx
  rxState : t.rxState = s.rxState
  rxp : s.rxp = true → t.rxp = true
  smpp : s.smpp = true → t.smpp = true

theorem Held.refl (s : State) : Held s s := ⟨rfl, rfl, rfl, rfl, rfl, rfl, rfl, id, id⟩

theorem Held.trans {s t u : State} (h : Held s t) (k : Held t u) : Held s u :=
  ⟨k.frState.trans h.frState, k.frSample.trans h.frSample, k.cs.trans h.cs, k.out.trans h.out, k.q.trans h.q,
    k.widx.trans h.widx, k.rxState.trans h.rxState, k.rxp ∘ h.rxp, k.smpp ∘ h.smpp⟩

/-- `SVC` is not enabled while a frame is in progress (60_exceptions.md R258, R259). -/
theorem exec_svc_of_frame (s : State) (hf : s.frState ≠ .idle) : exec .svc s = .next s := by
  have hoff : svcEnabled s = false := Bool.eq_false_iff.mpr fun hon => hf ((svcEnabled_iff s).mp hon).2.1
  simp [exec, execSvc, hoff]

/-- What performs no `SVC` and no `XDONE` and is not `RST` moves nothing of it (20_memory.md R67). -/
theorem held_of_performs_other (i : Instr) (s t : State) (hrst : i ≠ .rst) (h : exec i s = .next t)
    (hsvc : performs i s ≠ some .svc) (hxdone : performs i s ≠ some .xdone) : Held s t := by
  obtain ⟨hrx, -, -, -, hrxp, -, hsmpp, -⟩ := ownership i s t hrst h
  obtain ⟨hf, hd, hcs⟩ := framer_of_performs_other i s t hrst h hsvc hxdone
  have hkept : ¬(t.q ≠ s.q ∨ t.widx ≠ s.widx ∨ t.rxState ≠ s.rxState) := fun hne => hsvc (hrx hne).1
  simp only [not_or, not_not] at hkept
  obtain ⟨hq, hw, hr⟩ := hkept
  exact {
    frState := hf, frSample := hd, cs := hcs, out := out_of_performs_other i s t h hsvc hxdone
    q := hq, widx := hw, rxState := hr
    rxp := fun hs => Bool.of_not_eq_false fun ht => hsvc (hrxp hs ht).1
    smpp := fun hs => Bool.of_not_eq_false fun ht => hsvc (hsmpp hs ht) }

/-- While a frame is in progress only `RST` and a completion move it (R206). -/
theorem held_of_frame (i : Instr) (s t : State) (hf : s.frState ≠ .idle) (hrst : i ≠ .rst)
    (hxdone : performs i s ≠ some .xdone) (h : exec i s = .next t) : Held s t := by
  by_cases hsvc : performs i s = some .svc
  · rw [exec_of_performs_some i _ s hsvc, exec_svc_of_frame s hf] at h
    cases h
    exact Held.refl s
  · exact held_of_performs_other i s t hrst h hsvc hxdone

/-- A run without completions and resets leaves a frame in progress where it is. -/
theorem runOps_held (ops : List Instr) (s t : State) (hf : s.frState ≠ .idle)
    (hops : holdsAlong (fun i u => i ≠ .rst ∧ performs i u ≠ some .xdone) ops s) (h : runOps ops s = .next t) :
    Held s t :=
  runOps_along _ (Held s)
    (fun i u v hp hu hv => hu.trans (held_of_frame i u v (hu.frState ▸ hf) hp.1 hp.2 hv)) ops s t hops (Held.refl s) h

/-- A frame that waits for its second completion waits on or is over. -/
theorem byte2_kept_or_idle (i : Instr) (s t : State) (hf : s.frState = .byte2) (h : exec i s = .next t) :
    t.frState = .byte2 ∨ t.frState = .idle := by
  by_cases hrst : i = .rst
  · subst hrst
    cases h
    exact .inr rfl
  by_cases hxdone : performs i s = some .xdone
  · rw [eq_completion_of_performs_xdone i s t hxdone h, completion_byte2 s hf]
    exact .inr rfl
  · exact .inl ((held_of_frame i s t (by simp [hf]) hrst hxdone h).frState.trans hf)

section
variable (sched : ℕ → Instr) (states : ℕ → State) (hrun : ∀ n, exec (sched n) (states n) = .next (states (n + 1)))
include hrun

/-- In an endless run that is never idle from `n` on, byte 2 once handed over stays handed over. -/
theorem byte2_forever (n : ℕ) (hbusy : ∀ m, n ≤ m → (states m).frState ≠ .idle) (hf : (states n).frState = .byte2)
    (m : ℕ) (hm : n ≤ m) : (states m).frState = .byte2 := by
  induction m, hm using Nat.le_induction with
  | base => exact hf
  | succ m hm ih => exact (byte2_kept_or_idle _ _ _ ih (hrun m)).resolve_right (hbusy (m + 1) (Nat.le_succ_of_le hm))

/-- Under transport progress a frame that waits for its second completion is over at some time. -/
theorem idle_after_byte2 (hprogress : TransportProgress sched states) (n : ℕ) (hf : (states n).frState = .byte2) :
    ∃ m, n ≤ m ∧ (states m).frState = .idle := by
  by_contra hnever
  have hbusy : ∀ m, n ≤ m → (states m).frState ≠ .idle := fun m hm hidle => hnever ⟨m, hm, hidle⟩
  obtain ⟨m, hm, hxdone⟩ := hprogress n (hbusy n le_rfl)
  have hbyte2 := byte2_forever sched states hrun n hbusy hf m hm
  apply hbusy (m + 1) (Nat.le_succ_of_le hm)
  rw [eq_completion_of_performs_xdone _ _ _ hxdone (hrun m), completion_byte2 _ hbyte2]

/-- Under transport progress the framer is idle again and again: the next completion finds the frame over, ends it, or
hands over byte 2. -/
theorem idle_again (hprogress : TransportProgress sched states) (n : ℕ) : ∃ m, n ≤ m ∧ (states m).frState = .idle := by
  by_cases hf : (states n).frState = .idle
  · exact ⟨n, le_rfl, hf⟩
  obtain ⟨m, hm, hxdone⟩ := hprogress n hf
  have hnext := eq_completion_of_performs_xdone _ _ _ hxdone (hrun m)
  rcases completion_cases (states m) with ⟨hidle, _⟩ | ⟨_, he⟩ | ⟨hbyte2, _⟩
  · exact ⟨m, hm, hidle⟩
  · obtain ⟨k, hk, hidle⟩ := idle_after_byte2 sched states hrun hprogress (m + 1) (by rw [hnext, he])
    exact ⟨k, by omega, hidle⟩
  · obtain ⟨k, hk, hidle⟩ := idle_after_byte2 sched states hrun hprogress m hbyte2
    exact ⟨k, by omega, hidle⟩

end

/-- Settles O38: a run without completions moves nothing; under transport progress the two completions of a frame
come. -/
theorem stuckTransport : Obligations.StuckTransport := by
  refine ⟨fun ops s t hf hops h => ?_, idle_again⟩
  obtain ⟨hstate, hsample, hcs, hout, hq, hw, hr, hrxp, hsmpp⟩ := runOps_held ops s t hf hops h
  exact ⟨hstate, hsample, hcs, hout, hq, hw, hr, hrxp, hsmpp⟩

end Sys2Proof.Machine
end

section
/-! PROOFS. The host port's statements (44_host_port.md): what a read of each register returns and what a write of it
does (R220 to R235), by `HRD` and `HWR` and by the register rows, which are the same accesses; the consumer's pop
(R236) and the host's note sequences (R237). -/

namespace Sys2Proof.Machine

/-! ### Reads (R220) -/

/-- An instruction that reads a register returns its value and changes nothing else (R220, 20_memory.md R66). -/
theorem exec_read {i : Instr} {a : Byte} {r : HReg} {s : State} {v : Word24} (hi : hostOperand i = some (a, .rd))
    (hr : regOfAddr a = some r) (hv : readReg r s = v) : exec i s = .next { s with hostOut := s.hostOut ++ [v] } := by
  rw [exec_hostOperand i a .rd s hi, hostAccess_mapped a r .rd s hr, hv]
  rfl

theorem exec_unmapped {i : Instr} {a : Byte} {acc : HostAccess} {s : State} (hi : hostOperand i = some (a, acc))
    (hr : regOfAddr a = none) : exec i s = .refused .hostUnmapped := by
  rw [exec_hostOperand i a acc s hi, hostAccess_unmapped a acc s hr]

section
variable (s : State)

theorem readReg_irqCtrl : readReg .irqCtrl s = if s.gie then 1#24 else 0#24 := by
  cases hg : s.gie <;> simp [readReg, hg]

theorem readReg_irqPend :
    readReg .irqPend s = (if s.smpp then 1#24 else 0#24) + (if s.rxp then 2#24 else 0#24) := by
  cases hs : s.smpp <;> cases hr : s.rxp <;> simp [readReg, hs, hr]

theorem readReg_tmrCtrl : readReg .tmrCtrl s = if s.ten then 1#24 else 0#24 := by
  cases ht : s.ten <;> simp [readReg, ht]

theorem readReg_tmrCount : readReg .tmrCount s = BitVec.ofNat 24 s.count.toNat := (BitVec.ofNat_toNat 24 _).symm

theorem readReg_tmrCnt : readReg .tmrCnt s = BitVec.ofNat 24 s.cnt.toNat := (BitVec.ofNat_toNat 24 _).symm

/-- `OSC_CTRL` holds the shape's tag above the active flag (30_encoding.md R106). -/
theorem readReg_oscCtrl :
    readReg .oscCtrl s = BitVec.ofNat 24 (2 * s.oscWave.tag.toNat) + (if s.oscActive then 1#24 else 0#24) := by
  cases hw : s.oscWave <;> cases ha : s.oscActive <;> simp [readReg, hw, ha, Wave.tag]

theorem readReg_oscAmp : readReg .oscAmp s = BitVec.ofNat 24 s.oscAmp.toNat := (BitVec.ofNat_toNat 24 _).symm

theorem readReg_qSlot (i : Fin Config.cap) (f : SlotField) :
    readReg (.qSlot i f) s = BitVec.ofNat 24 (readSlot s i f).toNat := (BitVec.ofNat_toNat 24 _).symm

/-- A slot field that has been written reads as what was written (10_state.md R39). -/
theorem readSlot_of_read {i : Fin Config.cap} {f : SlotField} {w : Byte} (h : s.q.read (slotAddr i f) = some w) :
    readSlot s i f = w := by
  simp [readSlot, h]

end

/-! ### The addresses (30_encoding.md R105) -/

theorem slotFieldHostAddr_eq (i : Fin Config.cap) (f : SlotField) :
    slotFieldHostAddr i f = BitVec.ofNat 8 (0x40 + 4 * i.val + f.number) := by
  cases f <;> revert i <;> decide

theorem regOfAddr_slotField (i : Fin Config.cap) (f : SlotField) :
    regOfAddr (BitVec.ofNat 8 (0x40 + 4 * i.val + f.number)) = some (.qSlot i f) := by
  rw [← slotFieldHostAddr_eq, regOfAddr_slotFieldHostAddr]

theorem regOfAddr_note (k : Fin Config.notes) : regOfAddr (BitVec.ofNat 8 (0x80 + k.val)) = some (.nft k) := by
  revert k; decide

/-- The addresses that select no register are those of R36's list. -/
theorem regOfAddr_eq_none_iff (a : Byte) : regOfAddr a = none ↔ isUnmapped a = true := by
  revert a; decide

/-- A slot index in range and the number of a field select that field. -/
theorem regOfAddr_slotHostAddr_field (i : BitVec 4) (f : SlotField) (hi : i.toNat < 10) :
    regOfAddr (slotHostAddr i (BitVec.ofNat 2 f.number)) = some (.qSlot ⟨i.toNat, hi⟩ f) := by
  rw [regOfAddr_slotHostAddr, slotRegOf, dif_pos hi]
  cases f <;> rfl

theorem regOfAddr_noteHostAddr_note (k : BitVec 7) (hk : k.toNat < 108) :
    regOfAddr (noteHostAddr k) = some (.nft ⟨k.toNat, hk⟩) := by
  rw [regOfAddr_noteHostAddr, noteRegOf, dif_pos hk]

theorem regOfAddr_slotHostAddr_none (i : BitVec 4) (f : BitVec 2) (h : 10 ≤ i.toNat ∨ f = 3#2) :
    regOfAddr (slotHostAddr i f) = none := by
  revert i f; decide

theorem regOfAddr_noteHostAddr_none (k : BitVec 7) (h : 108 ≤ k.toNat) : regOfAddr (noteHostAddr k) = none := by
  revert k; decide

/-- Settles O40: the address selects the register, and the register has its value. -/
theorem hostReadRegisters : Obligations.HostReadRegisters := fun s =>
  ⟨exec_read rfl regOfAddr_qWidx rfl, exec_read rfl regOfAddr_qRidx rfl,
    exec_read rfl regOfAddr_irqCtrl (readReg_irqCtrl s), exec_read rfl regOfAddr_irqPend (readReg_irqPend s),
    exec_read rfl regOfAddr_tmrCtrl (readReg_tmrCtrl s), exec_read rfl regOfAddr_tmrCount (readReg_tmrCount s),
    exec_read rfl regOfAddr_tmrCnt (readReg_tmrCnt s), exec_read rfl regOfAddr_oscCtrl (readReg_oscCtrl s),
    exec_read rfl regOfAddr_oscPhase rfl, exec_read rfl regOfAddr_oscInc rfl,
    exec_read rfl regOfAddr_oscAmp (readReg_oscAmp s),
    fun i f => ⟨readSlot s i f, exec_read rfl (regOfAddr_slotField i f) (readReg_qSlot s i f),
      fun _ hw => readSlot_of_read s hw⟩,
    fun k => exec_read rfl (regOfAddr_note k) rfl,
    fun a ha => exec_unmapped rfl ((regOfAddr_eq_none_iff a).mpr ha)⟩

/-! ### Writes (R221) -/

/-- An instruction that writes a register does the write of that register. -/
theorem exec_write {i : Instr} {a : Byte} {r : HReg} {v : Word24} {s : State} {o : StepOutcome}
    (hi : hostOperand i = some (a, .wr v)) (hr : regOfAddr a = some r) (hw : writeReg r v s = o) : exec i s = o := by
  rw [exec_hostOperand i a (.wr v) s hi, hostAccess_mapped a r (.wr v) s hr]
  exact hw

section
variable (v : Word24) (s : State)

theorem lowBits_toNat (n : ℕ) : (v.extractLsb' 0 n).toNat = v.toNat % 2 ^ n := by
  simp [BitVec.extractLsb'_toNat]

theorem lowBits_eq_ofNat (n : ℕ) : v.extractLsb' 0 n = BitVec.ofNat n (v.toNat % 2 ^ n) := by
  rw [← lowBits_toNat, BitVec.ofNat_toNat, BitVec.setWidth_eq]

theorem writeReg_qRidx_legal (h : v.toNat % 16 < 10) :
    writeReg .qRidx v s = .next { s with ridx := Fin.ofNat 10 (v.toNat % 16) } := by
  have hlow : (v.extractLsb' 0 4).toNat = v.toNat % 16 := lowBits_toNat v 4
  have hfin : Fin.ofNat 10 (v.toNat % 16) = ⟨(v.extractLsb' 0 4).toNat, hlow ▸ h⟩ :=
    Fin.ext ((Nat.mod_eq_of_lt h).trans hlow.symm)
  rw [hfin]
  exact dif_pos _

theorem writeReg_qRidx_illegal (h : 10 ≤ v.toNat % 16) : writeReg .qRidx v s = .refused .hostBadValue :=
  dif_neg ((lowBits_toNat v 4).symm ▸ h.not_gt)

theorem writeReg_tmrCount : writeReg .tmrCount v s = .next { s with count := BitVec.ofNat 16 (v.toNat % 65536) } := by
  rw [writeReg, lowBits_eq_ofNat]
  rfl

theorem writeReg_oscAmp : writeReg .oscAmp v s = .next { s with oscAmp := BitVec.ofNat 8 (v.toNat % 256) } := by
  rw [writeReg, lowBits_eq_ofNat]
  rfl

theorem writeReg_oscCtrl {w : Wave} (h : v.toNat / 2 % 4 = w.tag.toNat) :
    writeReg .oscCtrl v s = .next { s with oscActive := v.getLsbD 0, oscWave := w } := by
  have htag : v.extractLsb' 1 2 = w.tag := by
    apply BitVec.eq_of_toNat_eq
    rw [BitVec.extractLsb'_toNat, Nat.shiftRight_eq_div_pow]
    exact h
  rw [writeReg, htag, Wave.ofTag_tag]

theorem writeReg_oscPhase_legal (h : v.toNat < 0xA00000) : writeReg .oscPhase v s = .next { s with oscPhase := v } :=
  if_pos h

theorem writeReg_oscPhase_illegal (h : 0xA00000 ≤ v.toNat) : writeReg .oscPhase v s = .refused .hostBadValue :=
  if_neg h.not_gt

theorem writeReg_oscInc_legal (h : v.toNat < 0xA00000) : writeReg .oscInc v s = .next { s with oscInc := v } :=
  if_pos h

theorem writeReg_oscInc_illegal (h : 0xA00000 ≤ v.toNat) : writeReg .oscInc v s = .refused .hostBadValue :=
  if_neg h.not_gt

end

/-- Settles O41: the address selects the register, and each register's write takes its low bits. -/
theorem hostWriteRegisters : Obligations.HostWriteRegisters := fun v s =>
  ⟨fun h => exec_write rfl regOfAddr_qRidx (writeReg_qRidx_legal v s h), exec_write rfl regOfAddr_irqCtrl rfl,
    exec_write rfl regOfAddr_tmrCtrl rfl,
    exec_write rfl regOfAddr_tmrCount (writeReg_tmrCount v s),
    fun _ h => exec_write rfl regOfAddr_oscCtrl (writeReg_oscCtrl v s h),
    fun h => exec_write rfl regOfAddr_oscPhase (writeReg_oscPhase_legal v s h),
    fun h => exec_write rfl regOfAddr_oscInc (writeReg_oscInc_legal v s h),
    exec_write rfl regOfAddr_oscAmp (writeReg_oscAmp v s)⟩

/-! ### The refusals of a write (R221) -/

/-- The registers without a write effect, by the access column of 10_state.md R36. -/
def HReg.readOnly : HReg → Bool
  | .qWidx | .irqPend | .tmrCnt | .qSlot _ _ | .nft _ => true
  | .qRidx | .irqCtrl | .tmrCtrl | .tmrCount | .oscCtrl | .oscPhase | .oscInc | .oscAmp => false

/-- The read-only addresses are those of the read-only registers. -/
theorem isReadOnly_eq (a : Byte) : isReadOnly a = (regOfAddr a).any HReg.readOnly := by
  revert a; decide

theorem isReadOnly_slotHostAddr (i : BitVec 4) (f : BitVec 2) (h : slotFieldMapped i f = true) :
    isReadOnly (slotHostAddr i f) = true := by
  revert i f; decide

theorem isReadOnly_noteHostAddr (k : BitVec 7) (h : noteMapped k = true) : isReadOnly (noteHostAddr k) = true := by
  revert k; decide

/-- The values that a register does not take (R223, R229, R230). -/
def HReg.rejects (v : Word24) : HReg → Bool
  | .oscPhase | .oscInc => decide (0xA00000 ≤ v.toNat)
  | .qRidx => decide (10 ≤ v.toNat % 16)
  | _ => false

/-- A value is illegal at an address where the register it selects does not take it. -/
theorem isBadValue_eq (a : Byte) (v : Word24) : isBadValue a v = (regOfAddr a).any (HReg.rejects v) := by
  unfold isBadValue HReg.rejects
  generalize decide (0xA00000 ≤ v.toNat) = pmodOrMore
  generalize decide (10 ≤ v.toNat % 16) = capOrMore
  revert a pmodOrMore capOrMore
  decide

/-- A write is refused for the register, else for the value, and else completes. -/
theorem writeReg_outcome (r : HReg) (v : Word24) (s : State) :
    (r.readOnly = true → writeReg r v s = .refused .hostReadOnly) ∧
    (r.rejects v = true → writeReg r v s = .refused .hostBadValue) ∧
    (r.readOnly = false → r.rejects v = false → ∃ t, writeReg r v s = .next t) := by
  cases r with
  | qWidx | irqPend | tmrCnt | qSlot | nft => exact ⟨fun _ => rfl, nofun, nofun⟩
  | irqCtrl | tmrCtrl | tmrCount | oscCtrl | oscAmp => exact ⟨nofun, nofun, fun _ _ => ⟨_, rfl⟩⟩
  | qRidx => exact ⟨nofun, fun h => writeReg_qRidx_illegal v s (of_decide_eq_true h),
      fun _ h => ⟨_, writeReg_qRidx_legal v s (not_le.mp (of_decide_eq_false h))⟩⟩
  | oscPhase => exact ⟨nofun, fun h => writeReg_oscPhase_illegal v s (of_decide_eq_true h),
      fun _ h => ⟨_, writeReg_oscPhase_legal v s (not_le.mp (of_decide_eq_false h))⟩⟩
  | oscInc => exact ⟨nofun, fun h => writeReg_oscInc_illegal v s (of_decide_eq_true h),
      fun _ h => ⟨_, writeReg_oscInc_legal v s (not_le.mp (of_decide_eq_false h))⟩⟩

/-- Settles O42: the three conditions are those of the register the address selects, which decide the write. -/
theorem hostWriteRefusals : Obligations.HostWriteRefusals := by
  intro a v s
  rw [← regOfAddr_eq_none_iff, Bool.eq_false_iff (b := isUnmapped a), Ne, ← regOfAddr_eq_none_iff, isReadOnly_eq,
    isBadValue_eq]
  cases hr : regOfAddr a with
  | none => exact ⟨fun _ => exec_unmapped rfl hr, nofun, nofun, fun h => absurd rfl h⟩
  | some r =>
    rw [exec_write rfl hr rfl]
    obtain ⟨hreadOnly, hbadValue, hnext⟩ := writeReg_outcome r v s
    exact ⟨nofun, hreadOnly, hbadValue, fun _ => hnext⟩

/-! ### The register rows (log 10) -/

/-- Settles O43: a row is `HRD` of its register's address. -/
theorem registerRowsRead : Obligations.RegisterRowsRead := by
  intro s
  obtain ⟨hwidx, hridx, hctrl, hpend, hten, hcount, hcnt, hosc, hphase, hinc, hamp, -, -, -⟩ := hostReadRegisters s
  refine ⟨hwidx, hridx, hctrl, hpend, hten, hcount, hcnt, hosc, hphase, hinc, hamp, fun i f hi => ?_, fun k hk => ?_,
    fun i f acc h => exec_unmapped rfl (regOfAddr_slotHostAddr_none i f h),
    fun k acc h => exec_unmapped rfl (regOfAddr_noteHostAddr_none k h)⟩
  · exact ⟨readSlot s ⟨i.toNat, hi⟩ f, exec_read rfl (regOfAddr_slotHostAddr_field i f hi) (readReg_qSlot s _ f),
      fun _ hw => readSlot_of_read s hw⟩
  · exact exec_read rfl (regOfAddr_noteHostAddr_note k hk) rfl

/-- Settles O44: a row is `HWR` of its register's address, and the slots and the note table are read-only. -/
theorem registerRowsWrite : Obligations.RegisterRowsWrite := by
  intro v s
  obtain ⟨hridx, hctrl, hten, hcount, hosc, hphase, hinc, hamp⟩ := hostWriteRegisters v s
  refine ⟨hridx, hctrl, hten, hcount, hosc, hphase, hinc, hamp,
    fun h => exec_write rfl regOfAddr_qRidx (writeReg_qRidx_illegal v s h),
    fun h => ⟨exec_write rfl regOfAddr_oscPhase (writeReg_oscPhase_illegal v s h),
      exec_write rfl regOfAddr_oscInc (writeReg_oscInc_illegal v s h)⟩,
    exec_write rfl regOfAddr_qWidx rfl, exec_write rfl regOfAddr_irqPend rfl, exec_write rfl regOfAddr_tmrCnt rfl,
    fun i f h => ?_, fun k h => ?_⟩
  · obtain ⟨-, hreadOnly, -, -⟩ := hostWriteRefusals (slotHostAddr i f) v s
    exact hreadOnly (isReadOnly_slotHostAddr i f h)
  · obtain ⟨-, hreadOnly, -, -⟩ := hostWriteRefusals (noteHostAddr k) v s
    exact hreadOnly (isReadOnly_noteHostAddr k h)

/-! ### Runs of host accesses -/

theorem runOps_hrd {a : Byte} {r : HReg} (hr : regOfAddr a = some r) (is : List Instr) (s : State) :
    runOps (.hrd a :: is) s = runOps is (returnToHost (readReg r s) s) :=
  runOps_cons _ _ _ _ (exec_read rfl hr rfl)

theorem runOps_hwr {a : Byte} {r : HReg} {v : Word24} {s t : State} (hr : regOfAddr a = some r)
    (hw : writeReg r v s = .next t) (is : List Instr) : runOps (.hwr a v :: is) s = runOps is t :=
  runOps_cons _ _ _ _ (exec_write rfl hr hw)

/-! ### The pop (R236) -/

theorem writeReg_qRidx_index (i : Fin Config.cap) (s : State) :
    writeReg .qRidx (BitVec.ofNat 24 i.val) s = .next { s with ridx := i } := by
  have hi : i.val < 10 := i.isLt
  have hlow : (BitVec.ofNat 24 i.val).toNat % 16 = i.val := by
    rw [BitVec.toNat_ofNat]
    omega
  rw [writeReg_qRidx_legal _ s (hlow.symm ▸ hi : (BitVec.ofNat 24 i.val).toNat % 16 < 10), hlow]
  simp

theorem popOps_empty_run (s : State) (h : queueEmpty s = true) :
    runOps (popOps s) s = .next { s with
      hostOut := s.hostOut ++ [BitVec.ofNat 24 s.widx.val, BitVec.ofNat 24 s.ridx.val] } := by
  rw [popOps, if_pos h, runOps_hrd regOfAddr_qWidx, runOps_hrd regOfAddr_qRidx]
  simp only [runOps, returnToHost, List.append_assoc, List.cons_append, List.nil_append]
  rfl

theorem popOps_run (s : State) (h : queueEmpty s = false) :
    runOps (popOps s) s = .next { s with ridx := nextIndex s.ridx, hostOut := s.hostOut ++
      [BitVec.ofNat 24 s.widx.val, BitVec.ofNat 24 s.ridx.val, (readSlot s s.ridx .status).setWidth 24,
        (readSlot s s.ridx .data0).setWidth 24, (readSlot s s.ridx .data1).setWidth 24] } := by
  rw [popOps, if_neg (Bool.eq_false_iff.mp h), runOps_hrd regOfAddr_qWidx, runOps_hrd regOfAddr_qRidx,
    runOps_hrd (regOfAddr_slotFieldHostAddr _ _), runOps_hrd (regOfAddr_slotFieldHostAddr _ _),
    runOps_hrd (regOfAddr_slotFieldHostAddr _ _), runOps_hwr regOfAddr_qRidx (writeReg_qRidx_index _ _)]
  simp only [runOps, returnToHost, List.append_assoc, List.cons_append, List.nil_append]
  rfl

theorem add_ofNat_succ (i : Fin Config.cap) (j : ℕ) :
    i + Fin.ofNat Config.cap (j + 1) = nextIndex i + Fin.ofNat Config.cap j := by
  have hsucc : Fin.ofNat Config.cap (j + 1) = 1 + Fin.ofNat Config.cap j := by
    apply Fin.ext
    change (j + 1) % 10 = (1 + j % 10) % 10
    omega
  rw [hsucc, ← add_assoc, nextIndex]

/-- On a queue that shows events, the state with the read index advanced shows those after the oldest (10_state.md
R42). -/
theorem shownEvents_popped (s t : State) (h : queueEmpty s = false) (hw : t.widx = s.widx)
    (hr : t.ridx = nextIndex s.ridx) (hslots : ∀ i f, readSlot t i f = readSlot s i f) :
    shownEvents s = slotRecord s s.ridx :: shownEvents t := by
  have hne : s.ridx.val ≠ s.widx.val := fun he =>
    Bool.eq_false_iff.mp h ((queueEmpty_iff s).mpr (Fin.ext he))
  have hcount : shownCount s = shownCount t + 1 := by
    have hrlt : s.ridx.val < 10 := s.ridx.isLt
    have hwlt : s.widx.val < 10 := s.widx.isLt
    rw [shownCount_eq, shownCount_eq, hw, hr, nextIndex_val]
    omega
  rw [shownEvents, hcount, List.range_succ_eq_map, List.map_cons, List.map_map, shownEvents, hr]
  congr 1
  · simp
  · refine List.map_congr_left fun j _ => ?_
    rw [Function.comp_apply, add_ofNat_succ, slotRecord_congr s t _ (hslots _)]

/-- Settles O47: the run of the pop, and the events shown after it. -/
theorem popReturnsOldest : Obligations.PopReturnsOldest := fun s =>
  ⟨popOps_empty_run s, fun h =>
    ⟨_, popOps_run s h, rfl, shownEvents_popped s _ h rfl rfl fun _ _ => rfl⟩⟩

/-! ### The note sequences (R237) -/

theorem noteIncrement_lt (k : Fin Config.notes) : (noteIncrement k).toNat < Config.pmod := by
  revert k; decide

theorem regOfAddr_noteHostAddr_ofNat (k : Fin Config.notes) :
    regOfAddr (noteHostAddr (BitVec.ofNat 7 k.val)) = some (.nft k) := by
  revert k; decide

/-- The value that the host's sequences write to `OSC_CTRL` sets the flag and the shape it is made of. -/
theorem writeReg_oscCtrl_append (w : Wave) (active : Bool) (s : State) :
    writeReg .oscCtrl ((w.tag ++ BitVec.ofBool active).setWidth 24) s =
      .next { s with oscActive := active, oscWave := w } := by
  cases w <;> cases active <;> rfl

theorem writeReg_oscAmp_setWidth (amp : Byte) (s : State) :
    writeReg .oscAmp (amp.setWidth 24) s = .next { s with oscAmp := amp } := by
  have hlow : (amp.setWidth 24).extractLsb' 0 8 = amp := by
    rw [BitVec.extractLsb'_setWidth_of_le (by decide), BitVec.extractLsb'_eq_self]
  rw [writeReg, hlow]

theorem noteOnOps_run (k : Fin Config.notes) (w : Wave) (amp : Byte) (s : State) :
    runOps (noteOnOps k w amp) s = .next { s with
      hostOut := s.hostOut ++ [noteIncrement k], oscInc := noteIncrement k, oscPhase := 0#24, oscAmp := amp
      oscActive := true, oscWave := w, gie := true } := by
  refine (runOps_hrd (regOfAddr_noteHostAddr_ofNat k) _ s).trans ?_
  refine (runOps_hwr regOfAddr_irqCtrl rfl _).trans ?_
  refine (runOps_hwr regOfAddr_oscInc (writeReg_oscInc_legal _ _ (noteIncrement_lt k)) _).trans ?_
  refine (runOps_hwr regOfAddr_oscPhase (writeReg_oscPhase_legal _ _ (by decide)) _).trans ?_
  refine (runOps_hwr regOfAddr_oscAmp (writeReg_oscAmp_setWidth amp _) _).trans ?_
  refine (runOps_hwr regOfAddr_oscCtrl (writeReg_oscCtrl_append w true _) _).trans ?_
  exact runOps_hwr regOfAddr_irqCtrl rfl _

theorem noteOffOps_run (w : Wave) (s : State) :
    runOps (noteOffOps w) s = .next { s with oscActive := false, oscWave := w } :=
  runOps_hwr regOfAddr_oscCtrl (writeReg_oscCtrl_append w false s) []

/-- Settles O48: the runs of the two sequences. -/
theorem noteSequences : Obligations.NoteSequences := fun k w amp s => ⟨noteOnOps_run k w amp s, noteOffOps_run w s⟩

end Sys2Proof.Machine
end

section
/-! PROOFS. The exceptions' statements (60_exceptions.md): the dispatch of `SVC`, the timer, who raises and clears the
pending bits, masked sections, the independence of the two services, and everything that can stop an instruction. -/

namespace Sys2Proof.Machine

/-! ### The dispatch of SVC (R258) -/

/-- `SVC` where it is not enabled does nothing (R258, 00_scope.md R9). -/
theorem exec_svc_not_enabled (s : State) (h : svcEnabled s = false) : exec .svc s = .next s := by
  simp [exec, execSvc, h]

/-- Settles O21: the three answers of the dispatch, and what each of the two services leaves. -/
theorem svcDispatch : Obligations.SvcDispatch := by
  refine ⟨svcEnabled_iff, fun s he hs => ?_, fun s he hs => ?_, exec_svc_not_enabled, fun s t he h => ?_⟩
  · obtain ⟨hg, hf, -⟩ := (svcEnabled_iff s).mp he
    exact exec_svc_sample s hg hf hs
  · exact exec_svc_rx s (by simp [rxDispatchable, he, hs])
  · rcases execSvc_next s t h with ⟨hoff, -⟩ | ⟨-, hsmpp, -, p, -, -, rfl⟩ | ⟨hrx, rfl⟩
    · rw [he] at hoff
      cases hoff
    · simp [frameStart_eq, hsmpp, svcEnabled, frameInProgress]
    · obtain ⟨-, hf, hsmpp, -⟩ := (rxDispatchable_iff s).mp hrx
      rw [serveByte_frame]
      simp [hsmpp, hf]

/-! ### The timer (R262, R263) -/

/-- Settles O22: the branches of the clock; the count's sum is modulo `2^16`. -/
theorem clkRule : Obligations.ClkRule := by
  intro s
  have hsucc : s.cnt + 1#16 = BitVec.ofNat 16 ((s.cnt.toNat + 1) % 65536) := by bv_omega
  refine ⟨fun hten => ?_, fun hten hmatch _ => ?_, fun hten hmatch hsmpp => ?_, fun hten hne => ?_⟩
  · simp [exec, execClk, hten]
  · simp [exec, execClk, timerMatch, hten, hmatch]
  · simp [exec, execClk, timerMatch, hten, hmatch, hsmpp]
  · rw [← hsucc]
    simp [exec, execClk, timerMatch, hten, hne]

/-- Settles O23: the clocks before the match, the match, and the number of clocks as a difference in `Nat`. -/
theorem timerPeriod : Obligations.TimerPeriod := fun s hten =>
  ⟨clocks_before_match s hten, tickOps_run s hten, fun hle => by unfold clocksToMatch; bv_omega,
    fun hlt => by unfold clocksToMatch; bv_omega⟩

/-! ### The pending bits (R254, R255) -/

/-- `SVC` clears a waiting tick only where it is enabled. -/
theorem svcEnabled_of_smpp_cleared (s t : State) (h : execSvc s = .next t) (hs : s.smpp = true) (ht : t.smpp = false) :
    svcEnabled s = true := by
  rcases execSvc_next s t h with ⟨-, rfl⟩ | ⟨he, -⟩ | ⟨hrx, -⟩
  · rw [hs] at ht
    cases ht
  · exact he
  · obtain ⟨hg, hf, -, hrxp⟩ := (rxDispatchable_iff s).mp hrx
    exact (svcEnabled_iff s).mpr ⟨hg, hf, .inr hrxp⟩

/-- `CLK` raises the tick only by a match (R262). -/
theorem timerMatch_of_smpp_raised (s t : State) (h : execClk s = .next t) (hs : s.smpp = false) (ht : t.smpp = true) :
    timerMatch s = true := by
  rcases execClk_next s t h with rfl | ⟨hm, -⟩ | rfl
  · simp [hs] at ht
  · exact hm
  · simp [hs] at ht

/-- Settles O24: `RST` clears both bits; else each bit's writers are its owners (20_memory.md R67), under the condition
of the operation. -/
theorem pendingBits : Obligations.PendingBits := by
  intro i s t h
  by_cases hrst : i = .rst
  · subst hrst
    cases h
    exact ⟨fun _ _ => .inl rfl, fun _ _ => .inl rfl, nofun, nofun⟩
  obtain ⟨-, -, -, hrxpSet, hrxpCleared, hsmppSet, hsmppCleared, -⟩ := ownership i s t hrst h
  refine ⟨fun hs ht => .inr (hrxpCleared hs ht), fun hs ht => .inr ?_, hrxpSet, fun hs ht => ?_⟩
  · have hsvc := hsmppCleared hs ht
    rw [exec_of_performs_some i _ s hsvc] at h
    exact ⟨hsvc, svcEnabled_of_smpp_cleared s t h hs ht⟩
  · obtain rfl := hsmppSet hs ht
    exact ⟨rfl, timerMatch_of_smpp_raised s t h hs ht⟩

/-! ### Masked sections (R256, 20_memory.md R70) -/

/-- What a masked section leaves: the mask, the receive path and the sample in the latch are as before, requests are
held, and no event begins a frame or echoes a byte. -/
structure MaskKept (s t : State) : Prop where
  gie : t.gie = s.gie
  q : t.q = s.q
  widx : t.widx = s.widx
  rxState : t.rxState = s.rxState
  frSample : t.frSample = s.frSample
  rxp : s.rxp = true → t.rxp = true
  smpp : s.smpp = true → t.smpp = true
  out : ∃ es, t.out = s.out ++ es ∧ ∀ e ∈ es, e ≠ .csAssert ∧ ∀ b, e ≠ .txb b

theorem MaskKept.refl (s : State) : MaskKept s s := ⟨rfl, rfl, rfl, rfl, rfl, id, id, [], by simp⟩

theorem MaskKept.trans {s t u : State} (h : MaskKept s t) (k : MaskKept t u) : MaskKept s u := by
  obtain ⟨es, hes, hesEvents⟩ := h.out
  obtain ⟨fs, hfs, hfsEvents⟩ := k.out
  exact {
    gie := k.gie.trans h.gie, q := k.q.trans h.q, widx := k.widx.trans h.widx, rxState := k.rxState.trans h.rxState
    frSample := k.frSample.trans h.frSample, rxp := k.rxp ∘ h.rxp, smpp := k.smpp ∘ h.smpp
    out := ⟨es ++ fs, by rw [hfs, hes, List.append_assoc], fun e he =>
      (List.mem_append.mp he).elim (hesEvents e) (hfsEvents e)⟩ }

/-- No service runs while interrupts are masked (R256). -/
theorem exec_svc_masked (s : State) (hg : s.gie = false) : exec .svc s = .next s :=
  exec_svc_not_enabled s (by simp [svcEnabled, hg])

/-- A completion carries a frame on or ends it, masked or not (43_dac_framer.md R204, R205). -/
theorem maskKept_completion (s : State) : MaskKept s (completion s) := by
  rcases completion_cases s with ⟨-, he⟩ | ⟨-, he⟩ | ⟨-, he⟩ <;> rw [he]
  · exact MaskKept.refl s
  · exact ⟨rfl, rfl, rfl, rfl, rfl, id, id, [.dacb (frameByte2 s.frSample)], rfl, by simp⟩
  · exact ⟨rfl, rfl, rfl, rfl, rfl, id, id, [.csDeassert], rfl, by simp⟩

/-- Every instruction of a masked section but a reset or a write of the mask: `SVC` does nothing, `XDONE` is a
completion, and the others own nothing of it (20_memory.md R67). -/
theorem maskKept_exec (i : Instr) (s t : State) (hg : s.gie = false) (hrst : i ≠ .rst)
    (hmask : hostWrites i ≠ some .irqCtrl) (h : exec i s = .next t) : MaskKept s t := by
  by_cases hsvc : performs i s = some .svc
  · rw [exec_of_performs_some i _ s hsvc, exec_svc_masked s hg] at h
    cases h
    exact MaskKept.refl s
  by_cases hxdone : performs i s = some .xdone
  · rw [eq_completion_of_performs_xdone i s t hxdone h]
    exact maskKept_completion s
  obtain ⟨-, -, -, -, -, -, -, -, -, -, -, -, -, -, hgie, -⟩ := ownership i s t hrst h
  have hheld := held_of_performs_other i s t hrst h hsvc hxdone
  exact {
    gie := not_not.mp (mt hgie hmask), q := hheld.q, widx := hheld.widx, rxState := hheld.rxState
    frSample := hheld.frSample, rxp := hheld.rxp, smpp := hheld.smpp
    out := ⟨[], by rw [hheld.out, List.append_nil], by simp⟩ }

/-- A masked section of any length, by induction on its instructions. -/
theorem runOps_maskKept (ops : List Instr) (s t : State) (hg : s.gie = false)
    (hops : ∀ i ∈ ops, i ≠ .rst ∧ hostWrites i ≠ some .irqCtrl) (h : runOps ops s = .next t) : MaskKept s t :=
  runOps_induction (MaskKept s) (fun i => i ≠ .rst ∧ hostWrites i ≠ some .irqCtrl)
    (fun i u v hi hu hv => hu.trans (maskKept_exec i u v (hu.gie.trans hg) hi.1 hi.2 hv)) ops s t hops
    (MaskKept.refl s) h

/-- In a masked section only the host moves the phase: the sample service, its other writer, does not run. -/
theorem oscPhase_masked (i : Instr) (s t : State) (hg : s.gie = false) (hrst : i ≠ .rst)
    (hphase : hostWrites i ≠ some .oscPhase) (h : exec i s = .next t) : t.oscPhase = s.oscPhase := by
  obtain ⟨-, -, -, -, -, -, -, -, -, -, howners, -⟩ := ownership i s t hrst h
  by_contra hne
  have hsvc := ((howners hne).resolve_right hphase).1
  rw [exec_of_performs_some i _ s hsvc, exec_svc_masked s hg] at h
  cases h
  exact hne rfl

/-- The phase of a masked section of any length that does not write it. -/
theorem runOps_oscPhase_masked (ops : List Instr) (s t : State) (hg : s.gie = false)
    (hops : ∀ i ∈ ops, i ≠ .rst ∧ hostWrites i ≠ some .irqCtrl) (hphase : ∀ i ∈ ops, hostWrites i ≠ some .oscPhase)
    (h : runOps ops s = .next t) : t.oscPhase = s.oscPhase := by
  refine (runOps_induction (fun u => u.gie = false ∧ u.oscPhase = s.oscPhase)
    (fun i => i ≠ .rst ∧ hostWrites i ≠ some .irqCtrl ∧ hostWrites i ≠ some .oscPhase) ?_ ops s t
    (fun i hi => ⟨(hops i hi).1, (hops i hi).2, hphase i hi⟩) ⟨hg, rfl⟩ h).2
  rintro i u v ⟨hrst, hmask, hwrites⟩ ⟨hu, hkept⟩ hv
  exact ⟨(maskKept_exec i u v hu hrst hmask hv).gie.trans hu, (oscPhase_masked i u v hu hrst hwrites hv).trans hkept⟩

/-- A run that completes is its first instruction and the run of the rest. -/
theorem runOps_cons_next (i : Instr) (is : List Instr) (s t : State) (h : runOps (i :: is) s = .next t) :
    ∃ u, exec i s = .next u ∧ runOps is u = .next t := by
  cases hi : exec i s with
  | next u => exact ⟨u, rfl, (runOps_cons i is s u hi).symm.trans h⟩
  | fault | refused => simp [runOps, hi] at h

/-- A run of two lists that completes is two runs that complete. -/
theorem runOps_append_next (is js : List Instr) (s t : State) (h : runOps (is ++ js) s = .next t) :
    ∃ u, runOps is s = .next u ∧ runOps js u = .next t := by
  induction is generalizing s with
  | nil => exact ⟨s, rfl, h⟩
  | cons i is ih =>
    obtain ⟨v, hv, hrest⟩ := runOps_cons_next i (is ++ js) s t h
    obtain ⟨u, hu, hjs⟩ := ih v hrest
    exact ⟨u, (runOps_cons i is s v hv).trans hu, hjs⟩

/-- The bracket closes the mask before its operations and opens it after them (30_encoding.md R112). -/
theorem critOps_next (ops : List Instr) (s t : State) (h : runOps (critOps ops) s = .next t) :
    ∃ u, runOps ops { s with gie := false } = .next u ∧ t = { u with gie := true } := by
  have hclose : exec (.hwr 0x04#8 0#24) s = .next { s with gie := false } := rfl
  rw [critOps, List.append_assoc, List.singleton_append, runOps_cons _ _ _ _ hclose] at h
  obtain ⟨u, hu, hopen⟩ := runOps_append_next ops _ _ t h
  exact ⟨u, hu, (Host.Outcome.next.inj hopen).symm⟩

/-- Settles O25: a masked run keeps what each of its instructions keeps, and the bracket runs its operations masked. -/
theorem maskedSection : Obligations.MaskedSection := by
  refine ⟨fun ops s t hg hops h => ?_, fun ops s t hops h => ?_⟩
  · have hkept := runOps_maskKept ops s t hg hops h
    exact ⟨hkept.gie.trans hg, hkept.q, hkept.widx, hkept.rxState, hkept.frSample, hkept.rxp, hkept.smpp, hkept.out,
      fun hphase => runOps_oscPhase_masked ops s t hg hops hphase h⟩
  · obtain ⟨u, hu, rfl⟩ := critOps_next ops s t h
    have hkept := runOps_maskKept ops _ u rfl hops hu
    exact ⟨rfl, hkept.q, hkept.widx, hkept.rxp, hkept.smpp⟩

/-! ### The two services share no state (R261) -/

/-- The state after the frame of a tick's sample, with the phase the sample service left. -/
def framed (d : Sample12) (p : Phase) (s : State) : State :=
  { s with smpp := false, oscPhase := p, out := s.out ++ frameEvents d, frSample := d, cs := false, frState := .idle }

/-- A sample service that completes starts the same frame from the same phase before and after the service of a byte:
it reads nothing that the RX service writes. -/
theorem sampleService_serveByte (b : Byte) (s t : State) (h : sampleService s = .next t) :
    ∃ p, sampleService s = .next (frameStart (tickSample s) { s with smpp := false, oscPhase := p }) ∧
      sampleService (serveByte b s) =
        .next (frameStart (tickSample s) { serveByte b s with smpp := false, oscPhase := p }) := by
  rw [serveByte_frame]
  rcases sampleService_cases s with ⟨-, hs⟩ | ⟨ht, ha, hs⟩ | ⟨-, -, -, hs⟩ | ⟨ht, ha, hlt, hs⟩
  · rw [hs] at h
    cases h
  · exact ⟨s.oscPhase, by simp [hs, tickSample, ha], by simp [sampleService, tickSample, ht, ha]⟩
  · rw [hs] at h
    cases h
  · refine ⟨advance s.oscPhase s.oscInc, by simp only [hs, tickSample, ha, if_true], ?_⟩
    simp only [sampleService, tickSample, ht, ha, hlt, if_true]
    rfl

/-- `FRAME` from a state whose `SVC` starts the frame of `d`. -/
theorem frameOps_framed (d : Sample12) (p : Phase) (s : State)
    (h : exec .svc s = .next (frameStart d { s with smpp := false, oscPhase := p })) :
    runOps frameOps s = .next (framed d p s) := by
  rw [frameOps, runOps_cons _ _ _ _ h, runOps_cons _ _ _ _ rfl, runOps_cons _ _ _ _ rfl, wholeFrame_eq]
  rfl

/-- The frame and the service of a byte in either order differ in the order of the output history alone. -/
theorem framed_serveByte (b : Byte) (d : Sample12) (p : Phase) (s : State) :
    framed d p (serveByte b s) =
      { serveByte b (framed d p s) with out := s.out ++ [.txb b] ++ frameEvents d } := by
  rw [serveByte_congr b s (framed d p s) rfl rfl rfl rfl, serveByte_frame b s]
  rfl

/-- Settles O26: the frame then the byte, and the byte then the frame, each run to its end. -/
theorem servicesCommute : Obligations.ServicesCommute := by
  intro s t hg hf hs hrxp h
  obtain ⟨v, hsvc, -⟩ := runOps_cons_next _ _ s t h
  obtain ⟨p, hbefore, hafter⟩ := sampleService_serveByte s.rxdata s v ((exec_svc_sample s hg hf hs).symm.trans hsvc)
  have hframe := frameOps_framed _ p s ((exec_svc_sample s hg hf hs).trans hbefore)
  have hbyte : runOps [.svc] (framed (tickSample s) p s) = .next (serveByte s.rxdata (framed (tickSample s) p s)) :=
    runOps_cons _ [] _ _ (exec_svc_serves (framed (tickSample s) p s) hg rfl rfl hrxp)
  obtain rfl := Host.Outcome.next.inj (((runOps_append frameOps [.svc] s _ hframe).trans hbyte).symm.trans h)
  have hlater : exec .svc (serveByte s.rxdata s) = sampleService (serveByte s.rxdata s) := by
    rw [serveByte_frame]
    exact exec_svc_sample _ hg hf hs
  refine ⟨framed (tickSample s) p (serveByte s.rxdata s), frameOps_framed _ p _ (hlater.trans hafter), ?_, ?_, ?_⟩
  · rw [framed_serveByte]
  · rw [serveByte_frame]
    rfl
  · rw [framed_serveByte]

/-! ### What stops an instruction (R250, R252) -/

/-- What can stop a host access: the address, or for a write the register or the value (44_host_port.md R221, R234). -/
theorem hostAccess_outcome (a : Byte) (acc : HostAccess) (s : State) :
    (∃ t, hostAccess a acc s = .next t) ∨
    (isUnmapped a = true ∧ hostAccess a acc s = .refused .hostUnmapped) ∨
    (∃ v, acc = .wr v ∧ isReadOnly a = true ∧ hostAccess a acc s = .refused .hostReadOnly) ∨
    (∃ v, acc = .wr v ∧ isBadValue a v = true ∧ hostAccess a acc s = .refused .hostBadValue) := by
  cases hr : regOfAddr a with
  | none => exact .inr (.inl ⟨(regOfAddr_eq_none_iff a).mp hr, hostAccess_unmapped a acc s hr⟩)
  | some r =>
    cases acc with
    | rd => exact .inl ⟨_, hostAccess_mapped a r .rd s hr⟩
    | wr v =>
      have hmapped : isUnmapped a = false :=
        Bool.eq_false_iff.mpr fun hu => by simp [(regOfAddr_eq_none_iff a).mpr hu] at hr
      obtain ⟨-, hreadOnly, hbad, hnext⟩ := hostWriteRefusals a v s
      by_cases h1 : isReadOnly a = true
      · exact .inr (.inr (.inl ⟨v, rfl, h1, hreadOnly h1⟩))
      by_cases h2 : isBadValue a v = true
      · exact .inr (.inr (.inr ⟨v, rfl, h2, hbad h2⟩))
      exact .inl (hnext hmapped (Bool.eq_false_iff.mpr h1) (Bool.eq_false_iff.mpr h2))

/-- What can stop `SVC`: tables that are not filled, or an index outside the table (42_synth.md R170, R174). -/
theorem execSvc_outcome (s : State) :
    (∃ t, execSvc s = .next t) ∨
    (svcEnabled s = true ∧ s.smpp = true ∧ s.tblValid = false ∧ execSvc s = .refused .tablesNotReady) ∨
    (Config.tableLength ≤ phaseIndex (advance s.oscPhase s.oscInc) ∧ execSvc s = .fault .tableIndexOutOfRange) := by
  rcases execSvc_cases s with ⟨-, h⟩ | ⟨he, hs, h⟩ | ⟨-, h⟩ <;> rw [h]
  · exact .inl ⟨s, rfl⟩
  · rcases sampleService_cases s with ⟨ht, h'⟩ | ⟨-, -, h'⟩ | ⟨-, -, hidx, h'⟩ | ⟨-, -, -, h'⟩
    · exact .inr (.inl ⟨he, hs, ht, h'⟩)
    · exact .inl ⟨_, h'⟩
    · exact .inr (.inr ⟨hidx, h'⟩)
    · exact .inl ⟨_, h'⟩
  · exact .inl ⟨_, rfl⟩

/-- An instruction that answers no next state is a byte that finds one waiting, performs `SVC`, or is a host access. -/
theorem exec_stopped_cases (i : Instr) (s : State) (h : ∀ t, exec i s ≠ .next t) :
    (∃ b, i = .rxb b ∧ s.rxp = true ∧ exec i s = .refused .rxOverrun) ∨
    performs i s = some .svc ∨ ∃ a acc, hostOperand i = some (a, acc) := by
  rcases performs_cases i s with hp | ⟨rfl, -⟩ | ⟨rfl, -⟩ | ⟨rfl, -⟩ | ⟨b, rfl, -⟩ | hp | hp | ⟨a, acc, ha, -⟩
  · exact absurd (exec_of_performs_none i s hp) (h s)
  · exact absurd rfl (h _)
  · exact absurd rfl (h _)
  · rcases execClk_cases s with ⟨-, hc⟩ | ⟨-, hc⟩ | ⟨-, -, hc⟩ <;> exact absurd hc (h _)
  · obtain ⟨hlatched, hrefused⟩ := rxbLatchesByte b s
    cases hrxp : s.rxp with
    | false => exact absurd (hlatched hrxp) (h _)
    | true => exact .inl ⟨b, rfl, rfl, hrefused hrxp⟩
  · exact .inr (.inl hp)
  · exact absurd (exec_of_performs_some i _ s hp) (h _)
  · exact .inr (.inr ⟨a, acc, ha⟩)

/-- A word other than `SVC` that performs it serves a byte, or sends a tick's sample with the tables filled
(logs 8, 9). -/
theorem performs_svc_cases (i : Instr) (s : State) (h : performs i s = some .svc) :
    i = .svc ∨ s.smpp = false ∨ s.tblValid = true := by
  have hserves (b : Byte) (hb : serves b s = true) : s.smpp = false := by
    obtain ⟨-, -, hsmpp, -⟩ := (rxDispatchable_iff s).mp ((serves_iff b s).mp hb).1
    exact hsmpp
  cases i with
  | svc => exact .inl rfl
  | stOff | stOn | other0 | other101 | other11 =>
    obtain ⟨hb, -⟩ := Option.ite_none_right_eq_some.mp h
    exact .inr (.inl (hserves _ hb))
  | midiEvent t c n v =>
    obtain ⟨hq, -⟩ := Option.ite_none_right_eq_some.mp h
    exact .inr (.inl (hserves v ((queues_iff t c n v s).mp hq).1))
  | dacFrame d =>
    obtain ⟨hsends, hop⟩ := Option.ite_none_right_eq_some.mp h
    obtain ⟨-, -, -, ht, -⟩ | ⟨hbusy, -⟩ := (sends_iff d s).mp hsends
    · exact .inr (.inr ht)
    · rw [if_pos ((frameInProgress_true_iff s).mpr hbusy)] at hop
      cases hop
  | rst | init | clk | rxb | xdone | hrd | hwr => cases h
  | qWidx acc | qRidx acc | irqCtrl acc | irqPend acc | tmrCtrl acc | tmrCount acc | tmrCnt acc | oscCtrl acc
  | oscPhase acc | oscInc acc | oscAmp acc | qSlot _ _ acc | nft _ acc => cases acc <;> cases h

/-- Settles O49: each of the three stops, with its refusals. -/
theorem refusalsComplete : Obligations.RefusalsComplete := by
  intro i s r h
  rcases exec_stopped_cases i s (by simp [h]) with ⟨b, hi, hrxp, hr⟩ | hsvc | ⟨a, acc, ha⟩
  · rw [hr] at h
    exact .inl ⟨(Host.Outcome.refused.inj h).symm, hrxp, b, hi⟩
  · rw [exec_of_performs_some i _ s hsvc] at h
    rcases execSvc_outcome s with ⟨t, ho⟩ | ⟨he, hs, ht, ho⟩ | ⟨-, ho⟩
    · cases ho.symm.trans h
    · have hi : i = .svc := (performs_svc_cases i s hsvc).resolve_right (by simp [hs, ht])
      cases ho.symm.trans h
      exact .inr (.inl ⟨rfl, hi, he, hs, ht⟩)
    · cases ho.symm.trans h
  · rw [exec_hostOperand i a acc s ha] at h
    rcases hostAccess_outcome a acc s with ⟨t, ho⟩ | ⟨hu, ho⟩ | ⟨v, rfl, hro, ho⟩ | ⟨v, rfl, hbad, ho⟩ <;>
      cases ho.symm.trans h
    · exact .inr (.inr (.inl ⟨rfl, a, acc, ha, hu⟩))
    · exact .inr (.inr (.inr (.inl ⟨rfl, a, v, ha, hro⟩)))
    · exact .inr (.inr (.inr (.inr ⟨rfl, a, v, ha, hbad⟩)))

/-- The one fault needs an index outside the table, and a phase and an increment in range give one inside
(10_state.md R23, R24, 42_synth.md R174). -/
theorem exec_ne_fault (i : Instr) (s : State) (hi : Inv s) (r : Fault) : exec i s ≠ .fault r := by
  intro h
  rcases exec_stopped_cases i s (by simp [h]) with ⟨b, -, -, hr⟩ | hsvc | ⟨a, acc, ha⟩
  · cases hr.symm.trans h
  · rw [exec_of_performs_some i _ s hsvc] at h
    rcases execSvc_outcome s with ⟨t, ho⟩ | ⟨-, -, -, ho⟩ | ⟨hidx, -⟩
    · cases ho.symm.trans h
    · cases ho.symm.trans h
    · exact hidx.not_gt (phaseIndex_lt _ (advance_lt _ _ hi.phase_lt hi.inc_lt))
  · rw [exec_hostOperand i a acc s ha] at h
    rcases hostAccess_outcome a acc s with ⟨t, ho⟩ | ⟨-, ho⟩ | ⟨v, -, -, ho⟩ | ⟨v, -, -, ho⟩ <;>
      cases ho.symm.trans h

/-- A step faults only where the instruction it has taken from the input does. -/
theorem not_faults_of_inv (s : State) (hi : Inv s) : ¬Faults s := by
  rintro ⟨r, h⟩
  by_cases hin : s.input = []
  · cases (step_of_input_nil s hin).symm.trans h
  · cases hd : decode s.format s.input with
    | ok i rest =>
      rw [step_of_decode_ok s i rest hin hd] at h
      exact exec_ne_fault i _ (inv_place s.format rest s hi) r h
    | error e => cases (step_of_decode_error s e hin hd).symm.trans h

/-- Every reachable state meets the invariant, by induction on the run: it holds after reset and every step keeps it. -/
theorem inv_of_reachable (s : State) (h : Reachable s) : Inv s := by
  induction h with
  | start f bs => exact inv_place f bs _ inv_reset
  | step s t _ ht ih => exact invKept s t ih ht

/-- Settles O50: no step faults in a state of the invariant, which every reachable state is. -/
theorem noFault : Obligations.NoFault :=
  ⟨not_faults_of_inv, fun s h => not_faults_of_inv s (inv_of_reachable s h)⟩

end Sys2Proof.Machine
end

section
/-! PROOFS. The statements on reset, boot and hazards (70_reset_and_hazards.md): what `RST` leaves and what of a partial
message survives it, the boot sequence with the silence after it, and the runs that meet the premises on the schedule. -/

namespace Sys2Proof.Machine

/-! ### RST (R290, R293) -/

/-- `RST` completes in every state (R290). -/
theorem exec_rst (s : State) : exec .rst s = .next (resetBlock s) := rfl

/-- Settles O2: `RST` sets what has a reset value, empties the storage, and touches neither history nor input. -/
theorem resetOperation : Obligations.ResetOperation := fun s =>
  ⟨resetBlock s, exec_rst s, resetBlock_holdsResetValues s, rfl, rfl, fun _ => rfl, fun _ => rfl, rfl, rfl⟩

/-! ### A partial message is gone (R293, 41_midi_rx.md R147) -/

/-- With no event in progress, a byte that is no status byte is echoed and leaves the receive path as it is. -/
theorem feed_idle (b : Byte) (s : State) (hb : isStatusByte b = false) (hs : s.rxState = .idle) :
    feed b s = { s with rxp := false, out := s.out ++ [.txb b], rxdata := b } := by
  rw [feed_eq, serveByte_idle b s hb hs]

/-- With no event in progress, bytes that are no status bytes leave the queue and the parser as they are. -/
theorem feeds_idle (bs : List Byte) (s : State) (hbs : ∀ b ∈ bs, isStatusByte b = false) (hs : s.rxState = .idle) :
    (feeds bs s).q = s.q ∧ (feeds bs s).widx = s.widx ∧ (feeds bs s).ridx = s.ridx ∧ (feeds bs s).rxState = .idle := by
  induction bs generalizing s with
  | nil => exact ⟨rfl, rfl, rfl, hs⟩
  | cons b bs ih =>
    obtain ⟨hb, hrest⟩ := List.forall_mem_cons.mp hbs
    rw [feeds, feed_idle b s hb hs]
    exact ih _ hrest hs

/-- Settles O3: with the mask open the block after `RST` takes and serves bytes, its parser in `IDLE`. -/
theorem resetDropsPartialMessage : Obligations.ResetDropsPartialMessage := by
  intro s t h bs hbs
  obtain rfl := Host.Outcome.next.inj ((exec_rst s).symm.trans h)
  obtain ⟨hrun, hready⟩ := rxMsgOps_run bs { resetBlock s with gie := true } ⟨rfl, rfl, rfl, rfl⟩
  obtain ⟨hq, hwidx, hridx, hstate⟩ := feeds_idle bs { resetBlock s with gie := true } hbs rfl
  exact ⟨_, (runOps_hwr regOfAddr_irqCtrl rfl _).trans hrun, hq, hwidx, hridx, hstate, hready.rxp, feeds_out bs _⟩

/-! ### The boot sequence (R299) -/

/-- The state in which the host has set the timer's count, started the timer and opened the mask. -/
def started (c : Timer16) (s : State) : State := { s with count := c, ten := true, gie := true }

/-- The state the boot sequence leaves: reset, with the tables filled, and started. -/
def booted (c : Timer16) (s : State) : State := started c { resetBlock s with wt := filledTables, tblValid := true }

theorem writeReg_tmrCount_setWidth (c : Timer16) (s : State) :
    writeReg .tmrCount (c.setWidth 24) s = .next { s with count := c } := by
  have hlow : (c.setWidth 24).extractLsb' 0 16 = c := by
    rw [BitVec.extractLsb'_setWidth_of_le (by decide), BitVec.extractLsb'_eq_self]
  rw [writeReg, hlow]

theorem startOps_run (c : Timer16) (s : State) :
    runOps [.hwr 0x09#8 (c.setWidth 24), .hwr 0x08#8 1#24, .hwr 0x04#8 1#24] s = .next (started c s) := by
  refine (runOps_hwr regOfAddr_tmrCount (writeReg_tmrCount_setWidth c _) _).trans ?_
  refine (runOps_hwr regOfAddr_tmrCtrl rfl _).trans ?_
  exact runOps_hwr regOfAddr_irqCtrl rfl _

theorem bootOps_run (c : Timer16) (s : State) : runOps (bootOps c) s = .next (booted c s) := by
  rw [bootOps, runOps_cons _ _ _ _ (exec_rst s), runOps_cons _ _ _ _ (exec_init _), startOps_run, booted]

/-- Between two ticks with the oscillator silent: the timer runs, the mask is open, no frame is in progress. -/
structure Silent (s : State) : Prop where
  inv : Inv s
  gie : s.gie = true
  ten : s.ten = true
  tblValid : s.tblValid = true
  oscActive : s.oscActive = false
  frState : s.frState = .idle

theorem silent_started (c : Timer16) (s : State) (hi : Inv s) (ht : s.tblValid = true) (ha : s.oscActive = false)
    (hf : s.frState = .idle) : Silent (started c s) :=
  ⟨{ hi with }, rfl, rfl, ht, ha, hf⟩

theorem silent_booted (c : Timer16) (s : State) : Silent (booted c s) :=
  silent_started c _ (inv_tables filledTables _ (inv_resetBlock s) filledTables_wf rfl) rfl rfl rfl

/-- `SAMPLE` with the oscillator silent: the clocks of the tick, then a frame of sample 0 (42_synth.md R171). -/
theorem sampleOps_silent (s : State) (h : Silent s) :
    ∃ t, runOps (sampleOps s) s = .next t ∧ Silent t ∧ t.out = s.out ++ frameEvents 0#12 := by
  obtain ⟨p, hframe, -⟩ := frameOps_run { s with cnt := 0#16, smpp := true } { h.inv with } h.gie h.frState rfl
    h.tblValid
  have hrun := (runOps_append _ frameOps _ _ (tickOps_run s h.ten)).trans hframe
  have hsample : tickSample { s with cnt := 0#16, smpp := true } = 0#12 := if_neg (Bool.eq_false_iff.mp h.oscActive)
  refine ⟨_, hrun, ⟨?_, h.gie, h.ten, h.tblValid, h.oscActive, rfl⟩, by rw [hsample]⟩
  exact runOps_induction Inv (fun _ => True) (fun i u v _ => inv_exec i u v) _ s _ (fun _ _ => trivial) h.inv hrun

/-- `SAMPLE`, `n` times, with the oscillator silent, by induction on the sample periods. -/
theorem playSamples_silent (n : ℕ) (s : State) (h : Silent s) :
    ∃ t, playSamples n s = .next t ∧ t.out = s.out ++ (List.replicate n (frameEvents 0#12)).flatten := by
  induction n generalizing s with
  | zero => exact ⟨s, rfl, (List.append_nil _).symm⟩
  | succ n ih =>
    obtain ⟨u, hrun, hu, hout⟩ := sampleOps_silent s h
    obtain ⟨t, hplay, hrest⟩ := ih u hu
    refine ⟨t, by rw [playSamples, hrun]; exact hplay, ?_⟩
    rw [hrest, hout, List.append_assoc, List.replicate_succ, List.flatten_cons]

/-- Settles O4: the run of the boot sequence, and the silence it leaves. The tables are rewritten, not compared by `rfl`,
so that Lean does not compute their 640 cells. -/
theorem bootSequence : Obligations.BootSequence := fun s c =>
  ⟨booted c s, bootOps_run c s, by rw [booted, started], rfl, rfl, rfl, rfl, rfl, rfl, rfl, rfl, rfl, rfl, rfl, rfl, rfl,
    rfl, rfl, rfl, rfl, rfl, fun _ => rfl, rfl, fun n => playSamples_silent n _ (silent_booted c s)⟩

/-! ### Premises along a run -/

section
variable {P Q : Instr → State → Prop}

/-- A premise that follows from another holds along every run that meets the other. -/
theorem holdsAlong_mono (hPQ : ∀ i u, P i u → Q i u) (ops : List Instr) (s : State) (h : holdsAlong P ops s) :
    holdsAlong Q ops s := by
  induction ops generalizing s with
  | nil => trivial
  | cons i is ih => exact ⟨hPQ i s h.1, fun t ht => ih t (h.2 t ht)⟩

/-- Two premises that hold along a run hold together along it. -/
theorem holdsAlong_and (ops : List Instr) (s : State) (hP : holdsAlong P ops s) (hQ : holdsAlong Q ops s) :
    holdsAlong (fun i u => P i u ∧ Q i u) ops s := by
  induction ops generalizing s with
  | nil => trivial
  | cons i is ih => exact ⟨⟨hP.1, hQ.1⟩, fun t ht => ih t (hP.2 t ht) (hQ.2 t ht)⟩

/-- What every instruction of a list meets in every state holds along its run. -/
theorem holdsAlong_of_forall_mem (ops : List Instr) (s : State) (h : ∀ i ∈ ops, ∀ u, P i u) : holdsAlong P ops s := by
  induction ops generalizing s with
  | nil => trivial
  | cons i is ih =>
    obtain ⟨hi, his⟩ := List.forall_mem_cons.mp h
    exact ⟨hi s, fun t _ => ih t his⟩

/-- A premise on a run of two lists holds along the second from where the first ends. -/
theorem holdsAlong_append_right (is js : List Instr) (s u : State) (h : holdsAlong P (is ++ js) s)
    (hu : runOps is s = .next u) : holdsAlong P js u := by
  induction is generalizing s with
  | nil => cases hu; exact h
  | cons i is ih =>
    obtain ⟨v, hv, hrest⟩ := runOps_cons_next i is s u hu
    exact ih v (h.2 v hv) hrest

end

/-! ### No tick and no byte is lost (R307, R311 (a) to (c)) -/

/-- A match finds no tick and no byte waiting. -/
def nothingWaits (i : Instr) (s : State) : Prop := timerMatches i s = true → s.smpp = false ∧ s.rxp = false

/-- With the framer idle and the mask open at a match, a request would enable `SVC`, which has stepped by then. -/
theorem nothingWaits_of_prompt (i : Instr) (s : State) (htransport : transportPrompt i s) (hservice : servicePrompt i s)
    (hmask : maskShort i s) : nothingWaits i s := by
  intro hmatch
  have hoff : ¬svcEnabled s = true := fun hon => by simp [(hservice hon).1] at hmatch
  have hidle := htransport hmatch
  have hopen := hmask hmatch
  simpa [svcEnabled_iff, hidle, hopen] using hoff

/-- The three premises along a run, put together instruction by instruction. -/
theorem holdsAlong_nothingWaits (ops : List Instr) (s : State) (htransport : holdsAlong transportPrompt ops s)
    (hservice : holdsAlong servicePrompt ops s) (hmask : holdsAlong maskShort ops s) : holdsAlong nothingWaits ops s :=
  holdsAlong_mono (fun i u ⟨⟨ht, hs⟩, hm⟩ => nothingWaits_of_prompt i u ht hs hm) ops s
    (holdsAlong_and ops s (holdsAlong_and ops s htransport hservice) hmask)

/-- Where no byte waits, none waits after a run that none arrives in: only `RXB` raises `RXP` (60_exceptions.md R254). -/
theorem runOps_rxp_false (ops : List Instr) (s t : State) (hops : ∀ i ∈ ops, ∀ b, i ≠ .rxb b) (hs : s.rxp = false)
    (h : runOps ops s = .next t) : t.rxp = false := by
  refine runOps_induction (fun u => u.rxp = false) (fun i => ∀ b, i ≠ .rxb b) ?_ ops s t hops hs h
  intro i u v hi hu hv
  obtain ⟨-, -, hraised, -⟩ := pendingBits i u v hv
  refine Bool.eq_false_iff.mpr fun hv => ?_
  obtain ⟨b, hb⟩ := hraised hu hv
  exact hi b hb

/-- Once a tick has matched and no byte has come since, no byte waits. -/
theorem rxp_false_after_match (pre post : List Instr) (s t u : State) (h : runOps (pre ++ .clk :: post) s = .next t)
    (hwaits : holdsAlong nothingWaits (pre ++ .clk :: post) s) (hu : runOps pre s = .next u)
    (hmatch : timerMatch u = true) (hpost : ∀ i ∈ post, ∀ b, i ≠ .rxb b) : t.rxp = false := by
  obtain ⟨hclk, -⟩ := holdsAlong_append_right pre (.clk :: post) s u hwaits hu
  obtain ⟨-, hrxp⟩ := hclk (by simp [timerMatches, hmatch])
  rw [runOps_append pre _ s u hu] at h
  exact runOps_rxp_false (.clk :: post) u t (List.forall_mem_cons.mpr ⟨fun _ => nofun, hpost⟩) hrxp h

/-! ### No event shown is lost (R301, R311 (d)) -/

/-- Only `RST` begins a new epoch of the unwritten storage (log 4). -/
theorem exec_epoch (i : Instr) (s t : State) (hrst : i ≠ .rst) (h : exec i s = .next t) : t.epoch = s.epoch := by
  rcases exec_next_cases i s t h with ⟨-, rfl⟩ | ⟨rfl, -⟩ | ⟨-, rfl⟩ | ⟨-, hclk⟩ | ⟨b, -, -, rfl⟩ | ⟨-, hsvc⟩ |
    ⟨-, rfl⟩ | ⟨-, -, -, rfl⟩ | ⟨-, v, r, -, -, -, hwr⟩
  · rfl
  · exact absurd rfl hrst
  · rfl
  · rcases execClk_next s t hclk with rfl | ⟨-, rfl⟩ | rfl <;> rfl
  · rfl
  · rcases execSvc_next s t hsvc with ⟨-, rfl⟩ | ⟨-, -, -, p, -, -, rfl⟩ | ⟨-, rfl⟩
    · rfl
    · rfl
    · rw [serveByte_frame]
  · rcases completion_cases s with ⟨-, he⟩ | ⟨-, he⟩ | ⟨-, he⟩ <;> rw [he]
  · rfl
  · rcases writeReg_next r v s t hwr with ⟨-, -, rfl⟩ | ⟨-, rfl⟩ | ⟨-, rfl⟩ | ⟨-, rfl⟩ | ⟨-, rfl⟩ | ⟨-, -, rfl⟩ |
      ⟨-, -, rfl⟩ | ⟨-, rfl⟩ <;> rfl

/-- What serves no byte, and is neither `RST` nor the host's move of the read index, leaves the events shown as they are
(20_memory.md R67). -/
theorem shownEvents_of_not_serves (i : Instr) (s t : State) (hrst : i ≠ .rst) (hridx : hostWrites i ≠ some .qRidx)
    (hserves : ¬(performs i s = some .svc ∧ rxDispatchable s = true)) (h : exec i s = .next t) :
    shownEvents t = shownEvents s := by
  obtain ⟨hqueue, hread, -⟩ := ownership i s t hrst h
  have hkept := mt hqueue hserves
  simp only [not_or, not_not] at hkept
  obtain ⟨hq, hw, -⟩ := hkept
  exact shownEvents_congr s t hw (not_not.mp (mt hread hridx))
    fun j f _ => readSlot_congr s t j f hq (exec_epoch i s t hrst h)

/-- Serving a byte adds the event it completes, and where it completes none leaves the events shown (R301). -/
theorem shownEvents_grow_of_serves (s t : State) (hrx : rxDispatchable s = true) (h : exec .svc s = .next t)
    (hcount : completes s.rxdata s = true → shownCount s ≤ 8) : shownEvents s <+: shownEvents t := by
  obtain ⟨hkept, hadded⟩ := shownEventsGrow s t hrx h
  cases hc : completes s.rxdata s with
  | false => rw [hkept hc]
  | true => exact ⟨_, (hadded hc (hcount hc)).symm⟩

/-- An instruction under consumer progress takes no event off those shown, unless it is the host's move or `RST`. -/
theorem shownEvents_grow (i : Instr) (s t : State) (hrst : i ≠ .rst) (hridx : hostWrites i ≠ some .qRidx)
    (hprompt : consumerPrompt i s) (h : exec i s = .next t) : shownEvents s <+: shownEvents t := by
  by_cases hserves : performs i s = some .svc ∧ rxDispatchable s = true
  · obtain ⟨hsvc, hrx⟩ := hserves
    rw [exec_of_performs_some i _ s hsvc] at h
    exact shownEvents_grow_of_serves s t hrx h (hprompt hsvc hrx)
  · rw [shownEvents_of_not_serves i s t hrst hridx hserves h]

/-- Settles O27: by the first three premises nothing waits at a match, and by the fourth every instruction keeps the
events shown. -/
theorem promptRuns : Obligations.PromptRuns := by
  refine ⟨fun ops s t h htransport hservice hmask => ?_, fun ops s t h hprompt hops => ?_⟩
  · have hwaits := holdsAlong_nothingWaits ops s htransport hservice hmask
    refine ⟨hwaits, ?_⟩
    rintro ⟨pre, post, u, rfl, hu, hmatch, hpost⟩
    have hrxp := rxp_false_after_match pre post s t u h hwaits hu hmatch hpost
    exact ⟨hrxp, fun b => ⟨_, (rxbLatchesByte b t).1 hrxp⟩⟩
  · have halong := holdsAlong_and ops s hprompt (holdsAlong_of_forall_mem ops s fun i hi _ => hops i hi)
    exact runOps_along _ (fun u => shownEvents s <+: shownEvents u)
      (fun i u v ⟨hpop, hrst, hridx⟩ hu hv => hu.trans (shownEvents_grow i u v hrst hridx hpop hv)) ops s t halong
      ⟨[], List.append_nil _⟩ h

end Sys2Proof.Machine
end
